-- ==== Sys2Proof/Word.lean ====
section
/-! DEFINITION. The word of the command port and the byte of the shared memory. -/

namespace Sys2Proof

/-- A value on the command port or in a response: 32 bits (spec R70, R181). -/
abbrev Word := BitVec 32

/-- A byte of the shared memory: 0..255 (spec R50). -/
abbrev Byte := BitVec 8

end Sys2Proof
end

