-- ==== Sys2Proof/Config.lean ====
section
/-! DEFINITION. What an implementation fixes (spec R8) and what the spec leaves free (spec U13). -/

namespace Sys2Proof

/-- The implementation parameters of spec R8.
They are fixed for a machine and differ between machines, so they stand in the state as plain data that no step
writes, and every statement holds for all of their legal values. -/
structure Config where
  /-- `N_CTX`: number of independent contexts. -/
  nCtx      : Nat
  /-- `SQ_MAX`: largest symbol-queue capacity that SQ_INIT accepts. -/
  sqMax     : Nat
  /-- `ADDR_W`: width in bits of a byte address. -/
  addrW     : Nat
  /-- `STOP_GUARD`: whether BE_STOP appends the guard byte of spec R106. -/
  stopGuard : Bool
  deriving DecidableEq, Repr

/-- The legal values of spec R8. -/
abbrev Config.Legal (c : Config) : Prop :=
  1 ≤ c.nCtx ∧ c.nCtx ≤ 16 ∧ 1 ≤ c.sqMax ∧ c.sqMax < 2 ^ 32 ∧ 16 ≤ c.addrW ∧ c.addrW ≤ 32

/-- The values used in the spec's vectors (spec R8, last column).
DESIGN CHOICE (assumption 1): the parameters of `State.reset`. -/
def Config.vectors : Config := { nCtx := 1, sqMax := 1024, addrW := 32, stopGuard := true }

/-- The 17 bits that record `i` of the symbol queue of context `c` holds at power-up, before anything is written
there: "unspecified" (spec R30, R230; U13: any value).
A free value: it has no body, so no proof can see it (assumption 4). -/
opaque Config.unwrittenRecord : Nat → Nat → BitVec 17

end Sys2Proof
end

