-- ==== Sys2Proof/Syntax.lean ====
section
/-! DEFINITION. The commands of the block: one constructor per row of spec/opcode_table.json (spec R76). -/

namespace Sys2Proof

/-- A command with its operands as the encoding carries them (spec R71, R73, R74).
`ctx` is the CTX field; `a` is the A field of a command with a bit operand, whose bit is `A[0]` (spec R73);
`base`, `len` and `capacity` are the extension words. -/
inductive Instr where
  /-- BE_START: begin a bool-encoder unit (spec R102). -/
  | beStart (ctx : BitVec 4) (base len : Word)
  /-- BE_WRITE: encode one bit (spec R105). -/
  | beWrite (ctx : BitVec 4) (a p : BitVec 8)
  /-- BE_STOP: finish the bool-encoder unit (spec R106). -/
  | beStop (ctx : BitVec 4)
  /-- BD_INIT: bind an input region and prime the decoder (spec R123). -/
  | bdInit (ctx : BitVec 4) (base len : Word)
  /-- BD_READ: decode one bit (spec R124). -/
  | bdRead (ctx : BitVec 4) (p : BitVec 8)
  /-- ANS_INIT: begin an ANS unit (spec R142). -/
  | ansInit (ctx : BitVec 4) (base len : Word)
  /-- ANS_UABS: encode one bit with uABS (spec R143). -/
  | ansUabs (ctx : BitVec 4) (a p0 : BitVec 8)
  /-- ANS_RANS: encode one symbol with rANS (spec R144). -/
  | ansRans (ctx : BitVec 4) (cum prob : BitVec 8)
  /-- ANS_END: finish the ANS unit by writing the final state (spec R145). -/
  | ansEnd (ctx : BitVec 4)
  /-- SQ_INIT: bind a record store of a given capacity and empty it (spec R161). -/
  | sqInit (ctx : BitVec 4) (capacity : Word)
  /-- SQ_UABS: append a uABS record (spec R162). -/
  | sqUabs (ctx : BitVec 4) (a p : BitVec 8)
  /-- SQ_RANS: append an rANS record (spec R163). -/
  | sqRans (ctx : BitVec 4) (cum prob : BitVec 8)
  /-- SQ_FLUSH: replay the queue into the ANS engine, last record first (spec R164). -/
  | sqFlush (ctx : BitVec 4)
  /-- REG_READ: read one register by number (spec R180). -/
  | regRead (ctx : BitVec 4) (reg : BitVec 8)
  deriving DecidableEq, Repr

end Sys2Proof
end

