-- ==== Sys2Proof/WellFormed.lean ====
section
/-! DEFINITION. Well-formed commands: those that have a legal encoding (spec R73, R77).

The widths of all fields are carried by their types. What is left to check is the reserved part of the A field of a
command with a bit operand: "`A[7:1]` must be 0" (spec R73). Operand values that are encodable but excluded by a
rule (probability 0, `cum + p > 256`, an unassigned register number, an absent context) are well-formed: they are
"not encoding errors" (spec R79) and fault when the command executes. -/

namespace Sys2Proof

/-- The A field of a command with a bit operand is legal: `A[7:1] = 0` (spec R73). -/
def bitFieldOk (a : BitVec 8) : Bool := a.extractLsb' 1 7 == 0#7

/-- The command has a legal encoding (spec R73). -/
def Instr.wf : Instr → Bool
  | .beStart _ _ _ => true
  | .beWrite _ a _ => bitFieldOk a
  | .beStop _      => true
  | .bdInit _ _ _  => true
  | .bdRead _ _    => true
  | .ansInit _ _ _ => true
  | .ansUabs _ a _ => bitFieldOk a
  | .ansRans _ _ _ => true
  | .ansEnd _      => true
  | .sqInit _ _    => true
  | .sqUabs _ a _  => bitFieldOk a
  | .sqRans _ _ _  => true
  | .sqFlush _     => true
  | .regRead _ _   => true

end Sys2Proof
end

