-- ==== Sys2Proof/Decode.lean ====
section
/-! DEFINITION. The command decoder (spec R70 to R78), total on every command word, and the encoder written from the
same tables. -/

namespace Sys2Proof

/-! ### The command word, format CW (spec R71) -/

/-- `OP`, bits 31:28. -/
def opField (w : Word) : BitVec 4 := w.extractLsb' 28 4

/-- `CTX`, bits 27:24. -/
def ctxField (w : Word) : BitVec 4 := w.extractLsb' 24 4

/-- `A`, bits 23:16. -/
def aField (w : Word) : BitVec 8 := w.extractLsb' 16 8

/-- `B`, bits 15:8. -/
def bField (w : Word) : BitVec 8 := w.extractLsb' 8 8

/-- `RSV`, bits 7:0. -/
def rsvField (w : Word) : BitVec 8 := w.extractLsb' 0 8

/-- The command word with the given fields and `RSV = 0` (spec R71). -/
def commandWord (op ctx : BitVec 4) (a b : BitVec 8) : Word := op ++ ctx ++ a ++ b ++ 0#8

/-! ### The opcode map (spec R75, R76) -/

/-- Number of words of a command, "a function of `OP` alone" (spec R75). -/
def commandLength (w : Word) : Nat :=
  match (opField w).toNat with
  | 0x1 => 3
  | 0x4 => 3
  | 0x6 => 3
  | 0xA => 2
  | _   => 1

/-- Opcodes 0x0 and 0xF are reserved (spec R78). -/
def opIllegal (w : Word) : Bool := opField w == 0x0#4 || opField w == 0xF#4

/-- The A field holds no illegal value: it is an 8-bit operand (0x8, 0xC, 0xE), a bit operand (0x2, 0x7, 0xB), or
unused and 0 (spec R73, R76). -/
def aFieldOk (w : Word) : Bool :=
  match (opField w).toNat with
  | 0x2 => bitFieldOk (aField w)
  | 0x7 => bitFieldOk (aField w)
  | 0xB => bitFieldOk (aField w)
  | 0x8 => true
  | 0xC => true
  | 0xE => true
  | _   => aField w == 0#8

/-- The B field holds no illegal value: it is a probability operand, or unused and 0 (spec R73, R76). -/
def bFieldOk (w : Word) : Bool :=
  match (opField w).toNat with
  | 0x2 => true
  | 0x5 => true
  | 0x7 => true
  | 0x8 => true
  | 0xB => true
  | 0xC => true
  | _   => bField w == 0#8

/-- No reserved or unused field is non-zero (spec R73, R78). -/
def reservedOk (w : Word) : Bool := aFieldOk w && bFieldOk w && rsvField w == 0#8

/-! ### Decoding -/

/-- Why a word is no command: items 2 to 4 of the priority order of spec R201. -/
inductive Reject where
  /-- `OP` is 0x0 or 0xF (spec R78). -/
  | illegalOpcode
  /-- The stream ends before the last extension word (spec R75). -/
  | truncatedCommand
  /-- A reserved or unused field is non-zero (spec R73, R78). -/
  | reservedNonzero
  deriving DecidableEq, Repr

/-- The command of a legal word whose extension words are the first of `ext`; `none` for a reserved opcode
(spec R74, R76). -/
def decodeFields (w : Word) (ext : List Word) : Option Instr :=
  let c := ctxField w
  let a := aField w
  let b := bField w
  let x1 := ext.getD 0 0
  let x2 := ext.getD 1 0
  match (opField w).toNat with
  | 0x1 => some (.beStart c x1 x2)
  | 0x2 => some (.beWrite c a b)
  | 0x3 => some (.beStop c)
  | 0x4 => some (.bdInit c x1 x2)
  | 0x5 => some (.bdRead c b)
  | 0x6 => some (.ansInit c x1 x2)
  | 0x7 => some (.ansUabs c a b)
  | 0x8 => some (.ansRans c a b)
  | 0x9 => some (.ansEnd c)
  | 0xA => some (.sqInit c x1)
  | 0xB => some (.sqUabs c a b)
  | 0xC => some (.sqRans c a b)
  | 0xD => some (.sqFlush c)
  | 0xE => some (.regRead c a)
  | _   => none

/-- Decode the command word `w` followed by the words `ext`, with the checks of spec R201 items 2 to 4 in their
order. Total on every word; words of `ext` past the command's own are not looked at. -/
def decode (w : Word) (ext : List Word) : Except Reject Instr :=
  if opIllegal w then .error .illegalOpcode
  else if ext.length + 1 < commandLength w then .error .truncatedCommand
  else if !reservedOk w then .error .reservedNonzero
  else match decodeFields w ext with
    | some i => .ok i
    | none   => .error .illegalOpcode

/-- The table of spec R77: opcode, match and mask of each command word. -/
def maskTable : List (BitVec 4 × Word × Word) :=
  [ (0x1, 0x10000000, 0xF0FFFFFF),
    (0x2, 0x20000000, 0xF0FE00FF),
    (0x3, 0x30000000, 0xF0FFFFFF),
    (0x4, 0x40000000, 0xF0FFFFFF),
    (0x5, 0x50000000, 0xF0FF00FF),
    (0x6, 0x60000000, 0xF0FFFFFF),
    (0x7, 0x70000000, 0xF0FE00FF),
    (0x8, 0x80000000, 0xF00000FF),
    (0x9, 0x90000000, 0xF0FFFFFF),
    (0xA, 0xA0000000, 0xF0FFFFFF),
    (0xB, 0xB0000000, 0xF0FE00FF),
    (0xC, 0xC0000000, 0xF00000FF),
    (0xD, 0xD0000000, 0xF0FFFFFF),
    (0xE, 0xE0000000, 0xF000FFFF) ]

/-! ### Encoding -/

/-- The opcode of a command (spec R76). -/
def Instr.opcode : Instr → BitVec 4
  | .beStart _ _ _ => 0x1
  | .beWrite _ _ _ => 0x2
  | .beStop _      => 0x3
  | .bdInit _ _ _  => 0x4
  | .bdRead _ _    => 0x5
  | .ansInit _ _ _ => 0x6
  | .ansUabs _ _ _ => 0x7
  | .ansRans _ _ _ => 0x8
  | .ansEnd _      => 0x9
  | .sqInit _ _    => 0xA
  | .sqUabs _ _ _  => 0xB
  | .sqRans _ _ _  => 0xC
  | .sqFlush _     => 0xD
  | .regRead _ _   => 0xE

/-- The context a command names (spec R72). -/
def Instr.ctx : Instr → BitVec 4
  | .beStart c _ _ => c
  | .beWrite c _ _ => c
  | .beStop c      => c
  | .bdInit c _ _  => c
  | .bdRead c _    => c
  | .ansInit c _ _ => c
  | .ansUabs c _ _ => c
  | .ansRans c _ _ => c
  | .ansEnd c      => c
  | .sqInit c _    => c
  | .sqUabs c _ _  => c
  | .sqRans c _ _  => c
  | .sqFlush c     => c
  | .regRead c _   => c

/-- The first word of a command (spec R71, R76). -/
def Instr.word : Instr → Word
  | .beStart c _ _       => commandWord 0x1 c 0 0
  | .beWrite c a p       => commandWord 0x2 c a p
  | .beStop c            => commandWord 0x3 c 0 0
  | .bdInit c _ _        => commandWord 0x4 c 0 0
  | .bdRead c p          => commandWord 0x5 c 0 p
  | .ansInit c _ _       => commandWord 0x6 c 0 0
  | .ansUabs c a p0      => commandWord 0x7 c a p0
  | .ansRans c cum prob  => commandWord 0x8 c cum prob
  | .ansEnd c            => commandWord 0x9 c 0 0
  | .sqInit c _          => commandWord 0xA c 0 0
  | .sqUabs c a p        => commandWord 0xB c a p
  | .sqRans c cum prob   => commandWord 0xC c cum prob
  | .sqFlush c           => commandWord 0xD c 0 0
  | .regRead c reg       => commandWord 0xE c reg 0

/-- The extension words of a command (spec R74). -/
def Instr.ext : Instr → List Word
  | .beStart _ base len => [base, len]
  | .bdInit _ base len  => [base, len]
  | .ansInit _ base len => [base, len]
  | .sqInit _ capacity  => [capacity]
  | .beWrite _ _ _      => []
  | .beStop _           => []
  | .bdRead _ _         => []
  | .ansUabs _ _ _      => []
  | .ansRans _ _ _      => []
  | .ansEnd _           => []
  | .sqUabs _ _ _       => []
  | .sqRans _ _ _       => []
  | .sqFlush _          => []
  | .regRead _ _        => []

/-- The words of a command, in the order the host sends them (spec R70). -/
def encode (i : Instr) : List Word := i.word :: i.ext

/-! ### The table's numbering of an instruction's bits -/

/-- The words of an instruction whose bits are `w`, numbered from bit 0 of the first word, with every bit from
`nbits` on equal to 0: as many words as the first one's opcode asks for (spec R75). -/
def tableWords (nbits w : Nat) : List Word :=
  let bits := w % 2 ^ nbits
  let first := BitVec.ofNat 32 bits
  [first, BitVec.ofNat 32 (bits >>> 32), BitVec.ofNat 32 (bits >>> 64)].take (commandLength first)

/-- The command the decoder reads from an instruction of spec/opcode_table.json whose bits are `w`. -/
def decodeTableWord (nbits w : Nat) : Option Instr :=
  match tableWords nbits w with
  | []       => none
  | c :: ext => match decode c ext with
    | .ok i    => some i
    | .error _ => none

end Sys2Proof
end

