-- ==== Sys2Proof/Machine/State.lean ====
section
/-! DEFINITION. Everything the spec gives the machine, as plain data (spec 10_state.md), and the state after reset
(spec R37, R230). -/

namespace Sys2Proof.Machine

/-! ### Engine registers -/

/-- The lifecycle register `lc` of an engine (spec R24): UNINIT = 0, ACTIVE = 1, FINAL = 2. -/
inductive Lifecycle where
  | uninit
  | active
  | final
  deriving DecidableEq, Repr

/-- The bool encoder registers of a context (spec R25). `count` is signed. -/
structure BeRegs where
  lc    : Lifecycle
  low   : BitVec 32
  range : BitVec 8
  count : BitVec 8
  pos   : BitVec 32
  base  : BitVec 32
  cap   : BitVec 32
  deriving DecidableEq, Repr

/-- The bool decoder registers of a context (spec R27). `bitpos` is an unbounded natural (spec R28). -/
structure BdRegs where
  lc     : Lifecycle
  value  : BitVec 8
  range  : BitVec 8
  bitpos : Nat
  base   : BitVec 32
  size   : BitVec 32
  deriving DecidableEq, Repr

/-- The ANS registers of a context (spec R29). -/
structure AnsRegs where
  lc   : Lifecycle
  x    : BitVec 32
  off  : BitVec 32
  base : BitVec 32
  cap  : BitVec 32
  deriving DecidableEq, Repr

/-- The tag of a record, bit 16 (spec R160): 0 = UABS, 1 = RANS. -/
inductive RecordTag where
  | uabs
  | rans
  deriving DecidableEq, Repr

/-- A record of the symbol queue, 17 bits (spec R30, R160). `vs` is the bit of a UABS record and the cumulative start
of a RANS record. -/
structure SqRecord where
  tag  : RecordTag
  vs   : BitVec 8
  prob : BitVec 8
  deriving DecidableEq, Repr

/-- The record store of a context: the records written so far by index, indices strictly rising. What an index that
is not listed holds is `Config.unwrittenRecord` (assumption 4). -/
abbrev RecordStore := List (Nat × SqRecord)

/-- The symbol queue of a context (spec R30). -/
structure SqRegs where
  lc   : Lifecycle
  len  : BitVec 32
  cap  : BitVec 32
  recs : RecordStore
  deriving DecidableEq, Repr

/-- A context: one independent set of the four engines (spec R23). -/
structure Context where
  be  : BeRegs
  bd  : BdRegs
  ans : AnsRegs
  sq  : SqRegs
  deriving DecidableEq, Repr

/-! ### The shared memory -/

/-- The shared memory `Mem` (spec R50): the bytes that differ from `Memory.unlistedByte`, by address, addresses
strictly rising (`Memory.wf`). -/
abbrev Memory := List Host.Cell

/-! ### Faults, responses, host turns -/

/-- The spec's fault codes (spec R200). These are recorded by the block, and taking one is a next state. -/
inductive FaultCode where
  | illegalOpcode
  | reservedNonzero
  | badContext
  | lifecycle
  | badProbability
  | badSymbolRange
  | badRegion
  | badCapacity
  | outputOverrun
  | queueFull
  | badRegister
  | carryUnderflow
  | ansStateInvariant
  | truncatedCommand
  deriving DecidableEq, Repr

/-- The status of a response (spec R181): OK = 0, FAULTED = 1. -/
inductive Status where
  | ok
  | faulted
  deriving DecidableEq, Repr

/-- The one response a command produces (spec R181). -/
structure Response where
  status : Status
  value  : Word
  deriving DecidableEq, Repr

/-- What the host does between commands (spec R62: "one interleaving of whole host steps and whole commands"). -/
inductive HostAction where
  /-- Send command words (spec R70). -/
  | send (words : List Word)
  /-- Write a byte of the shared memory, which the host owns (spec R50, R56). -/
  | write (addr : Nat) (value : Byte)
  /-- Assert reset (spec R230). -/
  | reset
  deriving DecidableEq, Repr

/-- Why the machine stops outside the spec's own fault model. -/
inductive Fault where
  /-- An access to an address at or past `2^ADDR_W`, which does not exist (spec R50; assumption 8). Raised by `memRead` and
  `memWrite`, and by a host turn that writes there. Safe: the model stops. No command raises it in a state that a run
  from reset reaches (spec R51, R52). -/
  | addressOutsideMemory
  deriving DecidableEq, Repr

/-- Why a command is given no meaning. -/
inductive Refusal where
  /-- The command has no meaning in the model yet. Raised only by an arm of `exec`. Safe: the model stops. -/
  | notModelled (mnemonic : String)
  deriving DecidableEq, Repr

/-- Why a command's working copy is dropped (spec R182): a fault of the spec, or a stop of the model. -/
inductive Abort where
  /-- `raise Fault(code)` (spec R12). -/
  | raise (code : FaultCode)
  /-- The model stops. -/
  | stop (f : Fault)
  deriving DecidableEq, Repr

/-- What a command that finishes leaves in its working copy: the context it named, the memory, and its `result`
(spec R12, R182). A command can change nothing else. -/
structure Done where
  ctx   : Context
  mem   : Memory
  value : Word
  deriving DecidableEq, Repr

/-! ### The whole state -/

/-- The state of the block, of the memory it shares with the host, and of the command port. -/
structure State where
  /-- The parameters (spec R8), and with them CFG_NCTX, CFG_SQMAX and CFG_FLAGS (spec R33). -/
  cfg       : Config
  /-- The contexts (spec R23). `N_CTX` is at most 16 (spec R8); a slot at or past `N_CTX` stands for no context of the
  block, and no command reaches it (spec R72). -/
  ctxs      : Vector Context 16
  /-- The shared memory (spec R50). -/
  mem       : Memory
  /-- FAULT_CODE (spec R33). -/
  faultCode : BitVec 8
  /-- FAULT_CMD (spec R33). -/
  faultCmd  : Word
  /-- The words the host has still to send (spec R183). -/
  stream    : List Word
  /-- The response of the last command (spec R181); none when no command has run since reset. -/
  response  : Option Response
  /-- The host's turns after the words in `stream`, first one first (assumption 3; the model's own field). -/
  inbox     : List HostAction
  deriving DecidableEq, Repr

/-! ### Reset (spec R37, R230) -/

/-- BE after reset (spec R25). -/
def BeRegs.reset : BeRegs := ⟨.uninit, 0, 0, 0, 0, 0, 0⟩

/-- BD after reset (spec R27). -/
def BdRegs.reset : BdRegs := ⟨.uninit, 0, 0, 0, 0, 0⟩

/-- ANS after reset (spec R29). -/
def AnsRegs.reset : AnsRegs := ⟨.uninit, 0, 0, 0, 0⟩

/-- SQ at power-up (spec R30): no record has been written. -/
def SqRegs.reset : SqRegs := ⟨.uninit, 0, 0, []⟩

/-- A context at power-up. -/
def Context.reset : Context := ⟨.reset, .reset, .reset, .reset⟩

/-- The state right after power-up reset of a block with the given parameters (spec R230). -/
def State.resetWith (cfg : Config) : State where
  cfg       := cfg
  ctxs      := Vector.replicate 16 Context.reset
  mem       := []
  faultCode := 0
  faultCmd  := 0
  stream    := []
  response  := none
  inbox     := []

/-- The state right after power-up reset, with the parameters of the spec's vectors (assumption 1). -/
def State.reset : State := State.resetWith Config.vectors

end Sys2Proof.Machine
end

