-- ==== Sys2Proof/Machine/Arith.lean ====
section
/-! DEFINITION. The fixed constants (spec R9) and the arithmetic the bool encoder and decoder share (spec R100,
R101), on natural numbers as spec R11 says. -/

namespace Sys2Proof.Machine

/-- Scale of a probability: `p` means P(bit = 0) = p/256 (spec R9, R13). Also the ANS precision `ANS_P` (spec R140)
and the number of slots of a rANS alphabet (spec R144). -/
@[simp] def probScale : Nat := 256

/-- BE initial range (spec R9). -/
@[simp] def beInitialRange : Nat := 255

/-- BE initial count (spec R9). -/
@[simp] def beInitialCount : Int := -24

/-- BE_STOP pads with this many zero bits at probability 128 (spec R9, R106). -/
def beStopPadding : Nat := 32

/-- The probability of the marker and of the padding bits (spec R102, R106, R123). -/
@[simp] def fairProb : Nat := 128

/-- BD initial range (spec R9). -/
@[simp] def bdInitialRange : Nat := 255

/-- `ANS_L`, the lower bound of the ANS state (spec R9, R140). -/
@[simp] def ansL : Nat := 1024

/-- `ANS_IO`, the base in which the ANS state is output (spec R9, R140). -/
@[simp] def ansIO : Nat := 256

/-- `split(R, p) = 1 + (((R - 1) * p) >> 8)` (spec R100). -/
def splitPoint (r p : Nat) : Nat := 1 + (((r - 1) * p) >>> 8)

/-- `norm(r)`: the number of left shifts that bring `r` into [128, 255], as the table of spec R101 gives it;
`norm(0) = 0`. -/
def normShift (r : Nat) : Nat :=
  if r = 0 then 0
  else if r < 2 then 7
  else if r < 4 then 6
  else if r < 8 then 5
  else if r < 16 then 4
  else if r < 32 then 3
  else if r < 64 then 2
  else if r < 128 then 1
  else 0

end Sys2Proof.Machine
end

