-- ==== Sys2Proof/Machine/Flags.lean ====
section
/-! DEFINITION. Status conditions. The block has no condition flags (spec R22): its status is the recorded fault code,
the halted condition (spec R34), the lifecycle of each engine (spec R24) and the status of a response (spec R181). -/

namespace Sys2Proof.Machine

/-- The code of a fault, as FAULT_CODE and a FAULTED response hold it (spec R200). -/
def FaultCode.code : FaultCode → BitVec 8
  | .illegalOpcode     => 0x01
  | .reservedNonzero   => 0x02
  | .badContext        => 0x03
  | .lifecycle         => 0x04
  | .badProbability    => 0x05
  | .badSymbolRange    => 0x06
  | .badRegion         => 0x07
  | .badCapacity       => 0x08
  | .outputOverrun     => 0x09
  | .queueFull         => 0x0A
  | .badRegister       => 0x0B
  | .carryUnderflow    => 0x0C
  | .ansStateInvariant => 0x0D
  | .truncatedCommand  => 0x0E

/-- The block is halted exactly when `FAULT_CODE != 0` (spec R34). -/
def State.halted (s : State) : Bool := s.faultCode != 0

/-- The value REG_READ gives for a lifecycle register (spec R24). -/
def Lifecycle.toWord : Lifecycle → Word
  | .uninit => 0
  | .active => 1
  | .final  => 2

/-- `raise Fault(code)` unless the condition holds (spec R12). -/
def require (p : Prop) [Decidable p] (code : FaultCode) : Except Abort Unit :=
  if p then .ok () else .error (.raise code)

/-- The engine a command needs must be ACTIVE (spec R200 LIFECYCLE, R232). -/
def requireActive (lc : Lifecycle) : Except Abort Unit := require (lc = .active) .lifecycle

end Sys2Proof.Machine
end

