-- ==== Sys2Proof/Machine/Memory.lean ====
section
/-! DEFINITION. Sparse stores by rising key, and the shared memory over them (spec R50, R52, R56). -/

namespace Sys2Proof.Machine

/-! ### Sparse stores: lists of key and value, keys strictly rising -/

/-- What the store lists at key `a`. -/
def lookupAt {β : Type} : List (Nat × β) → Nat → Option β
  | [], _ => none
  | (k, v) :: rest, a => if k = a then some v else lookupAt rest a

/-- List `v` at key `a`, in place of what was listed there. -/
def insertAt {β : Type} (a : Nat) (v : β) : List (Nat × β) → List (Nat × β)
  | [] => [(a, v)]
  | (k, w) :: rest =>
    if a < k then (a, v) :: (k, w) :: rest
    else if k = a then (a, v) :: rest
    else (k, w) :: insertAt a v rest

/-- List nothing at key `a`. -/
def eraseAt {β : Type} (a : Nat) : List (Nat × β) → List (Nat × β)
  | [] => []
  | (k, w) :: rest => if k = a then eraseAt a rest else (k, w) :: eraseAt a rest

/-- The keys rise strictly: no key twice, and one list per store. -/
abbrev keysRise {β : Type} (m : List (Nat × β)) : Prop := (m.map Prod.fst).Pairwise (· < ·)

/-! ### The shared memory -/

/-- What an address that is not listed reads as. The spec leaves the power-up contents unspecified (spec R50; U14:
any value). DESIGN CHOICE (assumption 2): 0, the premise of the spec's vectors. -/
def Memory.unlistedByte : Byte := 0

/-- The byte at address `a`. -/
def Memory.read (m : Memory) (a : Nat) : Byte := (lookupAt m a).getD Memory.unlistedByte

/-- Store the byte `v` at address `a`, keeping the canonical form. -/
def Memory.write (m : Memory) (a : Nat) (v : Byte) : Memory :=
  if v = Memory.unlistedByte then eraseAt a m else insertAt a v m

/-- The canonical form: addresses strictly rising, and no entry equal to what an unlisted address reads as. -/
abbrev Memory.wf (m : Memory) : Prop := keysRise m ∧ ∀ c ∈ m, c.2 ≠ Memory.unlistedByte

/-- Number of bytes of the shared memory: `2^ADDR_W` (spec R50). -/
def memSize (cfg : Config) : Nat := 2 ^ cfg.addrW

/-- `MemRead(a, 1)` (spec R12). An address at or past `2^ADDR_W` does not exist (spec R50). -/
def memRead (cfg : Config) (m : Memory) (a : Nat) : Except Abort Byte :=
  if a < memSize cfg then .ok (m.read a) else .error (.stop .addressOutsideMemory)

/-- `MemWrite(a, 1, v)` (spec R12). -/
def memWrite (cfg : Config) (m : Memory) (a : Nat) (v : Byte) : Except Abort Memory :=
  if a < memSize cfg then .ok (m.write a v) else .error (.stop .addressOutsideMemory)

end Sys2Proof.Machine
end

