-- ==== Sys2Proof/Machine/Operands.lean ====
section
/-! DEFINITION. The operand forms of the commands and their checks (spec R72, R73, R79), the records of the symbol
queue (spec R160) and the register numbers (spec R35). -/

namespace Sys2Proof.Machine

/-! ### Operand checks -/

/-- The bit operand `A[0]` (spec R73). -/
def bitOperand (a : BitVec 8) : Bool := a.getLsbD 0

/-- A command with `CTX >= N_CTX` raises BAD_CONTEXT (spec R72). -/
def checkContext (cfg : Config) (c : BitVec 4) : Except Abort Unit := require (c.toNat < cfg.nCtx) .badContext

/-- A probability operand 0 raises BAD_PROBABILITY (spec R73). -/
def checkProbability (p : BitVec 8) : Except Abort Unit := require (p ≠ 0) .badProbability

/-- `cum + prob > 256` raises BAD_SYMBOL_RANGE (spec R79, R144, R163). -/
def checkSymbolRange (cum prob : BitVec 8) : Except Abort Unit :=
  require (cum.toNat + prob.toNat ≤ probScale) .badSymbolRange

/-- The region `[base, base + len)` lies in the memory; the sum is computed without wrap-around (spec R51). -/
abbrev regionFits (cfg : Config) (base len : Word) : Prop :=
  base.toNat < memSize cfg ∧ base.toNat + len.toNat ≤ memSize cfg

/-- The region check of an init command (spec R51). -/
def checkRegion (cfg : Config) (base len : Word) : Except Abort Unit := require (regionFits cfg base len) .badRegion

/-- `CAPACITY > SQ_MAX` raises BAD_CAPACITY (spec R161). -/
def checkCapacity (cfg : Config) (capacity : Word) : Except Abort Unit :=
  require (capacity.toNat ≤ cfg.sqMax) .badCapacity

/-! ### Records of the symbol queue (spec R30, R160) -/

/-- The record held in 17 bits: `tag` bit 16, `vs` bits 15:8, `prob` bits 7:0. -/
def SqRecord.ofBits (b : BitVec 17) : SqRecord where
  tag  := if b.getLsbD 16 then .rans else .uabs
  vs   := b.extractLsb' 8 8
  prob := b.extractLsb' 0 8

/-- The 17 bits of a record. -/
def SqRecord.toBits (r : SqRecord) : BitVec 17 :=
  (match r.tag with
    | .uabs => 0#1
    | .rans => 1#1) ++ r.vs ++ r.prob

/-- The record `{tag = 0, vs = bit, prob = p}` that SQ_UABS appends (spec R162). -/
def uabsRecord (bit : Bool) (p : BitVec 8) : SqRecord := ⟨.uabs, (BitVec.ofBool bit).setWidth 8, p⟩

/-- The record `{tag = 1, vs = cum, prob = prob}` that SQ_RANS appends (spec R163). -/
def ransRecord (cum prob : BitVec 8) : SqRecord := ⟨.rans, cum, prob⟩

/-- A record is valid (spec R160, column "validity when appended"). -/
def SqRecord.valid (r : SqRecord) : Bool :=
  match r.tag with
  | .uabs => decide (r.vs.toNat ≤ 1) && r.prob != 0
  | .rans => r.prob != 0 && decide (r.vs.toNat + r.prob.toNat ≤ probScale)

/-- Record `i` of the store of context `c`: what was last written there, or what the store held at power-up
(spec R30; assumption 4). -/
def readRecord (c : BitVec 4) (recs : RecordStore) (i : Nat) : SqRecord :=
  (lookupAt recs i).getD (SqRecord.ofBits (Config.unwrittenRecord c.toNat i))

/-! ### Register numbers (spec R35) -/

/-- The registers REG_READ can name. -/
inductive Reg where
  | beLc | beLow | beRange | beCount | bePos | beBase | beCap
  | bdLc | bdValue | bdRange | bdBitpos | bdBase | bdSize
  | ansLc | ansX | ansOff | ansBase | ansCap
  | sqLc | sqLen | sqCap
  | faultCode | faultCmd | cfgNctx | cfgSqmax | cfgFlags
  deriving DecidableEq, Repr

/-- The register a number names; `none` for an unassigned number (spec R35). -/
def regOf (n : BitVec 8) : Option Reg :=
  match n.toNat with
  | 0x00 => some .beLc
  | 0x01 => some .beLow
  | 0x02 => some .beRange
  | 0x03 => some .beCount
  | 0x04 => some .bePos
  | 0x05 => some .beBase
  | 0x06 => some .beCap
  | 0x10 => some .bdLc
  | 0x11 => some .bdValue
  | 0x12 => some .bdRange
  | 0x13 => some .bdBitpos
  | 0x14 => some .bdBase
  | 0x15 => some .bdSize
  | 0x20 => some .ansLc
  | 0x21 => some .ansX
  | 0x22 => some .ansOff
  | 0x23 => some .ansBase
  | 0x24 => some .ansCap
  | 0x30 => some .sqLc
  | 0x31 => some .sqLen
  | 0x32 => some .sqCap
  | 0xF0 => some .faultCode
  | 0xF1 => some .faultCmd
  | 0xF2 => some .cfgNctx
  | 0xF3 => some .cfgSqmax
  | 0xF4 => some .cfgFlags
  | _    => none

/-- `RegValue(c, n)` (spec R35, R180): zero-extended, but for `BE.count`, which is sign-extended, and `BD.bitpos`,
which is truncated. `k` is the context named; a global register reads the same in every context. -/
def regValue (s : State) (k : Context) : Reg → Word
  | .beLc      => k.be.lc.toWord
  | .beLow     => k.be.low
  | .beRange   => k.be.range.setWidth 32
  | .beCount   => k.be.count.signExtend 32
  | .bePos     => k.be.pos
  | .beBase    => k.be.base
  | .beCap     => k.be.cap
  | .bdLc      => k.bd.lc.toWord
  | .bdValue   => k.bd.value.setWidth 32
  | .bdRange   => k.bd.range.setWidth 32
  | .bdBitpos  => BitVec.ofNat 32 k.bd.bitpos
  | .bdBase    => k.bd.base
  | .bdSize    => k.bd.size
  | .ansLc     => k.ans.lc.toWord
  | .ansX      => k.ans.x
  | .ansOff    => k.ans.off
  | .ansBase   => k.ans.base
  | .ansCap    => k.ans.cap
  | .sqLc      => k.sq.lc.toWord
  | .sqLen     => k.sq.len
  | .sqCap     => k.sq.cap
  | .faultCode => s.faultCode.setWidth 32
  | .faultCmd  => s.faultCmd
  | .cfgNctx   => BitVec.ofNat 32 s.cfg.nCtx
  | .cfgSqmax  => BitVec.ofNat 32 s.cfg.sqMax
  | .cfgFlags  => if s.cfg.stopGuard then 1 else 0

end Sys2Proof.Machine
end

