-- ==== Sys2Proof/Machine/Ops.lean ====
section
/-! DEFINITION. The named operations over the state: reading and writing a context, the response, taking a fault,
refusing a command, and running a command on a working copy (spec R182, R183, R184, R203). -/

namespace Sys2Proof.Machine

/-! ### Registers -/

/-- The context a CTX field names (spec R72). -/
def State.ctx (s : State) (c : BitVec 4) : Context := s.ctxs[c.toNat]'(by omega)

/-- The state with the context that a CTX field names replaced. -/
def State.setCtx (s : State) (c : BitVec 4) (k : Context) : State :=
  { s with ctxs := s.ctxs.set c.toNat k (by omega) }

/-- The state with another memory. -/
def State.setMem (s : State) (m : Memory) : State := { s with mem := m }

/-- The state with the response of a command (spec R181). -/
def State.respond (s : State) (status : Status) (value : Word) : State :=
  { s with response := some ⟨status, value⟩ }

/-- The state with the two fault registers written (spec R202). -/
def State.setFault (s : State) (code : FaultCode) (w : Word) : State :=
  { s with faultCode := code.code, faultCmd := w }

/-! ### Faults (spec R203) and their only return, reset (spec R204, R230) -/

/-- Taking a fault, raised by the command whose first word is `w` (spec R203): the first fault since reset is
recorded, which halts the block (spec R34), and the response carries the code. Nothing else changes. -/
def takeFault (code : FaultCode) (w : Word) (s : State) : State :=
  (if s.halted then s else s.setFault code w).respond .faulted (code.code.setWidth 32)

/-- A command refused because the block is halted (spec R184): "It changes nothing and gets `{FAULTED, 0}`". -/
def refuseHalted (s : State) : State := s.respond .faulted 0

/-- A context after a reset of a running block: every register at its reset value, the record store kept
(spec R230). -/
def Context.afterReset (k : Context) : Context :=
  { Context.reset with sq := { SqRegs.reset with recs := k.sq.recs } }

/-- Reset, the only way out of the halted state (spec R204, R230): the registers of every context and the fault
registers take their reset values; `Mem`, the record stores and the parameters stay. No command has run since
(assumption 3). -/
def resetBlock (s : State) : State :=
  { s with ctxs := s.ctxs.map Context.afterReset, faultCode := 0, faultCmd := 0, response := none }

/-! ### Running a command (spec R182, R183) -/

/-- The end of a command: if its pseudocode finished, the working copy replaces the state and the response is
`{OK, result}`; if it raised a fault, the copy is dropped and the fault is taken (spec R182, R203). -/
def commit (w : Word) (c : BitVec 4) (s : State) : Except Abort Done → Host.Outcome State Fault Refusal
  | .ok d             => .next (((s.setCtx c d.ctx).setMem d.mem).respond .ok d.value)
  | .error (.raise f) => .next (takeFault f w s)
  | .error (.stop f)  => .fault f

/-- A command that runs whether or not the block is halted: the context check (spec R201 item 5), then its
pseudocode on a working copy of the context it names and of `Mem`. -/
def runAlways (i : Instr) (s : State) (body : Context → Memory → Except Abort Done) :
    Host.Outcome State Fault Refusal :=
  commit i.word i.ctx s do
    checkContext s.cfg i.ctx
    body (s.ctx i.ctx) s.mem

/-- A command that a halted block refuses (spec R184, R201 item 1). -/
def runCommand (i : Instr) (s : State) (body : Context → Memory → Except Abort Done) :
    Host.Outcome State Fault Refusal :=
  if s.halted then .next (refuseHalted s) else runAlways i s body

end Sys2Proof.Machine
end

