-- ==== Sys2Proof/Machine/BoolDecoder.lean ====
section
/-! DEFINITION. The bool decoder: BD_INIT, BD_READ (spec R120 to R124). -/

namespace Sys2Proof.Machine

/-- Byte `k` of the input region; past the region it is 0 and memory is not touched (spec R52, R120). -/
def streamByte (cfg : Config) (bd : BdRegs) (m : Memory) (k : Nat) : Except Abort Byte :=
  if k < bd.size.toNat then memRead cfg m (bd.base.toNat + k) else .ok 0

/-- `StreamBit(c, i)`: bit `7 - (i mod 8)` of byte `i div 8` (spec R53, R120). -/
def streamBit (cfg : Config) (bd : BdRegs) (m : Memory) (i : Nat) : Except Abort Bool := do
  let b ← streamByte cfg bd m (i / 8)
  .ok (b.getLsbD (7 - i % 8))

/-- The renormalization loop of `DecBit` (spec R121), which "runs norm(R) times": `n` times, the range and the value
shift left and the next stream bit comes in. -/
def decShift (cfg : Config) (m : Memory) : Nat → BdRegs → Except Abort BdRegs
  | 0, bd => .ok bd
  | n + 1, bd => do
    let b ← streamBit cfg bd m bd.bitpos
    decShift cfg m n { bd with
      range  := bd.range <<< 1
      value  := (bd.value <<< 1) ||| (BitVec.ofBool b).setWidth 8
      bitpos := bd.bitpos + 1 }

/-- The bit that `DecBit` returns: 1 if the value is at or above the split (spec R121). -/
def decBitOf (p : Nat) (bd : BdRegs) : Bool := decide (splitPoint bd.range.toNat p ≤ bd.value.toNat)

/-- The BD registers with the sub-interval of the decoded bit, before renormalization (spec R121). -/
def decNarrow (p : Nat) (bd : BdRegs) : BdRegs :=
  let split := splitPoint bd.range.toNat p
  if decBitOf p bd then
    { bd with range := BitVec.ofNat 8 (bd.range.toNat - split), value := BitVec.ofNat 8 (bd.value.toNat - split) }
  else { bd with range := BitVec.ofNat 8 split }

/-- `DecBit(c, p)` (spec R121): the bit, and the BD registers after it. -/
def decBit (cfg : Config) (p : Nat) (bd : BdRegs) (m : Memory) : Except Abort (Bool × BdRegs) := do
  let bd' ← decShift cfg m (normShift (decNarrow p bd).range.toNat) (decNarrow p bd)
  .ok (decBitOf p bd, bd')

/-- A one-bit result as a response value. -/
def bitWord (b : Bool) : Word := (BitVec.ofBool b).setWidth 32

/-- BD_INIT (spec R123): the result is the marker bit. -/
def execBdInit (ctx : BitVec 4) (base len : Word) (s : State) : Host.Outcome State Fault Refusal :=
  runCommand (.bdInit ctx base len) s fun k m => do
    checkRegion s.cfg base len
    let bound := { k.bd with base := base, size := len }
    let v ← streamByte s.cfg bound m 0
    let r ← decBit s.cfg fairProb
      { bound with range := BitVec.ofNat 8 bdInitialRange, value := v, bitpos := 8, lc := .active } m
    .ok ⟨{ k with bd := r.2 }, m, bitWord r.1⟩

/-- BD_READ (spec R124): the result is the decoded bit. -/
def execBdRead (ctx : BitVec 4) (p : BitVec 8) (s : State) : Host.Outcome State Fault Refusal :=
  runCommand (.bdRead ctx p) s fun k m => do
    requireActive k.bd.lc
    checkProbability p
    let r ← decBit s.cfg p.toNat k.bd m
    .ok ⟨{ k with bd := r.2 }, m, bitWord r.1⟩

end Sys2Proof.Machine
end

