-- ==== Sys2Proof/Machine/BoolEncoder.lean ====
section
/-! DEFINITION. The bool encoder: BE_START, BE_WRITE, BE_STOP (spec R100 to R106). -/

namespace Sys2Proof.Machine

/-- `Carry` (spec R104) over the `n` bytes emitted at `base`: the run of 0xFF bytes at their end becomes 0x00 and the
byte before the run grows by one; with no such byte, CARRY_UNDERFLOW. -/
def carry (cfg : Config) (base : Nat) : Nat → Memory → Except Abort Memory
  | 0, _ => .error (.raise .carryUnderflow)
  | x + 1, m => do
    let b ← memRead cfg m (base + x)
    if b = 0xFF then
      let m' ← memWrite cfg m (base + x) 0
      carry cfg base x m'
    else memWrite cfg m (base + x) (b + 1)

/-- The range before renormalization: the sub-interval of the bit (spec R103, lines 1 to 3). -/
def encRange (bit : Bool) (p : Nat) (be : BeRegs) : Nat :=
  if bit then be.range.toNat - splitPoint be.range.toNat p else splitPoint be.range.toNat p

/-- `lo`: the low end of the sub-interval of the bit (spec R103, lines 2 and 3). -/
def encLow (bit : Bool) (p : Nat) (be : BeRegs) : BitVec 32 :=
  if bit then be.low + BitVec.ofNat 32 (splitPoint be.range.toNat p) else be.low

/-- `shift`: the normalization shift of the step (spec R103, line 4). -/
def encShift (bit : Bool) (p : Nat) (be : BeRegs) : Nat := normShift (encRange bit p be)

/-- The carry of an emission (spec R103, line 10): `Carry(c)` if bit 31 of `lo << (offset - 1)` is set. -/
def carryIfPending (cfg : Config) (be : BeRegs) (lo : BitVec 32) (offset : Nat) (m : Memory) : Except Abort Memory :=
  if (lo <<< (offset - 1)).getLsbD 31 then carry cfg be.base.toNat be.pos.toNat m else .ok m

/-- An emission (spec R103, lines 9 to 11): the capacity check, the carry, then the byte at the output cursor. -/
def emitByte (cfg : Config) (be : BeRegs) (lo : BitVec 32) (offset : Nat) (m : Memory) : Except Abort Memory := do
  require (be.pos.toNat < be.cap.toNat) .outputOverrun
  let m' ← carryIfPending cfg be lo offset m
  memWrite cfg m' (be.base.toNat + be.pos.toNat) ((lo >>> (24 - offset)).setWidth 8)

/-- `EncBit(c, bit, p)` (spec R103) on the BE registers of the context and the memory. -/
def encBit (cfg : Config) (bit : Bool) (p : Nat) (be : BeRegs) (m : Memory) : Except Abort (BeRegs × Memory) :=
  let shift := encShift bit p be
  let lo := encLow bit p be
  let range := BitVec.ofNat 8 (encRange bit p be <<< shift)
  let cnt := be.count.toInt + shift
  if 0 ≤ cnt then do
    let offset := (shift - cnt).toNat
    let m' ← emitByte cfg be lo offset m
    .ok ({ be with
            low   := ((lo <<< offset) &&& 0xFFFFFF) <<< cnt.toNat
            range := range
            count := BitVec.ofInt 8 (cnt - 8)
            pos   := be.pos + 1 }, m')
  else .ok ({ be with low := lo <<< shift, range := range, count := BitVec.ofInt 8 cnt }, m)

/-- `n` times `EncBit(c, 0, 128)`: the padding of BE_STOP (spec R106). -/
def encPadding (cfg : Config) : Nat → BeRegs → Memory → Except Abort (BeRegs × Memory)
  | 0, be, m => .ok (be, m)
  | n + 1, be, m => do
    let r ← encBit cfg false fairProb be m
    encPadding cfg n r.1 r.2

/-- The guard byte (spec R106): with STOP_GUARD = 1, a final byte `110xxxxx` is followed by 0x00. -/
def guardByte (cfg : Config) (be : BeRegs) (m : Memory) : Except Abort (BeRegs × Memory) :=
  if cfg.stopGuard then do
    let b ← memRead cfg m (be.base.toNat + be.pos.toNat - 1)
    if b &&& 0xE0 = 0xC0 then
      require (be.pos.toNat < be.cap.toNat) .outputOverrun
      let m' ← memWrite cfg m (be.base.toNat + be.pos.toNat) 0
      .ok ({ be with pos := be.pos + 1 }, m')
    else .ok (be, m)
  else .ok (be, m)

/-- The BE registers BE_START sets before it encodes the marker (spec R102). -/
def beFresh (lc : Lifecycle) (base len : Word) : BeRegs where
  lc    := lc
  low   := 0
  range := BitVec.ofNat 8 beInitialRange
  count := BitVec.ofInt 8 beInitialCount
  pos   := 0
  base  := base
  cap   := len

/-- BE_START (spec R102). -/
def execBeStart (ctx : BitVec 4) (base len : Word) (s : State) : Host.Outcome State Fault Refusal :=
  runCommand (.beStart ctx base len) s fun k m => do
    checkRegion s.cfg base len
    let r ← encBit s.cfg false fairProb (beFresh k.be.lc base len) m
    .ok ⟨{ k with be := { r.1 with lc := .active } }, r.2, 0⟩

/-- BE_WRITE (spec R105). -/
def execBeWrite (ctx : BitVec 4) (a p : BitVec 8) (s : State) : Host.Outcome State Fault Refusal :=
  runCommand (.beWrite ctx a p) s fun k m => do
    requireActive k.be.lc
    checkProbability p
    let r ← encBit s.cfg (bitOperand a) p.toNat k.be m
    .ok ⟨{ k with be := r.1 }, r.2, 0⟩

/-- BE_STOP (spec R106). -/
def execBeStop (ctx : BitVec 4) (s : State) : Host.Outcome State Fault Refusal :=
  runCommand (.beStop ctx) s fun k m => do
    requireActive k.be.lc
    let r ← encPadding s.cfg beStopPadding k.be m
    let g ← guardByte s.cfg r.1 r.2
    .ok ⟨{ k with be := { g.1 with lc := .final } }, g.2, g.1.pos⟩

end Sys2Proof.Machine
end

