-- ==== Sys2Proof/Machine/Control.lean ====
section
/-! DEFINITION. REG_READ (spec R180), the one command that a halted block executes (spec R184). -/

namespace Sys2Proof.Machine

/-- REG_READ (spec R180): the register's value; it writes no register and no memory. -/
def execRegRead (ctx : BitVec 4) (reg : BitVec 8) (s : State) : Host.Outcome State Fault Refusal :=
  runAlways (.regRead ctx reg) s fun k m =>
    match regOf reg with
    | some r => .ok ⟨k, m, regValue s k r⟩
    | none   => .error (.raise .badRegister)

end Sys2Proof.Machine
end

