-- ==== Sys2Proof/Machine/Ans.lean ====
section
/-! DEFINITION. The ANS state machine: ANS_INIT, ANS_UABS, ANS_RANS, ANS_END (spec R140 to R145). -/

namespace Sys2Proof.Machine

/-- `AnsPut(c, v)` (spec R141): one byte at the output cursor, or OUTPUT_OVERRUN. -/
def ansPut (cfg : Config) (v : Byte) (ans : AnsRegs) (m : Memory) : Except Abort (AnsRegs × Memory) := do
  require (ans.off.toNat < ans.cap.toNat) .outputOverrun
  let m' ← memWrite cfg m (ans.base.toNat + ans.off.toNat) v
  .ok ({ ans with off := ans.off + 1 }, m')

/-- The loop of `AnsRenorm(c, ls)` (spec R141) with room for `n` more bytes: the byte after those raises
OUTPUT_OVERRUN. -/
def ansRenormLoop (cfg : Config) (ls : Nat) : Nat → AnsRegs → Memory → Except Abort (AnsRegs × Memory)
  | 0, ans, m => if ansL * ls ≤ ans.x.toNat then .error (.raise .outputOverrun) else .ok (ans, m)
  | n + 1, ans, m =>
    if ansL * ls ≤ ans.x.toNat then do
      let r ← ansPut cfg (BitVec.ofNat 8 (ans.x.toNat % ansIO)) ans m
      ansRenormLoop cfg ls n { r.1 with x := BitVec.ofNat 32 (ans.x.toNat / ansIO) } r.2
    else .ok (ans, m)

/-- `AnsRenorm(c, ls)` (spec R141): each pass puts a byte, so the region's free space bounds the passes. -/
def ansRenorm (cfg : Config) (ls : Nat) (ans : AnsRegs) (m : Memory) : Except Abort (AnsRegs × Memory) :=
  ansRenormLoop cfg ls (ans.cap.toNat - ans.off.toNat) ans m

/-- The sub-interval of the bit in uABS: `p = 256 - p0` for the bit 1, `p0` otherwise (spec R143). -/
def uabsLs (bit p0 : Nat) : Nat := if bit = 1 then probScale - p0 else p0

/-- The new ANS state of uABS from the renormalized state `x` (spec R143). -/
def uabsNext (bit p0 x : Nat) : Nat :=
  let p := probScale - p0
  if bit = 0 then (x * probScale) / p0 else ((x + 1) * probScale + p - 1) / p - 1

/-- `UabsStep(c, bit, p0)` (spec R143). -/
def uabsStep (cfg : Config) (bit p0 : Nat) (ans : AnsRegs) (m : Memory) : Except Abort (AnsRegs × Memory) := do
  let r ← ansRenorm cfg (uabsLs bit p0) ans m
  .ok ({ r.1 with x := BitVec.ofNat 32 (uabsNext bit p0 r.1.x.toNat) }, r.2)

/-- The new ANS state of rANS from the renormalized state `x` (spec R144). -/
def ransNext (cum prob x : Nat) : Nat := (x / prob) * probScale + x % prob + cum

/-- `RansStep(c, cum, prob)` (spec R144). -/
def ransStep (cfg : Config) (cum prob : Nat) (ans : AnsRegs) (m : Memory) : Except Abort (AnsRegs × Memory) := do
  let r ← ansRenorm cfg prob ans m
  .ok ({ r.1 with x := BitVec.ofNat 32 (ransNext cum prob r.1.x.toNat) }, r.2)

/-- The bytes of the final state `x = ANS_L + st`, lowest address first (spec R54, R145): 1, 2 or 3 bytes,
little-endian, with the number of bytes in the top two bits of the last. -/
def ansEndBytes (st : Nat) : List Byte :=
  if st < 2 ^ 6 then [BitVec.ofNat 8 st]
  else if st < 2 ^ 14 then
    let v := 0x4000 + st
    [BitVec.ofNat 8 v, BitVec.ofNat 8 (v >>> 8)]
  else
    let v := 0x800000 + st
    [BitVec.ofNat 8 v, BitVec.ofNat 8 (v >>> 8), BitVec.ofNat 8 (v >>> 16)]

/-- `AnsPut` for each byte of a list in turn. -/
def ansPutAll (cfg : Config) : List Byte → AnsRegs → Memory → Except Abort (AnsRegs × Memory)
  | [], ans, m => .ok (ans, m)
  | v :: vs, ans, m => do
    let r ← ansPut cfg v ans m
    ansPutAll cfg vs r.1 r.2

/-- The ANS state interval [1024, 262144) (spec R9, R140). -/
abbrev ansInRange (x : Nat) : Prop := ansL ≤ x ∧ x < ansL * ansIO

/-- ANS_INIT (spec R142). -/
def execAnsInit (ctx : BitVec 4) (base len : Word) (s : State) : Host.Outcome State Fault Refusal :=
  runCommand (.ansInit ctx base len) s fun k m => do
    checkRegion s.cfg base len
    .ok ⟨{ k with ans := ⟨.active, BitVec.ofNat 32 ansL, 0, base, len⟩ }, m, 0⟩

/-- ANS_UABS (spec R143). -/
def execAnsUabs (ctx : BitVec 4) (a p0 : BitVec 8) (s : State) : Host.Outcome State Fault Refusal :=
  runCommand (.ansUabs ctx a p0) s fun k m => do
    requireActive k.ans.lc
    checkProbability p0
    let r ← uabsStep s.cfg (bitOperand a).toNat p0.toNat k.ans m
    .ok ⟨{ k with ans := r.1 }, r.2, 0⟩

/-- ANS_RANS (spec R144). -/
def execAnsRans (ctx : BitVec 4) (cum prob : BitVec 8) (s : State) : Host.Outcome State Fault Refusal :=
  runCommand (.ansRans ctx cum prob) s fun k m => do
    requireActive k.ans.lc
    checkProbability prob
    checkSymbolRange cum prob
    let r ← ransStep s.cfg cum.toNat prob.toNat k.ans m
    .ok ⟨{ k with ans := r.1 }, r.2, 0⟩

/-- ANS_END (spec R145): the result is the byte count of the unit. -/
def execAnsEnd (ctx : BitVec 4) (s : State) : Host.Outcome State Fault Refusal :=
  runCommand (.ansEnd ctx) s fun k m => do
    requireActive k.ans.lc
    require (ansInRange k.ans.x.toNat) .ansStateInvariant
    let r ← ansPutAll s.cfg (ansEndBytes (k.ans.x.toNat - ansL)) k.ans m
    .ok ⟨{ k with ans := { r.1 with lc := .final } }, r.2, r.1.off⟩

end Sys2Proof.Machine
end

