-- ==== Sys2Proof/Machine/SymbolQueue.lean ====
section
/-! DEFINITION. The symbol queue: SQ_INIT, SQ_UABS, SQ_RANS, SQ_FLUSH (spec R160 to R164). -/

namespace Sys2Proof.Machine

/-- Append a record (spec R162, R163): QUEUE_FULL if the queue already holds `SQ.cap` records. -/
def sqAppend (r : SqRecord) (sq : SqRegs) : Except Abort SqRegs := do
  require (sq.len.toNat < sq.cap.toNat) .queueFull
  .ok { sq with recs := insertAt sq.len.toNat r sq.recs, len := sq.len + 1 }

/-- The ANS step of a record: its tag says which (spec R160, R164). -/
def recordStep (cfg : Config) (r : SqRecord) (ans : AnsRegs) (m : Memory) : Except Abort (AnsRegs × Memory) :=
  match r.tag with
  | .rans => ransStep cfg r.vs.toNat r.prob.toNat ans m
  | .uabs => uabsStep cfg r.vs.toNat r.prob.toNat ans m

/-- The loop of SQ_FLUSH over records `n - 1` down to 0 of the queue of context `c` (spec R164). -/
def flushFrom (cfg : Config) (c : BitVec 4) (recs : RecordStore) :
    Nat → AnsRegs → Memory → Except Abort (AnsRegs × Memory)
  | 0, ans, m => .ok (ans, m)
  | i + 1, ans, m => do
    let r ← recordStep cfg (readRecord c recs i) ans m
    flushFrom cfg c recs i r.1 r.2

/-- SQ_INIT (spec R161). The record store is not cleared. -/
def execSqInit (ctx : BitVec 4) (capacity : Word) (s : State) : Host.Outcome State Fault Refusal :=
  runCommand (.sqInit ctx capacity) s fun k m => do
    checkCapacity s.cfg capacity
    .ok ⟨{ k with sq := { k.sq with cap := capacity, len := 0, lc := .active } }, m, 0⟩

/-- SQ_UABS (spec R162). -/
def execSqUabs (ctx : BitVec 4) (a p : BitVec 8) (s : State) : Host.Outcome State Fault Refusal :=
  runCommand (.sqUabs ctx a p) s fun k m => do
    requireActive k.sq.lc
    checkProbability p
    let sq ← sqAppend (uabsRecord (bitOperand a) p) k.sq
    .ok ⟨{ k with sq := sq }, m, 0⟩

/-- SQ_RANS (spec R163). -/
def execSqRans (ctx : BitVec 4) (cum prob : BitVec 8) (s : State) : Host.Outcome State Fault Refusal :=
  runCommand (.sqRans ctx cum prob) s fun k m => do
    requireActive k.sq.lc
    checkProbability prob
    checkSymbolRange cum prob
    let sq ← sqAppend (ransRecord cum prob) k.sq
    .ok ⟨{ k with sq := sq }, m, 0⟩

/-- SQ_FLUSH (spec R164): the result is the number of records flushed; the queue keeps its records. -/
def execSqFlush (ctx : BitVec 4) (s : State) : Host.Outcome State Fault Refusal :=
  runCommand (.sqFlush ctx) s fun k m => do
    requireActive k.sq.lc
    requireActive k.ans.lc
    let r ← flushFrom s.cfg ctx k.sq.recs k.sq.len.toNat k.ans m
    .ok ⟨{ k with ans := r.1, sq := { k.sq with lc := .final } }, r.2, k.sq.len⟩

end Sys2Proof.Machine
end

