-- ==== Sys2Proof/Machine/Dispatch.lean ====
section
/-! DEFINITION. The meaning of each command: one arm per row of the opcode table (spec R76). -/

namespace Sys2Proof.Machine

def exec (i : Instr) (s : State) : Host.Outcome State Fault Refusal :=
  match i with
  -- bool encoder
  | .beStart ctx base len => Sys2Proof.Machine.execBeStart ctx base len s
  | .beWrite ctx a p => Sys2Proof.Machine.execBeWrite ctx a p s
  | .beStop ctx => Sys2Proof.Machine.execBeStop ctx s
  -- bool decoder
  | .bdInit ctx base len => Sys2Proof.Machine.execBdInit ctx base len s
  | .bdRead ctx p => Sys2Proof.Machine.execBdRead ctx p s
  -- ANS state machine
  | .ansInit ctx base len => Sys2Proof.Machine.execAnsInit ctx base len s
  | .ansUabs ctx a p0 => Sys2Proof.Machine.execAnsUabs ctx a p0 s
  | .ansRans ctx cum prob => Sys2Proof.Machine.execAnsRans ctx cum prob s
  | .ansEnd ctx => Sys2Proof.Machine.execAnsEnd ctx s
  -- symbol queue
  | .sqInit ctx capacity => Sys2Proof.Machine.execSqInit ctx capacity s
  | .sqUabs ctx a p => Sys2Proof.Machine.execSqUabs ctx a p s
  | .sqRans ctx cum prob => Sys2Proof.Machine.execSqRans ctx cum prob s
  | .sqFlush ctx => Sys2Proof.Machine.execSqFlush ctx s
  -- control
  | .regRead ctx reg => Sys2Proof.Machine.execRegRead ctx reg s

end Sys2Proof.Machine
end

