-- ==== Sys2Proof/Machine/Port.lean ====
section
/-! DEFINITION. The command port and the host's turns: consuming a command's words, answering words that are no
command (spec R70, R75, R183), and what the host does between commands (spec R50, R62, R230). -/

namespace Sys2Proof.Machine

/-- The stream after the command whose first word is `w` and whose stream continues with `ext`: its words are
"consumed in every case" (spec R183); a truncated command consumes all that is left. -/
def streamAfter (w : Word) (ext : List Word) : List Word := ext.drop (commandLength w - 1)

/-- The state with the command's words consumed. -/
def State.consume (s : State) (w : Word) (ext : List Word) : State := { s with stream := streamAfter w ext }

/-- The fault a word that is no command raises (spec R201 items 2 to 4). -/
def rejectCode : Reject → FaultCode
  | .illegalOpcode    => .illegalOpcode
  | .truncatedCommand => .truncatedCommand
  | .reservedNonzero  => .reservedNonzero

/-- The answer to a word that is no command: refused if the block is halted and `OP != 0xE`, else the fault is taken
(spec R183, R201). -/
def rejectWord (r : Reject) (w : Word) (s : State) : State :=
  if s.halted && opField w != 0xE#4 then refuseHalted s else takeFault (rejectCode r) w s

/-- A host turn when no word is waiting. With nothing to do the block waits for the first command word (spec R230).
A write at an address that does not exist (spec R50) stops the model. -/
def hostTurn (s : State) : Host.Outcome State Fault Refusal :=
  match s.inbox with
  | []                => .next s
  | .send ws :: rest  => .next { s with stream := ws, inbox := rest }
  | .write a v :: rest =>
    match memWrite s.cfg s.mem a v with
    | .ok m    => .next { s with mem := m, inbox := rest }
    | .error _ => .fault .addressOutsideMemory
  | .reset :: rest    => .next (resetBlock { s with inbox := rest })

/-- The words of the instruction numbered as spec/opcode_table.json numbers it put on an empty command port: the host
has sent exactly that command. -/
def State.sendTableWord (s : State) (nbits w : Nat) : State := { s with stream := tableWords nbits w }

end Sys2Proof.Machine
end

