-- ==== Sys2Proof/Machine/Step.lean ====
section
/-! DEFINITION. One step of the machine (spec R183): one command if a word is waiting, else one host turn. -/

namespace Sys2Proof.Machine

/-- One step: the procedure `Step` of spec R183 when the stream is not empty, else a host turn (spec R62). -/
def step (s : State) : Host.Outcome State Fault Refusal :=
  match s.stream with
  | []       => hostTurn s
  | w :: ext =>
    match decode w ext with
    | .ok i    => exec i (s.consume w ext)
    | .error r => .next (rejectWord r w (s.consume w ext))

/-- `s` with the instruction whose bits are `w` (numbered from bit 0 of its first word, bits from `nbits` on 0) as the
command the host sends next, so that the next step runs it. -/
def State.withFetchWord (s : State) (nbits w : Nat) : State := s.sendTableWord nbits w

end Sys2Proof.Machine
end

