-- ==== Sys2Proof/Machine/Assembler.lean ====
section
/-! DEFINITION. The assembler's text form (spec R80) and pseudo-instructions (spec R81). The assembler expands them on
the host; "the block never sees them". -/

namespace Sys2Proof.Machine

/-- The assembler's mnemonic of a command (spec R80). -/
def asmMnemonic : Instr → String
  | .beStart _ _ _ => "be.start"
  | .beWrite _ _ _ => "be.write"
  | .beStop _      => "be.stop"
  | .bdInit _ _ _  => "bd.init"
  | .bdRead _ _    => "bd.read"
  | .ansInit _ _ _ => "ans.init"
  | .ansUabs _ _ _ => "ans.uabs"
  | .ansRans _ _ _ => "ans.rans"
  | .ansEnd _      => "ans.end"
  | .sqInit _ _    => "sq.init"
  | .sqUabs _ _ _  => "sq.uabs"
  | .sqRans _ _ _  => "sq.rans"
  | .sqFlush _     => "sq.flush"
  | .regRead _ _   => "reg.read"

/-- The operands after the context: the A operand, the B operand and the extension words, each only if the command
uses it (spec R80). -/
def asmOperands : Instr → List Nat
  | .beStart _ base len   => [base.toNat, len.toNat]
  | .beWrite _ a p        => [a.toNat, p.toNat]
  | .beStop _             => []
  | .bdInit _ base len    => [base.toNat, len.toNat]
  | .bdRead _ p           => [p.toNat]
  | .ansInit _ base len   => [base.toNat, len.toNat]
  | .ansUabs _ a p0       => [a.toNat, p0.toNat]
  | .ansRans _ cum prob   => [cum.toNat, prob.toNat]
  | .ansEnd _             => []
  | .sqInit _ capacity    => [capacity.toNat]
  | .sqUabs _ a p         => [a.toNat, p.toNat]
  | .sqRans _ cum prob    => [cum.toNat, prob.toNat]
  | .sqFlush _            => []
  | .regRead _ reg        => [reg.toNat]

/-- The line of a command, numbers in decimal (spec R80). -/
def asmLine (i : Instr) : String :=
  (asmOperands i).foldl (fun line n => line ++ ", " ++ toString n)
    (asmMnemonic i ++ " c" ++ toString i.ctx.toNat)

/-- Bit `i` of `v` as the A field of a bit operand. -/
def bitField (v : Word) (i : Nat) : BitVec 8 := (BitVec.ofBool (v.getLsbD i)).setWidth 8

/-- `be.writebit cN, b` (spec R81). -/
def beWriteBit (c : BitVec 4) (b : Bool) : List Instr := [.beWrite c ((BitVec.ofBool b).setWidth 8) 128]

/-- `be.literal cN, v, n` (spec R81): bits `n - 1` down to 0 of `v`, most significant first, at probability 128. -/
def beLiteral (c : BitVec 4) (v : Word) : Nat → List Instr
  | 0     => []
  | n + 1 => .beWrite c (bitField v n) 128 :: beLiteral c v n

/-- `bd.readbit cN` (spec R81). -/
def bdReadBit (c : BitVec 4) : List Instr := [.bdRead c 128]

/-- `bd.literal cN, n` (spec R81): `n` reads at probability 128. -/
def bdLiteral (c : BitVec 4) (n : Nat) : List Instr := List.replicate n (.bdRead c 128)

/-- The value the host forms from the results of `bd.literal`, first result most significant (spec R81). -/
def literalValue (results : List Word) : Nat := results.foldl (fun v w => 2 * v + w.toNat) 0

end Sys2Proof.Machine
end

