-- ==== Sys2Proof/Safety.lean ====
section
/-! DEFINITION. The terms claims use: the invariant of the machine (spec R31, R32 and the legal values of R25 to R33),
the code value of a bool-encoder unit, the input bits of a decoder, and running several commands. -/

namespace Sys2Proof.Machine

/-! ### When a command reaches its own checks -/

/-- A command for context `c` is neither refused (spec R184) nor out of range (spec R72). -/
abbrev State.ready (s : State) (c : BitVec 4) : Prop := s.halted = false ∧ c.toNat < s.cfg.nCtx

/-! ### Invariants of the engines -/

/-- What holds of the BE registers of an ACTIVE unit (spec R25, R31). The bound on `low + range` is the form of
"`low < 2^(count + 33)`" that one step keeps by itself. -/
structure BeOk (be : BeRegs) : Prop where
  rangeLow  : 128 ≤ be.range.toNat
  rangeHigh : be.range.toNat ≤ 254
  countLow  : -24 ≤ be.count.toInt
  countHigh : be.count.toInt ≤ -1
  window    : be.low.toNat + be.range.toNat ≤ 2 ^ (be.count.toInt + 33).toNat
  cursor    : be.pos.toNat ≤ be.cap.toNat

/-- What holds of the BD registers of an ACTIVE unit (spec R27, R31). -/
structure BdOk (bd : BdRegs) : Prop where
  rangeLow : 128 ≤ bd.range.toNat
  bitpos   : 8 ≤ bd.bitpos

/-- What holds of the ANS registers of an ACTIVE unit (spec R29, R31). -/
structure AnsOk (ans : AnsRegs) : Prop where
  state  : ansInRange ans.x.toNat
  cursor : ans.off.toNat ≤ ans.cap.toNat

/-- What holds of the symbol queue in every lifecycle state (spec R30, R32, R160): every record that SQ_FLUSH could
read was written, every written record is valid and inside the store. -/
structure SqOk (cfg : Config) (sq : SqRegs) : Prop where
  capacity : sq.cap.toNat ≤ cfg.sqMax
  length   : sq.len.toNat ≤ sq.cap.toNat
  rising   : keysRise sq.recs
  inside   : ∀ e ∈ sq.recs, e.1 < cfg.sqMax
  valid    : ∀ e ∈ sq.recs, e.2.valid = true
  written  : ∀ i, i < sq.len.toNat → (lookupAt sq.recs i).isSome = true

/-- What holds of every context: its regions lie in the memory (spec R51), and each ACTIVE engine is in its legal
values. BD is never FINAL (spec R24). -/
structure ContextOk (cfg : Config) (k : Context) : Prop where
  beRegion   : regionFits cfg k.be.base k.be.cap
  beActive   : k.be.lc = .active → BeOk k.be
  bdRegion   : regionFits cfg k.bd.base k.bd.size
  bdActive   : k.bd.lc = .active → BdOk k.bd
  bdNotFinal : k.bd.lc ≠ .final
  ansRegion  : regionFits cfg k.ans.base k.ans.cap
  ansActive  : k.ans.lc = .active → AnsOk k.ans
  queue      : SqOk cfg k.sq

/-- The invariant of the machine: what holds in every state between steps. -/
structure State.Inv (s : State) : Prop where
  /-- The parameters are legal (spec R8). -/
  legal     : s.cfg.Legal
  /-- The memory is in its canonical form. -/
  memForm   : Memory.wf s.mem
  /-- No byte is listed outside the memory (spec R50). -/
  memInside : ∀ e ∈ s.mem, e.1 < memSize s.cfg
  /-- "0x0F..0xFF reserved: never recorded" (spec R200). -/
  codeKnown : s.faultCode.toNat ≤ 0x0E
  /-- FAULT_CMD is "set only by a fault" (spec R33). -/
  cmdClear  : s.halted = false → s.faultCmd = 0
  /-- A FAULTED response leaves a halted block (spec R203). -/
  haltedBy  : ∀ v, s.response = some ⟨.faulted, v⟩ → s.halted = true
  /-- Every context is in its legal values. -/
  contexts  : ∀ c : BitVec 4, ContextOk s.cfg (s.ctx c)
  /-- A slot at or past `N_CTX` stands for no context and stays as it was at power-up (spec R23). -/
  absent    : ∀ c : BitVec 4, s.cfg.nCtx ≤ c.toNat → s.ctx c = Context.reset
  /-- The host names only addresses that exist (spec R50). -/
  hostInside : ∀ a v, HostAction.write a v ∈ s.inbox → a < memSize s.cfg

/-! ### The bytes of a region as a number -/

/-- The `n` bytes from `base` on as one number, first byte most significant (spec R53). -/
def regionValue (m : Memory) (base : Nat) : Nat → Nat
  | 0     => 0
  | n + 1 => regionValue m base n * 256 + (m.read (base + n)).toNat

/-- The code value of a bool-encoder unit: the emitted bytes with the bits not yet emitted (`low`) below them; the bit
of `low` at `count + 32` is the pending carry (spec R25). -/
def codeValue (be : BeRegs) (m : Memory) : Nat :=
  regionValue m be.base.toNat be.pos.toNat * 2 ^ (be.count.toInt + 32).toNat + be.low.toNat

/-- Number of bits of the code value. -/
def codeBits (be : BeRegs) : Nat := 8 * be.pos.toNat + (be.count.toInt + 32).toNat

/-- The unit's interval lies in the lower half of the initial one, which is what the marker bit brings about
(spec R107). -/
def BeSentinel (be : BeRegs) (m : Memory) : Prop := codeValue be m + be.range.toNat ≤ 2 ^ (codeBits be - 1)

/-- The bit `StreamBit(c, i)` of a decoder's input (spec R120), read through the memory's bytes. -/
def inputBit (bd : BdRegs) (m : Memory) (i : Nat) : Bool :=
  if i / 8 < bd.size.toNat then (m.read (bd.base.toNat + i / 8)).getLsbD (7 - i % 8) else false

/-- The `n` input bits from index `i` on as one number, first bit most significant. -/
def inputBits (bd : BdRegs) (m : Memory) (i : Nat) : Nat → Nat
  | 0     => 0
  | n + 1 => 2 * inputBits bd m i n + (inputBit bd m (i + n)).toNat

/-! ### Running several commands -/

/-- The results of a list of commands run one after another, each with an OK response, and the state after them;
`none` if one of them stops, faults or is refused. -/
def runAll : List Instr → State → Option (List Word × State)
  | [], s => some ([], s)
  | i :: is, s =>
    match exec i s with
    | .next t =>
      match t.response with
      | some ⟨.ok, v⟩ => (runAll is t).map fun r => (v :: r.1, r.2)
      | some ⟨.faulted, _⟩ => none
      | none => none
    | .fault _ => none
    | .refused _ => none

/-- The BE_WRITE commands that encode the bits `xs` with their probabilities in context `c`. -/
def writeCommands (c : BitVec 4) (xs : List (Bool × BitVec 8)) : List Instr :=
  xs.map fun x => .beWrite c ((BitVec.ofBool x.1).setWidth 8) x.2

/-- The BD_READ commands with the probabilities of `xs` in context `c`. -/
def readCommands (c : BitVec 4) (xs : List (Bool × BitVec 8)) : List Instr := xs.map fun x => .bdRead c x.2

/-- The ANS command with the operands of a record (spec R160, R165). -/
def recordCommand (c : BitVec 4) (r : SqRecord) : Instr :=
  match r.tag with
  | .uabs => .ansUabs c r.vs r.prob
  | .rans => .ansRans c r.vs r.prob

/-- The records of the queue in the order they were appended. -/
def queueRecords (c : BitVec 4) (sq : SqRegs) : List SqRecord :=
  (List.range sq.len.toNat).map (readRecord c sq.recs)

end Sys2Proof.Machine
end

