-- ==== Sys2Proof/Certificates/Slice0/Obligations.lean ====
section
/-! DEFINITION. The statements for the provers. Each is about the machine, over every state, every legal or illegal
parameter value unless a premise says otherwise, and cites the rule of the spec it formalises. -/

open Sys2Proof Sys2Proof.Machine

/-! ### Encoding -/

/-- Six of the words spec R80 writes out decode to the commands it names. -/
def Obligations.SpecExampleWordsDecode : Prop :=
  decode 0x10000000 [0x100, 0x10] = .ok (.beStart 0 0x100 16) ∧
  decode 0x20018000 [] = .ok (.beWrite 0 1 128) ∧
  decode 0x50008000 [] = .ok (.bdRead 0 128) ∧
  decode 0x8040C000 [] = .ok (.ansRans 0 64 192) ∧
  decode 0xA1000000 [4] = .ok (.sqInit 1 4) ∧
  decode 0xE0F00000 [] = .ok (.regRead 0 0xF0)

/-- Every well-formed command is decoded from its own words, and exactly those words are consumed (spec R70 to R77). -/
def Obligations.EncodeDecodeRoundTrip : Prop :=
  ∀ (i : Instr) (rest : List Word), i.wf = true →
    decode i.word (i.ext ++ rest) = .ok i ∧ streamAfter i.word (i.ext ++ rest) = rest

/-- A decoded command is well-formed and its encoding is the words it was read from: no two words are one command
(spec R71 to R77). -/
def Obligations.DecodedCommandReencodes : Prop :=
  ∀ (w : Word) (ext : List Word) (i : Instr), decode w ext = .ok i →
    i.wf = true ∧ i.word = w ∧ i.ext = ext.take (commandLength w - 1)

/-- Spec R77: for a word whose extension words are there, the decoder accepts exactly the words that match a row of the
mask table, as that row's command; at most one row matches; a reserved opcode is ILLEGAL_OPCODE and any other word
that matches no row is RESERVED_NONZERO. -/
def Obligations.DecoderFollowsMaskTable : Prop :=
  ∀ (w : Word) (ext : List Word), commandLength w ≤ ext.length + 1 →
    ((opField w = 0x0 ∨ opField w = 0xF) → decode w ext = .error .illegalOpcode) ∧
    (¬ (opField w = 0x0 ∨ opField w = 0xF) →
      (∀ i, decode w ext = .ok i → ∃ row ∈ maskTable, w &&& row.2.2 = row.2.1 ∧ row.1 = i.opcode) ∧
      ((∃ row ∈ maskTable, w &&& row.2.2 = row.2.1) → ∃ i, decode w ext = .ok i) ∧
      ((¬ ∃ row ∈ maskTable, w &&& row.2.2 = row.2.1) → decode w ext = .error .reservedNonzero)) ∧
    (∀ r₁ ∈ maskTable, ∀ r₂ ∈ maskTable, w &&& r₁.2.2 = r₁.2.1 → w &&& r₂.2.2 = r₂.2.1 → r₁ = r₂)

/-- Spec R75: the number of extension words is fixed by the opcode (2 for BE_START, BD_INIT and ANS_INIT, 1 for
SQ_INIT, else 0), and a legal opcode is rejected as truncated exactly when the stream holds fewer. -/
def Obligations.TruncationIsByOpcodeAlone : Prop :=
  ∀ (w : Word) (ext : List Word), opField w ≠ 0x0 → opField w ≠ 0xF →
    (decode w ext = .error .truncatedCommand ↔
      ext.length < if opField w ∈ [0x1#4, 0x4#4, 0x6#4] then 2 else if opField w = 0xA then 1 else 0)

/-- The 17 bits of a record (spec R160): tag at bit 16, `vs` at 15:8, `prob` at 7:0, and nothing is lost. -/
def Obligations.RecordLayout : Prop :=
  (∀ r : SqRecord, SqRecord.ofBits r.toBits = r ∧
    r.toBits.toNat = (if r.tag = .rans then 65536 else 0) + 256 * r.vs.toNat + r.prob.toNat) ∧
  (∀ b : BitVec 17, (SqRecord.ofBits b).toBits = b)

/-- Spec R81: `be.literal` writes bits n-1 down to 0 at probability 128, `bd.literal` is n reads at probability 128,
and the value the host forms from those bits is the low n bits of v. -/
def Obligations.LiteralExpansions : Prop :=
  ∀ (c : BitVec 4) (v : Word) (n : Nat),
    beLiteral c v n =
      (List.range n).map (fun k => .beWrite c ((BitVec.ofBool (v.getLsbD (n - 1 - k))).setWidth 8) 128) ∧
    bdLiteral c n = List.replicate n (.bdRead c 128) ∧
    literalValue ((List.range n).map fun k => bitWord (v.getLsbD (n - 1 - k))) = v.toNat % 2 ^ n

/-! ### The step -/

/-- When the words at the head of the stream decode to a command, a step is that command's meaning at the state with
exactly its words consumed (spec R183). -/
def Obligations.StepRunsDecodedCommand : Prop :=
  (∀ (s : State) (w : Word) (ext : List Word) (i : Instr), s.stream = w :: ext → decode w ext = .ok i →
    step s = exec i { s with stream := ext.drop (commandLength w - 1) }) ∧
  (∀ (s : State) (i : Instr) (rest : List Word), i.wf = true → s.stream = encode i ++ rest →
    step s = exec i { s with stream := rest })

/-- A word that is no command (spec R183, R201 items 1 to 4): its words are consumed; a running block takes the
fault; a halted one refuses it, or, for OP = 0xE, answers with the code and keeps the first fault. -/
def Obligations.StepAnswersRejectedWord : Prop :=
  ∀ (s : State) (w : Word) (ext : List Word) (r : Reject) (code : BitVec 8),
    s.stream = w :: ext → decode w ext = .error r →
    (r, code) ∈ [(Reject.illegalOpcode, 0x01#8), (.truncatedCommand, 0x0E#8), (.reservedNonzero, 0x02#8)] →
    (s.faultCode = 0 → step s = .next { s with
      stream := ext.drop (commandLength w - 1), faultCode := code, faultCmd := w,
      response := some ⟨.faulted, code.setWidth 32⟩ }) ∧
    (s.faultCode ≠ 0 → opField w ≠ 0xE → step s = .next { s with
      stream := ext.drop (commandLength w - 1), response := some ⟨.faulted, 0⟩ }) ∧
    (s.faultCode ≠ 0 → opField w = 0xE → step s = .next { s with
      stream := ext.drop (commandLength w - 1), response := some ⟨.faulted, code.setWidth 32⟩ })

/-- With no word to serve, a step is the host's next turn: it waits, sends words, writes one byte and no other, or
asserts reset; a write at an address that does not exist stops the model (assumption 8). The turns' place in the state is
the model's choice (assumption 3); what a write and a reset do is spec R50, R56, R230. -/
def Obligations.HostTurnsActBetweenCommands : Prop :=
  ∀ (s : State) (rest : List HostAction), s.stream = [] →
    (s.inbox = [] → step s = .next s) ∧
    (∀ ws, s.inbox = .send ws :: rest → step s = .next { s with stream := ws, inbox := rest }) ∧
    (∀ a v, s.inbox = .write a v :: rest → a < 2 ^ s.cfg.addrW →
      ∃ m, step s = .next { s with mem := m, inbox := rest } ∧
        ∀ b, m.read b = if b = a then v else s.mem.read b) ∧
    (∀ a v, s.inbox = .write a v :: rest → 2 ^ s.cfg.addrW ≤ a → step s = .fault .addressOutsideMemory) ∧
    (s.inbox = .reset :: rest → step s = .next (resetBlock { s with inbox := rest }))

/-! ### Halting and faults -/

/-- Spec R184: while halted, every command with OP other than 0xE is refused, changes nothing and gets `{FAULTED, 0}`;
REG_READ executes, and its faults are answered but not recorded; only reset leaves the halted state, which the model
takes as a host turn with no word waiting (assumption 3). -/
def Obligations.HaltedBlockRefusesCommands : Prop :=
  ∀ (s : State), s.faultCode ≠ 0 →
    (∀ i : Instr, i.opcode ≠ 0xE → exec i s = .next { s with response := some ⟨.faulted, 0⟩ }) ∧
    (∀ (c : BitVec 4) (n : BitVec 8) (r : Reg), c.toNat < s.cfg.nCtx → regOf n = some r →
      exec (.regRead c n) s = .next { s with response := some ⟨.ok, regValue s (s.ctx c) r⟩ }) ∧
    (∀ (c : BitVec 4) (n : BitVec 8), c.toNat < s.cfg.nCtx → regOf n = none →
      exec (.regRead c n) s = .next { s with response := some ⟨.faulted, 0x0B⟩ }) ∧
    (∀ (c : BitVec 4) (n : BitVec 8), s.cfg.nCtx ≤ c.toNat →
      exec (.regRead c n) s = .next { s with response := some ⟨.faulted, 0x03⟩ }) ∧
    (∀ t, step s = .next t → t.faultCode = 0 → s.stream = [] ∧ ∃ rest, s.inbox = .reset :: rest)

/-- Spec R184, whole machine: in a halted block no step that serves a word changes a register, a record or a byte of
memory; only the words served and the response differ. -/
def Obligations.HaltedStateIsFrozen : Prop :=
  ∀ (s : State), s.faultCode ≠ 0 → s.stream ≠ [] →
    ∃ rest r, step s = .next { s with stream := rest, response := some r }

/-- Spec R203: a fault is precise and sticky. Whatever word the block serves, command or not, if the response is FAULTED
then no engine register, record or byte changed and the block is halted; the first fault is recorded with its code, which
the response carries, and the command's first word; a later one changes neither. -/
def Obligations.FaultsArePreciseAndSticky : Prop :=
  (∀ (i : Instr) (s t : State) (v : Word), exec i s = .next t → t.response = some ⟨.faulted, v⟩ →
    t = { s with faultCode := t.faultCode, faultCmd := t.faultCmd, response := some ⟨.faulted, v⟩ } ∧
    t.faultCode ≠ 0 ∧
    (s.faultCode = 0 → t.faultCode.setWidth 32 = v ∧ t.faultCmd = i.word) ∧
    (s.faultCode ≠ 0 → t.faultCode = s.faultCode ∧ t.faultCmd = s.faultCmd)) ∧
  (∀ (s t : State) (w : Word) (ext : List Word) (v : Word), s.stream = w :: ext → step s = .next t →
    t.response = some ⟨.faulted, v⟩ →
    t = { s with stream := t.stream, faultCode := t.faultCode, faultCmd := t.faultCmd,
                 response := some ⟨.faulted, v⟩ } ∧
    t.faultCode ≠ 0 ∧
    (s.faultCode = 0 → t.faultCode.setWidth 32 = v ∧ t.faultCmd = w) ∧
    (s.faultCode ≠ 0 → t.faultCode = s.faultCode ∧ t.faultCmd = s.faultCmd))

/-- Whatever the command, a next state carries one response (spec R181); the parameters, the stream, the host's turns
and every context but the one named are as before (spec R23, R208); an OK response leaves the fault registers alone. -/
def Obligations.CommandsTouchOnlyTheirContext : Prop :=
  ∀ (i : Instr) (s t : State), exec i s = .next t →
    (∃ r, t.response = some r) ∧
    t.cfg = s.cfg ∧ t.stream = s.stream ∧ t.inbox = s.inbox ∧
    (∀ d, d ≠ i.ctx → t.ctx d = s.ctx d) ∧
    (∀ v, t.response = some ⟨.ok, v⟩ → t.faultCode = s.faultCode ∧ t.faultCmd = s.faultCmd)

/-- Taking a fault (spec R202, R203): a running block records the code and the command word and answers with the code;
a halted one only answers. The 14 codes are those of spec R200. -/
def Obligations.TakeFaultRecordsTheFirst : Prop :=
  (∀ (f : FaultCode) (w : Word) (s : State),
    (s.faultCode = 0 → takeFault f w s = { s with
      faultCode := f.code, faultCmd := w, response := some ⟨.faulted, f.code.setWidth 32⟩ }) ∧
    (s.faultCode ≠ 0 → takeFault f w s = { s with response := some ⟨.faulted, f.code.setWidth 32⟩ })) ∧
  [FaultCode.illegalOpcode, .reservedNonzero, .badContext, .lifecycle, .badProbability, .badSymbolRange, .badRegion,
    .badCapacity, .outputOverrun, .queueFull, .badRegister, .carryUnderflow, .ansStateInvariant,
    .truncatedCommand].map FaultCode.code = [1, 2, 3, 4, 5, 6, 7, 8, 9, 10, 11, 12, 13, 14]

/-- Spec R72, R201 item 5: a command with `CTX >= N_CTX` raises BAD_CONTEXT before anything else is checked, REG_READ
of a global register too. -/
def Obligations.AbsentContextFaults : Prop :=
  ∀ (i : Instr) (s : State), s.cfg.nCtx ≤ i.ctx.toNat → (s.faultCode = 0 ∨ i.opcode = 0xE) →
    exec i s = .next (takeFault .badContext i.word s)

/-- Spec R200 LIFECYCLE, R232: a command that needs an engine ACTIVE raises LIFECYCLE when it is not, whatever its
operands; SQ_FLUSH needs both the queue and the same context's ANS. -/
def Obligations.InactiveEngineFaults : Prop :=
  ∀ (s : State) (c : BitVec 4) (a p : BitVec 8), s.ready c →
    ((s.ctx c).be.lc ≠ .active →
      exec (.beWrite c a p) s = .next (takeFault .lifecycle (Instr.beWrite c a p).word s) ∧
      exec (.beStop c) s = .next (takeFault .lifecycle (Instr.beStop c).word s)) ∧
    ((s.ctx c).bd.lc ≠ .active →
      exec (.bdRead c p) s = .next (takeFault .lifecycle (Instr.bdRead c p).word s)) ∧
    ((s.ctx c).ans.lc ≠ .active →
      exec (.ansUabs c a p) s = .next (takeFault .lifecycle (Instr.ansUabs c a p).word s) ∧
      exec (.ansRans c a p) s = .next (takeFault .lifecycle (Instr.ansRans c a p).word s) ∧
      exec (.ansEnd c) s = .next (takeFault .lifecycle (Instr.ansEnd c).word s)) ∧
    ((s.ctx c).sq.lc ≠ .active →
      exec (.sqUabs c a p) s = .next (takeFault .lifecycle (Instr.sqUabs c a p).word s) ∧
      exec (.sqRans c a p) s = .next (takeFault .lifecycle (Instr.sqRans c a p).word s)) ∧
    ((s.ctx c).sq.lc ≠ .active ∨ (s.ctx c).ans.lc ≠ .active →
      exec (.sqFlush c) s = .next (takeFault .lifecycle (Instr.sqFlush c).word s))

/-- Spec R73, R201 item 8: with the engine ACTIVE, a probability operand 0 raises BAD_PROBABILITY, before the symbol
range and the room in the queue are looked at. -/
def Obligations.ZeroProbabilityFaults : Prop :=
  ∀ (s : State) (c : BitVec 4) (a : BitVec 8), s.ready c →
    ((s.ctx c).be.lc = .active →
      exec (.beWrite c a 0) s = .next (takeFault .badProbability (Instr.beWrite c a 0).word s)) ∧
    ((s.ctx c).bd.lc = .active →
      exec (.bdRead c 0) s = .next (takeFault .badProbability (Instr.bdRead c 0).word s)) ∧
    ((s.ctx c).ans.lc = .active →
      exec (.ansUabs c a 0) s = .next (takeFault .badProbability (Instr.ansUabs c a 0).word s) ∧
      exec (.ansRans c a 0) s = .next (takeFault .badProbability (Instr.ansRans c a 0).word s)) ∧
    ((s.ctx c).sq.lc = .active →
      exec (.sqUabs c a 0) s = .next (takeFault .badProbability (Instr.sqUabs c a 0).word s) ∧
      exec (.sqRans c a 0) s = .next (takeFault .badProbability (Instr.sqRans c a 0).word s))

/-- Spec R144, R163, R201 items 9 and 11: `cum + prob > 256` raises BAD_SYMBOL_RANGE, in a full queue too. -/
def Obligations.SymbolPastSlotsFaults : Prop :=
  ∀ (s : State) (c : BitVec 4) (cum prob : BitVec 8), s.ready c → 256 < cum.toNat + prob.toNat →
    ((s.ctx c).ans.lc = .active →
      exec (.ansRans c cum prob) s = .next (takeFault .badSymbolRange (Instr.ansRans c cum prob).word s)) ∧
    ((s.ctx c).sq.lc = .active →
      exec (.sqRans c cum prob) s = .next (takeFault .badSymbolRange (Instr.sqRans c cum prob).word s))

/-- Spec R51: an init command whose base is at or past `2^ADDR_W`, or whose region passes it, raises BAD_REGION,
whatever the engine's lifecycle. -/
def Obligations.RegionPastMemoryFaults : Prop :=
  ∀ (s : State) (c : BitVec 4) (base len : Word), s.ready c →
    (2 ^ s.cfg.addrW ≤ base.toNat ∨ 2 ^ s.cfg.addrW < base.toNat + len.toNat) →
    exec (.beStart c base len) s = .next (takeFault .badRegion (Instr.beStart c base len).word s) ∧
    exec (.bdInit c base len) s = .next (takeFault .badRegion (Instr.bdInit c base len).word s) ∧
    exec (.ansInit c base len) s = .next (takeFault .badRegion (Instr.ansInit c base len).word s)

/-- Spec R161, R166: a capacity above SQ_MAX raises BAD_CAPACITY, and an append to a queue that holds `SQ.cap` records
raises QUEUE_FULL. -/
def Obligations.CapacityFaults : Prop :=
  ∀ (s : State) (c : BitVec 4), s.ready c →
    (∀ capacity : Word, s.cfg.sqMax < capacity.toNat →
      exec (.sqInit c capacity) s = .next (takeFault .badCapacity (Instr.sqInit c capacity).word s)) ∧
    ((s.ctx c).sq.lc = .active → (s.ctx c).sq.cap.toNat ≤ (s.ctx c).sq.len.toNat →
      (∀ a p : BitVec 8, p ≠ 0 →
        exec (.sqUabs c a p) s = .next (takeFault .queueFull (Instr.sqUabs c a p).word s)) ∧
      (∀ cum prob : BitVec 8, prob ≠ 0 → cum.toNat + prob.toNat ≤ 256 →
        exec (.sqRans c cum prob) s = .next (takeFault .queueFull (Instr.sqRans c cum prob).word s)))

/-- Spec R35, R180: REG_READ of a number outside the register table raises BAD_REGISTER, halted or not. -/
def Obligations.UnassignedRegisterFaults : Prop :=
  ∀ (s : State) (c : BitVec 4) (n : BitVec 8), c.toNat < s.cfg.nCtx →
    ¬ (n.toNat ≤ 0x06 ∨ (0x10 ≤ n.toNat ∧ n.toNat ≤ 0x15) ∨ (0x20 ≤ n.toNat ∧ n.toNat ≤ 0x24) ∨
      (0x30 ≤ n.toNat ∧ n.toNat ≤ 0x32) ∨ (0xF0 ≤ n.toNat ∧ n.toNat ≤ 0xF4)) →
    exec (.regRead c n) s = .next (takeFault .badRegister (Instr.regRead c n).word s)

/-- Spec R103: a BE_WRITE that completes a byte with no room left raises OUTPUT_OVERRUN, whether or not a carry is
pending; a pending carry with only 0xFF bytes below it raises CARRY_UNDERFLOW (spec R104). -/
def Obligations.BeWriteFaults : Prop :=
  ∀ (s : State) (c : BitVec 4) (a p : BitVec 8), s.ready c → (s.ctx c).be.lc = .active → p ≠ 0 →
    BeOk (s.ctx c).be → regionFits s.cfg (s.ctx c).be.base (s.ctx c).be.cap →
    0 ≤ (s.ctx c).be.count.toInt + encShift (a.getLsbD 0) p.toNat (s.ctx c).be →
    ((s.ctx c).be.cap.toNat ≤ (s.ctx c).be.pos.toNat →
      exec (.beWrite c a p) s = .next (takeFault .outputOverrun (Instr.beWrite c a p).word s)) ∧
    ((s.ctx c).be.pos.toNat < (s.ctx c).be.cap.toNat →
      2 ^ ((s.ctx c).be.count.toInt + 32).toNat ≤ (encLow (a.getLsbD 0) p.toNat (s.ctx c).be).toNat →
      (∀ j, j < (s.ctx c).be.pos.toNat → s.mem.read ((s.ctx c).be.base.toNat + j) = 0xFF) →
      exec (.beWrite c a p) s = .next (takeFault .carryUnderflow (Instr.beWrite c a p).word s))

/-- Spec R141, R145, R164: an ANS command that needs a byte with no room left raises OUTPUT_OVERRUN; ANS_END outside the
state interval raises ANS_STATE_INVARIANT. SQ_FLUSH raises OUTPUT_OVERRUN when the direct ANS commands for the records
after `r` of the queue, last record first, leave no room for the byte that the step of `r` needs; and from a queue of
written, valid records it completes or raises that fault, no other. -/
def Obligations.AnsFaults : Prop :=
  ∀ (s : State) (c : BitVec 4), s.ready c → (s.ctx c).ans.lc = .active →
    (∀ a p0 : BitVec 8, p0 ≠ 0 → (s.ctx c).ans.cap.toNat ≤ (s.ctx c).ans.off.toNat →
      1024 * (if a.getLsbD 0 then 256 - p0.toNat else p0.toNat) ≤ (s.ctx c).ans.x.toNat →
      exec (.ansUabs c a p0) s = .next (takeFault .outputOverrun (Instr.ansUabs c a p0).word s)) ∧
    (∀ cum prob : BitVec 8, prob ≠ 0 → cum.toNat + prob.toNat ≤ 256 →
      (s.ctx c).ans.cap.toNat ≤ (s.ctx c).ans.off.toNat → 1024 * prob.toNat ≤ (s.ctx c).ans.x.toNat →
      exec (.ansRans c cum prob) s = .next (takeFault .outputOverrun (Instr.ansRans c cum prob).word s)) ∧
    (¬ (1024 ≤ (s.ctx c).ans.x.toNat ∧ (s.ctx c).ans.x.toNat < 262144) →
      exec (.ansEnd c) s = .next (takeFault .ansStateInvariant (Instr.ansEnd c).word s)) ∧
    (1024 ≤ (s.ctx c).ans.x.toNat → (s.ctx c).ans.x.toNat < 262144 →
      regionFits s.cfg (s.ctx c).ans.base (s.ctx c).ans.cap →
      (s.ctx c).ans.cap.toNat < (s.ctx c).ans.off.toNat +
        (if (s.ctx c).ans.x.toNat - 1024 < 64 then 1 else if (s.ctx c).ans.x.toNat - 1024 < 16384 then 2 else 3) →
      exec (.ansEnd c) s = .next (takeFault .outputOverrun (Instr.ansEnd c).word s)) ∧
    ((s.ctx c).sq.lc = .active → SqOk s.cfg (s.ctx c).sq →
      (∀ (done rest : List SqRecord) (r : SqRecord) (vs : List Word) (u : State),
        (queueRecords c (s.ctx c).sq).reverse = done ++ r :: rest →
        runAll (done.map (recordCommand c)) s = some (vs, u) →
        (u.ctx c).ans.cap.toNat ≤ (u.ctx c).ans.off.toNat →
        1024 * (if r.tag = .uabs ∧ r.vs = 1 then 256 - r.prob.toNat else r.prob.toNat) ≤ (u.ctx c).ans.x.toNat →
        exec (.sqFlush c) s = .next (takeFault .outputOverrun (Instr.sqFlush c).word s)) ∧
      (regionFits s.cfg (s.ctx c).ans.base (s.ctx c).ans.cap →
        ∃ t, exec (.sqFlush c) s = .next t ∧
          (t.response = some ⟨.ok, (s.ctx c).sq.len⟩ ∨ t = takeFault .outputOverrun (Instr.sqFlush c).word s)))

/-! ### Bool encoder -/

/-- Spec R100: the split leaves both sub-intervals non-empty; the bit 0 takes the lower one, of width `split`, and the
bit 1 the upper one, of width `R - split`, in the encoder and in the decoder. -/
def Obligations.SplitLeavesBothIntervals : Prop :=
  (∀ r p : Nat, 2 ≤ r → r ≤ 255 → p ≤ 255 →
    splitPoint r p = 1 + (r - 1) * p / 256 ∧ 1 ≤ splitPoint r p ∧ splitPoint r p ≤ r - 1) ∧
  (∀ (be : BeRegs) (p : Nat),
    encRange false p be = splitPoint be.range.toNat p ∧ encLow false p be = be.low ∧
    encRange true p be = be.range.toNat - splitPoint be.range.toNat p ∧
    encLow true p be = be.low + BitVec.ofNat 32 (splitPoint be.range.toNat p)) ∧
  (∀ (bd : BdRegs) (p : Nat), 2 ≤ bd.range.toNat → p ≤ 255 →
    (decBitOf p bd = false → (decNarrow p bd).range.toNat = splitPoint bd.range.toNat p) ∧
    (decBitOf p bd = true → (decNarrow p bd).range.toNat = bd.range.toNat - splitPoint bd.range.toNat p) ∧
    (decBitOf p bd = true ↔ splitPoint bd.range.toNat p ≤ bd.value.toNat))

/-- Spec R101: `norm(r) = 7 - floor(log2 r)` is the number of shifts that bring `r` into [128, 255]; `norm(0) = 0`. -/
def Obligations.NormBringsRangeIntoWindow : Prop :=
  (∀ r : Nat, 1 ≤ r → r ≤ 255 →
    normShift r = 7 - Nat.log2 r ∧ 128 ≤ r * 2 ^ normShift r ∧ r * 2 ^ normShift r ≤ 255) ∧
  normShift 0 = 0

/-- Spec R102: the result and the whole effect of BE_START, from every lifecycle state of the encoder. -/
def Obligations.BeStartResult : Prop :=
  ∀ (s : State) (c : BitVec 4) (base len : Word), s.ready c →
    base.toNat < 2 ^ s.cfg.addrW → base.toNat + len.toNat ≤ 2 ^ s.cfg.addrW →
    exec (.beStart c base len) s = .next ((s.setCtx c { s.ctx c with
      be := { lc := .active, low := 0, range := 128, count := -24, pos := 0, base := base, cap := len } }).respond .ok 0)

/-- Spec R103, R105: a BE_WRITE that completes no byte. With `split = 1 + (((range - 1) * p) >> 8)`, bit 0 takes the
width `split` at `low`, bit 1 the rest above it; both are scaled by the normalization shift, and no memory changes. -/
def Obligations.BeWriteWithoutByte : Prop :=
  ∀ (s : State) (c : BitVec 4) (a p : BitVec 8) (sp r n : Nat), s.ready c → (s.ctx c).be.lc = .active → p ≠ 0 →
    BeOk (s.ctx c).be →
    sp = 1 + ((s.ctx c).be.range.toNat - 1) * p.toNat / 256 →
    r = (if a.getLsbD 0 then (s.ctx c).be.range.toNat - sp else sp) →
    n = 7 - Nat.log2 r →
    (s.ctx c).be.count.toInt + n < 0 →
    ∃ be', exec (.beWrite c a p) s = .next ((s.setCtx c { s.ctx c with be := be' }).respond .ok 0) ∧
      be'.lc = .active ∧ be'.base = (s.ctx c).be.base ∧ be'.cap = (s.ctx c).be.cap ∧ be'.pos = (s.ctx c).be.pos ∧
      be'.range.toNat = r * 2 ^ n ∧
      be'.count.toInt = (s.ctx c).be.count.toInt + n ∧
      be'.low.toNat = ((s.ctx c).be.low.toNat + if a.getLsbD 0 then sp else 0) * 2 ^ n

/-- Spec R103, R104, R105: a BE_WRITE that completes a byte, with room for it and, if a carry is pending, a byte below
0xFF to take it. One byte is added at the cursor; the emitted bytes and `low` together are the old ones, moved to the
chosen sub-interval and scaled: so the carry chain and the new byte are exactly what the code value needs. -/
def Obligations.BeWriteWithByte : Prop :=
  ∀ (s : State) (c : BitVec 4) (a p : BitVec 8) (sp r n lo : Nat), s.ready c → (s.ctx c).be.lc = .active → p ≠ 0 →
    BeOk (s.ctx c).be → regionFits s.cfg (s.ctx c).be.base (s.ctx c).be.cap →
    sp = 1 + ((s.ctx c).be.range.toNat - 1) * p.toNat / 256 →
    r = (if a.getLsbD 0 then (s.ctx c).be.range.toNat - sp else sp) →
    n = 7 - Nat.log2 r →
    lo = (s.ctx c).be.low.toNat + (if a.getLsbD 0 then sp else 0) →
    0 ≤ (s.ctx c).be.count.toInt + n → (s.ctx c).be.pos.toNat < (s.ctx c).be.cap.toNat →
    (2 ^ ((s.ctx c).be.count.toInt + 32).toNat ≤ lo →
      ∃ j, j < (s.ctx c).be.pos.toNat ∧ s.mem.read ((s.ctx c).be.base.toNat + j) ≠ 0xFF) →
    ∃ be' m', exec (.beWrite c a p) s = .next (((s.setCtx c { s.ctx c with be := be' }).setMem m').respond .ok 0) ∧
      be'.lc = .active ∧ be'.base = (s.ctx c).be.base ∧ be'.cap = (s.ctx c).be.cap ∧
      be'.pos.toNat = (s.ctx c).be.pos.toNat + 1 ∧
      be'.range.toNat = r * 2 ^ n ∧
      be'.count.toInt = (s.ctx c).be.count.toInt + n - 8 ∧
      be'.low.toNat < 2 ^ (be'.count.toInt + 32).toNat ∧
      codeValue be' m' =
        (codeValue (s.ctx c).be s.mem + if a.getLsbD 0 then sp else 0) * 2 ^ n

/-- Spec R52, R103, R104: what BE_WRITE and BE_STOP store to. No byte outside `[BE.base, BE.base + BE.pos)` (with the
cursor after the command) changes; a carry changes no byte below one that was not 0xFF (for BE_STOP, of a unit in its
legal values); and a command that moved no cursor stores nothing. -/
def Obligations.BeStoresOnlyItsOutput : Prop :=
  ∀ (i : Instr) (c : BitVec 4) (s t : State), (i = .beStop c ∨ ∃ a p, i = .beWrite c a p) →
    exec i s = .next t → ∀ addr : Nat,
    (¬ ((s.ctx c).be.base.toNat ≤ addr ∧ addr < (s.ctx c).be.base.toNat + (t.ctx c).be.pos.toNat) →
      t.mem.read addr = s.mem.read addr) ∧
    ((i = .beStop c → BeOk (s.ctx c).be) →
      ∀ j, j < (s.ctx c).be.pos.toNat → s.mem.read ((s.ctx c).be.base.toNat + j) ≠ 0xFF →
      addr < (s.ctx c).be.base.toNat + j → t.mem.read addr = s.mem.read addr) ∧
    ((t.ctx c).be.pos = (s.ctx c).be.pos → t.mem.read addr = s.mem.read addr)

/-- Spec R106, R109: BE_STOP of an ACTIVE unit with room for its bytes. The padding emits `n = 1 + floor((32 + count) / 8)`
bytes; they and the earlier ones hold the code value, and nothing is left in `low`; with STOP_GUARD = 1 a final byte
`110xxxxx` is followed by 0x00 (`g` says whether it is); the result is the byte count and BE becomes FINAL. -/
def Obligations.BeStopResult : Prop :=
  ∀ (s : State) (c : BitVec 4) (n g : Nat), s.ready c → (s.ctx c).be.lc = .active →
    BeOk (s.ctx c).be → regionFits s.cfg (s.ctx c).be.base (s.ctx c).be.cap →
    n = 1 + (32 + (s.ctx c).be.count.toInt).toNat / 8 →
    g = (if s.cfg.stopGuard = true ∧
      codeValue (s.ctx c).be s.mem * 2 ^ 32 / 2 ^ ((s.ctx c).be.count.toInt + 64 - 8 * n).toNat % 256 / 32 = 6
      then 1 else 0) →
    (s.ctx c).be.pos.toNat + n + g ≤ (s.ctx c).be.cap.toNat →
    (2 ^ ((s.ctx c).be.count.toInt + 32).toNat ≤ (s.ctx c).be.low.toNat →
      ∃ j, j < (s.ctx c).be.pos.toNat ∧ s.mem.read ((s.ctx c).be.base.toNat + j) ≠ 0xFF) →
    ∃ be' m', exec (.beStop c) s =
        .next (((s.setCtx c { s.ctx c with be := be' }).setMem m').respond .ok be'.pos) ∧
      be'.lc = .final ∧ be'.low = 0 ∧ be'.base = (s.ctx c).be.base ∧ be'.cap = (s.ctx c).be.cap ∧
      be'.pos.toNat = (s.ctx c).be.pos.toNat + n + g ∧
      be'.count.toInt = (s.ctx c).be.count.toInt + 32 - 8 * n ∧
      be'.range.toNat = (s.ctx c).be.range.toNat + (s.ctx c).be.range.toNat % 2 ∧
      regionValue m' be'.base.toNat ((s.ctx c).be.pos.toNat + n) * 2 ^ (be'.count.toInt + 32).toNat =
        codeValue (s.ctx c).be s.mem * 2 ^ 32 ∧
      (g = 1 → m'.read (be'.base.toNat + (s.ctx c).be.pos.toNat + n) = 0)

/-- Spec R106, R201 item 12: BE_STOP of an ACTIVE unit without room for a padding byte or the guard byte raises
OUTPUT_OVERRUN; with room for the first byte, a pending carry that has only 0xFF bytes below it raises
CARRY_UNDERFLOW. -/
def Obligations.BeStopFaults : Prop :=
  ∀ (s : State) (c : BitVec 4) (n g : Nat), s.ready c → (s.ctx c).be.lc = .active →
    BeOk (s.ctx c).be → regionFits s.cfg (s.ctx c).be.base (s.ctx c).be.cap →
    n = 1 + (32 + (s.ctx c).be.count.toInt).toNat / 8 →
    g = (if s.cfg.stopGuard = true ∧
      codeValue (s.ctx c).be s.mem * 2 ^ 32 / 2 ^ ((s.ctx c).be.count.toInt + 64 - 8 * n).toNat % 256 / 32 = 6
      then 1 else 0) →
    ((s.ctx c).be.cap.toNat < (s.ctx c).be.pos.toNat + n + g →
      (2 ^ ((s.ctx c).be.count.toInt + 32).toNat ≤ (s.ctx c).be.low.toNat →
        (s.ctx c).be.pos.toNat < (s.ctx c).be.cap.toNat →
        ∃ j, j < (s.ctx c).be.pos.toNat ∧ s.mem.read ((s.ctx c).be.base.toNat + j) ≠ 0xFF) →
      exec (.beStop c) s = .next (takeFault .outputOverrun (Instr.beStop c).word s)) ∧
    ((s.ctx c).be.pos.toNat < (s.ctx c).be.cap.toNat →
      2 ^ ((s.ctx c).be.count.toInt + 32).toNat ≤ (s.ctx c).be.low.toNat →
      (∀ j, j < (s.ctx c).be.pos.toNat → s.mem.read ((s.ctx c).be.base.toNat + j) = 0xFF) →
      exec (.beStop c) s = .next (takeFault .carryUnderflow (Instr.beStop c).word s))

/-- Spec R107, over every state in which a unit's interval lies in the lower half of the initial one: BE_START makes it
so; BE_WRITE keeps it; BE_WRITE and BE_STOP then never raise CARRY_UNDERFLOW; and byte 0 has bit 7 clear, in the
finished output too. -/
def Obligations.SentinelHolds : Prop :=
  (∀ (s t : State) (c : BitVec 4) (base len : Word), exec (.beStart c base len) s = .next t →
    (∃ v, t.response = some ⟨.ok, v⟩) → BeSentinel (t.ctx c).be t.mem) ∧
  (∀ (s t : State) (c : BitVec 4) (a p : BitVec 8), s.faultCode = 0 → BeOk (s.ctx c).be →
    BeSentinel (s.ctx c).be s.mem → exec (.beWrite c a p) s = .next t →
    t.response ≠ some ⟨.faulted, 0x0C⟩ ∧
    ((∃ v, t.response = some ⟨.ok, v⟩) → BeSentinel (t.ctx c).be t.mem)) ∧
  (∀ (s t : State) (c : BitVec 4), s.faultCode = 0 → BeOk (s.ctx c).be →
    BeSentinel (s.ctx c).be s.mem → exec (.beStop c) s = .next t →
    t.response ≠ some ⟨.faulted, 0x0C⟩ ∧
    ((∃ v, t.response = some ⟨.ok, v⟩) → (t.mem.read (t.ctx c).be.base.toNat).toNat < 128)) ∧
  (∀ (s : State) (c : BitVec 4), BeOk (s.ctx c).be → BeSentinel (s.ctx c).be s.mem →
    0 < (s.ctx c).be.pos.toNat → (s.mem.read (s.ctx c).be.base.toNat).toNat < 128)

/-! ### Bool decoder -/

/-- Spec R121, R124: BD_READ from every ACTIVE state with a legal range, at any bit cursor (spec R126: reading past the
data is no fault). The value is compared with the split; the chosen sub-interval and the value are scaled by the
normalization shift, and as many input bits come in at the bottom of the 8-bit value. No memory changes. -/
def Obligations.BdReadResult : Prop :=
  ∀ (s : State) (c : BitVec 4) (p : BitVec 8) (sp r v n : Nat) (b : Bool), s.ready c → (s.ctx c).bd.lc = .active →
    p ≠ 0 → 128 ≤ (s.ctx c).bd.range.toNat → regionFits s.cfg (s.ctx c).bd.base (s.ctx c).bd.size →
    sp = 1 + ((s.ctx c).bd.range.toNat - 1) * p.toNat / 256 →
    b = decide (sp ≤ (s.ctx c).bd.value.toNat) →
    r = (if b then (s.ctx c).bd.range.toNat - sp else sp) →
    v = (if b then (s.ctx c).bd.value.toNat - sp else (s.ctx c).bd.value.toNat) →
    n = 7 - Nat.log2 r →
    ∃ bd', exec (.bdRead c p) s =
        .next ((s.setCtx c { s.ctx c with bd := bd' }).respond .ok (if b then 1 else 0)) ∧
      bd'.lc = .active ∧ bd'.base = (s.ctx c).bd.base ∧ bd'.size = (s.ctx c).bd.size ∧
      bd'.range.toNat = r * 2 ^ n ∧ bd'.bitpos = (s.ctx c).bd.bitpos + n ∧
      bd'.value.toNat = (v * 2 ^ n + inputBits (s.ctx c).bd s.mem (s.ctx c).bd.bitpos n) % 256

/-- Spec R123: BD_INIT from every lifecycle state of the decoder. The result is the marker bit, which is bit 7 of the
first byte; a marker 0 leaves that byte and range 128, a marker 1 moves above the split 128 and shifts one input bit
in. -/
def Obligations.BdInitResult : Prop :=
  ∀ (s : State) (c : BitVec 4) (base len : Word) (first : Nat), s.ready c →
    base.toNat < 2 ^ s.cfg.addrW → base.toNat + len.toNat ≤ 2 ^ s.cfg.addrW →
    first = (if 0 < len.toNat then (s.mem.read base.toNat).toNat else 0) →
    (first < 128 → exec (.bdInit c base len) s = .next ((s.setCtx c { s.ctx c with
      bd := { lc := .active, value := BitVec.ofNat 8 first, range := 128, bitpos := 8, base := base, size := len } }
      ).respond .ok 0)) ∧
    (128 ≤ first → exec (.bdInit c base len) s = .next ((s.setCtx c { s.ctx c with
      bd := { lc := .active,
              value := BitVec.ofNat 8 ((first - 128) * 2 +
                if 1 < len.toNat then (s.mem.read (base.toNat + 1)).toNat / 128 else 0),
              range := 254, bitpos := 9, base := base, size := len } }).respond .ok 1))

/-- Spec R125 and R126, the coders against each other through the machine's own commands. From any running state, a
unit of any bits with probabilities in [1, 255], in a region of the size spec R109 asks for, runs without a fault;
BD_INIT on the bytes BE_STOP counted returns the marker 0; the reads with the same probabilities return the bits; and
32 further reads at probability 128 return 0. -/
def Obligations.CodersRoundTrip : Prop :=
  ∀ (s : State) (c : BitVec 4) (base cap : Word) (xs : List (Bool × BitVec 8)), s.ready c →
    base.toNat < 2 ^ s.cfg.addrW → base.toNat + cap.toNat ≤ 2 ^ s.cfg.addrW →
    (∀ x ∈ xs, x.2 ≠ 0) → 7 * xs.length / 8 + 3 ≤ cap.toNat →
    ∃ (t u : State) (count : Word),
      runAll (.beStart c base cap :: writeCommands c xs ++ [.beStop c]) s =
        some (List.replicate (xs.length + 1) 0 ++ [count], t) ∧
      count.toNat ≤ 7 * xs.length / 8 + 3 ∧
      runAll (.bdInit c base count :: readCommands c xs ++ List.replicate 32 (.bdRead c 128)) t =
        some (0 :: xs.map (fun x => bitWord x.1) ++ List.replicate 32 0, u)

/-! ### ANS -/

/-- Spec R142: the result and the whole effect of ANS_INIT, from every lifecycle state of the engine. -/
def Obligations.AnsInitResult : Prop :=
  ∀ (s : State) (c : BitVec 4) (base len : Word), s.ready c →
    base.toNat < 2 ^ s.cfg.addrW → base.toNat + len.toNat ≤ 2 ^ s.cfg.addrW →
    exec (.ansInit c base len) s = .next ((s.setCtx c { s.ctx c with
      ans := { lc := .active, x := 1024, off := 0, base := base, cap := len } }).respond .ok 0)

/-- Spec R141, R143: ANS_UABS from an ACTIVE state in its interval. Below `1024 * ls` no byte is written; otherwise the
low byte of the state goes to the cursor and the state is divided by 256 first. The new state is in the interval
(spec R146). -/
def Obligations.AnsUabsResult : Prop :=
  ∀ (s : State) (c : BitVec 4) (a p0 : BitVec 8) (ls x : Nat) (next : Nat → Nat), s.ready c →
    (s.ctx c).ans.lc = .active → p0 ≠ 0 →
    x = (s.ctx c).ans.x.toNat → 1024 ≤ x → x < 262144 →
    regionFits s.cfg (s.ctx c).ans.base (s.ctx c).ans.cap →
    ls = (if a.getLsbD 0 then 256 - p0.toNat else p0.toNat) →
    next = (fun y => if a.getLsbD 0 then ((y + 1) * 256 + (256 - p0.toNat) - 1) / (256 - p0.toNat) - 1
      else y * 256 / p0.toNat) →
    (x < 1024 * ls → exec (.ansUabs c a p0) s = .next ((s.setCtx c { s.ctx c with
      ans := { (s.ctx c).ans with x := BitVec.ofNat 32 (next x) } }).respond .ok 0) ∧
      1024 ≤ next x ∧ next x < 262144) ∧
    (1024 * ls ≤ x → (s.ctx c).ans.off.toNat < (s.ctx c).ans.cap.toNat →
      exec (.ansUabs c a p0) s = .next (((s.setCtx c { s.ctx c with
        ans := { (s.ctx c).ans with x := BitVec.ofNat 32 (next (x / 256)), off := (s.ctx c).ans.off + 1 } }).setMem
          (s.mem.write ((s.ctx c).ans.base.toNat + (s.ctx c).ans.off.toNat) (BitVec.ofNat 8 x))).respond .ok 0) ∧
      1024 ≤ next (x / 256) ∧ next (x / 256) < 262144)

/-- Spec R141, R144: ANS_RANS from an ACTIVE state in its interval, with the new state in the interval (spec R146). -/
def Obligations.AnsRansResult : Prop :=
  ∀ (s : State) (c : BitVec 4) (cum prob : BitVec 8) (x : Nat) (next : Nat → Nat), s.ready c →
    (s.ctx c).ans.lc = .active → prob ≠ 0 → cum.toNat + prob.toNat ≤ 256 →
    x = (s.ctx c).ans.x.toNat → 1024 ≤ x → x < 262144 →
    regionFits s.cfg (s.ctx c).ans.base (s.ctx c).ans.cap →
    next = (fun y => y / prob.toNat * 256 + y % prob.toNat + cum.toNat) →
    (x < 1024 * prob.toNat → exec (.ansRans c cum prob) s = .next ((s.setCtx c { s.ctx c with
      ans := { (s.ctx c).ans with x := BitVec.ofNat 32 (next x) } }).respond .ok 0) ∧
      1024 ≤ next x ∧ next x < 262144) ∧
    (1024 * prob.toNat ≤ x → (s.ctx c).ans.off.toNat < (s.ctx c).ans.cap.toNat →
      exec (.ansRans c cum prob) s = .next (((s.setCtx c { s.ctx c with
        ans := { (s.ctx c).ans with x := BitVec.ofNat 32 (next (x / 256)), off := (s.ctx c).ans.off + 1 } }).setMem
          (s.mem.write ((s.ctx c).ans.base.toNat + (s.ctx c).ans.off.toNat) (BitVec.ofNat 8 x))).respond .ok 0) ∧
      1024 ≤ next (x / 256) ∧ next (x / 256) < 262144)

/-- Spec R54, R145: ANS_END from an ACTIVE state in its interval writes the final state `st = x - 1024` in 1, 2 or 3
bytes, low byte first, with the number of bytes in the top two bits of the last; the result is the total byte count,
`ANS.x` keeps its value and ANS becomes FINAL. -/
def Obligations.AnsEndResult : Prop :=
  ∀ (s : State) (c : BitVec 4) (st n v at_ : Nat), s.ready c → (s.ctx c).ans.lc = .active →
    1024 ≤ (s.ctx c).ans.x.toNat → (s.ctx c).ans.x.toNat < 262144 →
    regionFits s.cfg (s.ctx c).ans.base (s.ctx c).ans.cap →
    st = (s.ctx c).ans.x.toNat - 1024 →
    n = (if st < 64 then 1 else if st < 16384 then 2 else 3) →
    v = (if st < 64 then st else if st < 16384 then 16384 + st else 8388608 + st) →
    at_ = (s.ctx c).ans.base.toNat + (s.ctx c).ans.off.toNat →
    (s.ctx c).ans.off.toNat + n ≤ (s.ctx c).ans.cap.toNat →
    ∃ m', exec (.ansEnd c) s = .next (((s.setCtx c { s.ctx c with
        ans := { (s.ctx c).ans with lc := .final, off := (s.ctx c).ans.off + BitVec.ofNat 32 n } }).setMem m'
          ).respond .ok ((s.ctx c).ans.off + BitVec.ofNat 32 n)) ∧
      (∀ j, j < n → (m'.read (at_ + j)).toNat = v / 256 ^ j % 256) ∧
      (∀ b, ¬ (at_ ≤ b ∧ b < at_ + n) → m'.read b = s.mem.read b)

/-! ### Symbol queue -/

/-- Spec R161: SQ_INIT from every lifecycle state of the queue; the record store is not cleared. -/
def Obligations.SqInitResult : Prop :=
  ∀ (s : State) (c : BitVec 4) (capacity : Word), s.ready c → capacity.toNat ≤ s.cfg.sqMax →
    exec (.sqInit c capacity) s = .next ((s.setCtx c { s.ctx c with
      sq := { (s.ctx c).sq with lc := .active, len := 0, cap := capacity } }).respond .ok 0)

/-- Spec R162, R163: an append to an ACTIVE queue with room stores one record at index `SQ.len`, raises `SQ.len` by
one, and keeps every other record; no memory and no other engine changes. -/
def Obligations.AppendResult : Prop :=
  ∀ (s : State) (c : BitVec 4) (i : Instr) (rec : SqRecord), s.ready c → (s.ctx c).sq.lc = .active →
    (s.ctx c).sq.len.toNat < (s.ctx c).sq.cap.toNat →
    ((∃ a p : BitVec 8, p ≠ 0 ∧ i = .sqUabs c a p ∧
        rec = ⟨.uabs, if a.getLsbD 0 then 1 else 0, p⟩) ∨
      (∃ cum prob : BitVec 8, prob ≠ 0 ∧ cum.toNat + prob.toNat ≤ 256 ∧ i = .sqRans c cum prob ∧
        rec = ⟨.rans, cum, prob⟩)) →
    ∃ recs', exec i s = .next ((s.setCtx c { s.ctx c with
        sq := { (s.ctx c).sq with len := (s.ctx c).sq.len + 1, recs := recs' } }).respond .ok 0) ∧
      rec.valid = true ∧
      (∀ k, readRecord c recs' k = if k = (s.ctx c).sq.len.toNat then rec else readRecord c (s.ctx c).sq.recs k)

/-- Spec R164, R146: SQ_FLUSH of an ACTIVE queue of written, valid records into an ACTIVE ANS with room for one byte a
record. The result is the number of records; the queue keeps its records and becomes FINAL; ANS stays ACTIVE in its
interval; at most one byte a record is written, at the cursor and up. -/
def Obligations.SqFlushCompletes : Prop :=
  ∀ (s : State) (c : BitVec 4), s.ready c → (s.ctx c).sq.lc = .active → (s.ctx c).ans.lc = .active →
    SqOk s.cfg (s.ctx c).sq → 1024 ≤ (s.ctx c).ans.x.toNat → (s.ctx c).ans.x.toNat < 262144 →
    regionFits s.cfg (s.ctx c).ans.base (s.ctx c).ans.cap →
    (s.ctx c).ans.off.toNat + (s.ctx c).sq.len.toNat ≤ (s.ctx c).ans.cap.toNat →
    ∃ x' off' m', exec (.sqFlush c) s = .next (((s.setCtx c { s.ctx c with
        ans := { (s.ctx c).ans with x := x', off := off' }
        sq := { (s.ctx c).sq with lc := .final } }).setMem m').respond .ok (s.ctx c).sq.len) ∧
      1024 ≤ x'.toNat ∧ x'.toNat < 262144 ∧
      (s.ctx c).ans.off.toNat ≤ off'.toNat ∧ off'.toNat ≤ (s.ctx c).ans.off.toNat + (s.ctx c).sq.len.toNat ∧
      (∀ b, ¬ ((s.ctx c).ans.base.toNat + (s.ctx c).ans.off.toNat ≤ b ∧
          b < (s.ctx c).ans.base.toNat + off'.toNat) → m'.read b = s.mem.read b)

/-- Spec R165: flushing a queue leaves the bytes and the ANS registers that the direct ANS commands for its records,
last record first, leave; and it completes exactly when they do. -/
def Obligations.FlushEqualsReversedCommands : Prop :=
  ∀ (s : State) (c : BitVec 4), s.ready c → (s.ctx c).sq.lc = .active → (s.ctx c).ans.lc = .active →
    SqOk s.cfg (s.ctx c).sq →
    (∀ vs t, runAll ((queueRecords c (s.ctx c).sq).reverse.map (recordCommand c)) s = some (vs, t) →
      exec (.sqFlush c) s = .next (((s.setCtx c { s.ctx c with
        ans := (t.ctx c).ans, sq := { (s.ctx c).sq with lc := .final } }).setMem t.mem
          ).respond .ok (s.ctx c).sq.len)) ∧
    (∀ t, exec (.sqFlush c) s = .next t → t.response = some ⟨.ok, (s.ctx c).sq.len⟩ →
      ∃ vs u, runAll ((queueRecords c (s.ctx c).sq).reverse.map (recordCommand c)) s = some (vs, u) ∧
        (u.ctx c).ans = (t.ctx c).ans ∧ u.mem = t.mem)

/-! ### Control -/

/-- Spec R24, R35, R180, R184: REG_READ returns the named register, zero-extended, but for BE.count (sign-extended) and
BD.bitpos (truncated), and a lifecycle register as UNINIT = 0, ACTIVE = 1, FINAL = 2; it runs while halted too, and
changes nothing but the response. -/
def Obligations.RegReadReturnsRegister : Prop :=
  ∀ (s : State) (c : BitVec 4) (n : BitVec 8) (v : Word), c.toNat < s.cfg.nCtx →
    (n, v) ∈ [
      (0x00#8, if (s.ctx c).be.lc = .uninit then 0 else if (s.ctx c).be.lc = .active then 1 else 2),
      (0x01#8, (s.ctx c).be.low), (0x02#8, (s.ctx c).be.range.setWidth 32),
      (0x03#8, BitVec.ofInt 32 (s.ctx c).be.count.toInt), (0x04#8, (s.ctx c).be.pos), (0x05#8, (s.ctx c).be.base),
      (0x06#8, (s.ctx c).be.cap),
      (0x10#8, if (s.ctx c).bd.lc = .uninit then 0 else if (s.ctx c).bd.lc = .active then 1 else 2),
      (0x11#8, (s.ctx c).bd.value.setWidth 32),
      (0x12#8, (s.ctx c).bd.range.setWidth 32), (0x13#8, BitVec.ofNat 32 (s.ctx c).bd.bitpos),
      (0x14#8, (s.ctx c).bd.base), (0x15#8, (s.ctx c).bd.size),
      (0x20#8, if (s.ctx c).ans.lc = .uninit then 0 else if (s.ctx c).ans.lc = .active then 1 else 2),
      (0x21#8, (s.ctx c).ans.x), (0x22#8, (s.ctx c).ans.off),
      (0x23#8, (s.ctx c).ans.base), (0x24#8, (s.ctx c).ans.cap),
      (0x30#8, if (s.ctx c).sq.lc = .uninit then 0 else if (s.ctx c).sq.lc = .active then 1 else 2),
      (0x31#8, (s.ctx c).sq.len), (0x32#8, (s.ctx c).sq.cap),
      (0xF0#8, s.faultCode.setWidth 32), (0xF1#8, s.faultCmd), (0xF2#8, BitVec.ofNat 32 s.cfg.nCtx),
      (0xF3#8, BitVec.ofNat 32 s.cfg.sqMax), (0xF4#8, if s.cfg.stopGuard then 1 else 0)] →
    exec (.regRead c n) s = .next { s with response := some ⟨.ok, v⟩ }

/-! ### Frames and lifecycles -/

/-- No command writes an engine register or a record that its rule does not list ("Registers written" of R102, R105,
R106, R123, R124, R142 to R145, R161 to R164, R180; R26), whatever its outcome: one clause for each register of the
named context, with the opcodes of the commands that write it. An append writes the record at `SQ.len` only. -/
def Obligations.EnginesKeepToThemselves : Prop :=
  ∀ (i : Instr) (s t : State), exec i s = .next t →
    -- BE: BE_START (0x1), BE_WRITE (0x2), BE_STOP (0x3)
    (i.opcode ∉ [0x1#4, 0x3#4] → (t.ctx i.ctx).be.lc = (s.ctx i.ctx).be.lc) ∧
    (i.opcode ∉ [0x1#4, 0x2#4, 0x3#4] → (t.ctx i.ctx).be = (s.ctx i.ctx).be) ∧
    (i.opcode ∉ [0x1#4] → (t.ctx i.ctx).be.base = (s.ctx i.ctx).be.base ∧ (t.ctx i.ctx).be.cap = (s.ctx i.ctx).be.cap) ∧
    -- BD: BD_INIT (0x4), BD_READ (0x5)
    (i.opcode ∉ [0x4#4] → (t.ctx i.ctx).bd.lc = (s.ctx i.ctx).bd.lc) ∧
    (i.opcode ∉ [0x4#4, 0x5#4] → (t.ctx i.ctx).bd = (s.ctx i.ctx).bd) ∧
    (i.opcode ∉ [0x4#4] → (t.ctx i.ctx).bd.base = (s.ctx i.ctx).bd.base ∧ (t.ctx i.ctx).bd.size = (s.ctx i.ctx).bd.size) ∧
    -- ANS: ANS_INIT (0x6), ANS_UABS (0x7), ANS_RANS (0x8), ANS_END (0x9), SQ_FLUSH (0xD)
    (i.opcode ∉ [0x6#4, 0x9#4] → (t.ctx i.ctx).ans.lc = (s.ctx i.ctx).ans.lc) ∧
    (i.opcode ∉ [0x6#4, 0x7#4, 0x8#4, 0xD#4] → (t.ctx i.ctx).ans.x = (s.ctx i.ctx).ans.x) ∧
    (i.opcode ∉ [0x6#4, 0x7#4, 0x8#4, 0x9#4, 0xD#4] → (t.ctx i.ctx).ans = (s.ctx i.ctx).ans) ∧
    (i.opcode ∉ [0x6#4] → (t.ctx i.ctx).ans.base = (s.ctx i.ctx).ans.base ∧ (t.ctx i.ctx).ans.cap = (s.ctx i.ctx).ans.cap) ∧
    -- SQ: SQ_INIT (0xA), SQ_UABS (0xB), SQ_RANS (0xC), SQ_FLUSH (0xD)
    (i.opcode ∉ [0xA#4, 0xD#4] → (t.ctx i.ctx).sq.lc = (s.ctx i.ctx).sq.lc) ∧
    (i.opcode ∉ [0xA#4, 0xB#4, 0xC#4] → (t.ctx i.ctx).sq.len = (s.ctx i.ctx).sq.len) ∧
    (i.opcode ∉ [0xA#4] → (t.ctx i.ctx).sq.cap = (s.ctx i.ctx).sq.cap) ∧
    (i.opcode ∉ [0xB#4, 0xC#4] → (t.ctx i.ctx).sq.recs = (s.ctx i.ctx).sq.recs) ∧
    (∀ k, k ≠ (s.ctx i.ctx).sq.len.toNat →
      readRecord i.ctx (t.ctx i.ctx).sq.recs k = readRecord i.ctx (s.ctx i.ctx).sq.recs k)

/-- The commands that store nothing (BE_START, BD_INIT, BD_READ, ANS_INIT, SQ_INIT, SQ_UABS, SQ_RANS, REG_READ) leave
every byte of memory as it was (spec R51, R102, R123, R124, R142, R161 to R163, R180). -/
def Obligations.NonStoringCommandsKeepMemory : Prop :=
  ∀ (i : Instr) (s t : State), i.opcode ∈ [0x1#4, 0x4#4, 0x5#4, 0x6#4, 0xA#4, 0xB#4, 0xC#4, 0xE#4] →
    exec i s = .next t → ∀ addr, t.mem.read addr = s.mem.read addr

/-- Spec R52, R54, R141: the ANS commands and SQ_FLUSH store only between the cursor before and the cursor after, so
never rewrite a byte (spec R244); the cursor never goes back in a unit. -/
def Obligations.AnsStoresOnlyAtItsCursor : Prop :=
  ∀ (i : Instr) (s t : State), i.opcode ∈ [0x7#4, 0x8#4, 0x9#4, 0xD#4] → exec i s = .next t →
    (s.ctx i.ctx).ans.off.toNat ≤ (t.ctx i.ctx).ans.off.toNat ∧
    ∀ addr, ¬ ((s.ctx i.ctx).ans.base.toNat + (s.ctx i.ctx).ans.off.toNat ≤ addr ∧
        addr < (s.ctx i.ctx).ans.base.toNat + (t.ctx i.ctx).ans.off.toNat) →
      t.mem.read addr = s.mem.read addr

/-- Spec R232: the lifecycle of each engine after a command that did not fault. -/
def Obligations.LifecycleMoves : Prop :=
  ∀ (i : Instr) (s t : State) (v : Word), exec i s = .next t → t.response = some ⟨.ok, v⟩ →
    (t.ctx i.ctx).be.lc = (if i.opcode ∈ [0x1#4, 0x2#4] then .active else if i.opcode = 0x3 then .final
      else (s.ctx i.ctx).be.lc) ∧
    (t.ctx i.ctx).bd.lc = (if i.opcode ∈ [0x4#4, 0x5#4] then .active else (s.ctx i.ctx).bd.lc) ∧
    (t.ctx i.ctx).ans.lc = (if i.opcode ∈ [0x6#4, 0x7#4, 0x8#4, 0xD#4] then .active else if i.opcode = 0x9 then .final
      else (s.ctx i.ctx).ans.lc) ∧
    (t.ctx i.ctx).sq.lc = (if i.opcode ∈ [0xA#4, 0xB#4, 0xC#4] then .active else if i.opcode = 0xD then .final
      else (s.ctx i.ctx).sq.lc) ∧
    (i.opcode ∈ [0x2#4, 0x3#4] → (s.ctx i.ctx).be.lc = .active) ∧
    (i.opcode = 0x5 → (s.ctx i.ctx).bd.lc = .active) ∧
    (i.opcode ∈ [0x7#4, 0x8#4, 0x9#4, 0xD#4] → (s.ctx i.ctx).ans.lc = .active) ∧
    (i.opcode ∈ [0xB#4, 0xC#4, 0xD#4] → (s.ctx i.ctx).sq.lc = .active)

/-! ### Memory and reset -/

/-- Spec R56: a read returns the last byte written to that address, and a write leaves every other byte alone; a write
keeps the canonical form, so that equal memories are equal data. -/
def Obligations.MemoryIsPlainStorage : Prop :=
  ∀ (m : Memory) (a : Nat) (v : Byte),
    (m.write a v).read a = v ∧ (∀ b, b ≠ a → (m.write a v).read b = m.read b) ∧
    (Memory.wf m → Memory.wf (m.write a v)) ∧
    (Memory.wf m → v = m.read a → m.write a v = m)

/-- Two memories in the canonical form that read alike everywhere are equal. -/
def Obligations.MemoryIsDeterminedByReads : Prop :=
  ∀ m m' : Memory, Memory.wf m → Memory.wf m' → (∀ a, m.read a = m'.read a) → m = m'

/-- Spec R37, R230: what power-up reset leaves, for every parameters: every lifecycle UNINIT, every numeric engine
register 0, no fault, not halted, and the CFG registers at their parameters. -/
def Obligations.ResetState : Prop :=
  ∀ (cfg : Config) (c : BitVec 4),
    ((State.resetWith cfg).ctx c).be = ⟨.uninit, 0, 0, 0, 0, 0, 0⟩ ∧
    ((State.resetWith cfg).ctx c).bd = ⟨.uninit, 0, 0, 0, 0, 0⟩ ∧
    ((State.resetWith cfg).ctx c).ans = ⟨.uninit, 0, 0, 0, 0⟩ ∧
    ((State.resetWith cfg).ctx c).sq.lc = .uninit ∧ ((State.resetWith cfg).ctx c).sq.len = 0 ∧
    ((State.resetWith cfg).ctx c).sq.cap = 0 ∧
    (State.resetWith cfg).faultCode = 0 ∧ (State.resetWith cfg).faultCmd = 0 ∧
    (State.resetWith cfg).halted = false ∧ (State.resetWith cfg).cfg = cfg

/-- Spec R204, R230: a reset asserted in any state, halted or not, gives every engine register and both fault registers
their reset values and keeps the memory, the record stores and the parameters. -/
def Obligations.ResetRestoresRegistersKeepsMemory : Prop :=
  ∀ (s : State) (c : BitVec 4),
    ((resetBlock s).ctx c).be = ⟨.uninit, 0, 0, 0, 0, 0, 0⟩ ∧
    ((resetBlock s).ctx c).bd = ⟨.uninit, 0, 0, 0, 0, 0⟩ ∧
    ((resetBlock s).ctx c).ans = ⟨.uninit, 0, 0, 0, 0⟩ ∧
    ((resetBlock s).ctx c).sq = { lc := .uninit, len := 0, cap := 0, recs := (s.ctx c).sq.recs } ∧
    (resetBlock s).faultCode = 0 ∧ (resetBlock s).faultCmd = 0 ∧ (resetBlock s).halted = false ∧
    (resetBlock s).mem = s.mem ∧ (resetBlock s).cfg = s.cfg

/-! ### Invariants -/

/-- The invariant holds right after reset, for every legal parameters. -/
def Obligations.InvariantAtReset : Prop :=
  ∀ cfg : Config, cfg.Legal → (State.resetWith cfg).Inv

/-- Every step keeps the invariant: spec R31 (the legal values of the ACTIVE engines), R32 (every record below SQ.len
was written), R160 (and is valid), R51 (every region lies in the memory), R200 (no reserved code is recorded), and the
canonical form of the memory. -/
def Obligations.StepKeepsInvariant : Prop :=
  ∀ s t : State, s.Inv → step s = .next t → t.Inv

/-- "Every step ends" (spec R183), and no command leaves the memory (spec R52): in a state with the invariant the
machine never stops, whatever word or host turn comes next. -/
def Obligations.GoodStatesNeverStop : Prop :=
  ∀ s : State, s.Inv → ∃ t, step s = .next t
end

