-- ==== Sys2Proof/Laws/Memory.lean ====
section
/-! SUPPORT. The laws of the sparse stores and of the shared memory: read after write, and every operation keeps the
canonical form (spec R50, R56). -/

namespace Sys2Proof.Machine

section Store
variable {β : Type}

theorem lookupAt_insertAt_self (a : Nat) (v : β) (m : List (Nat × β)) : lookupAt (insertAt a v m) a = some v := by
  induction m with
  | nil => simp [insertAt, lookupAt]
  | cons e rest ih =>
    obtain ⟨k, w⟩ := e
    unfold insertAt
    split
    · simp [lookupAt]
    · split
      · simp [lookupAt]
      · rename_i hka
        simp [lookupAt, hka, ih]

theorem lookupAt_insertAt_ne {a b : Nat} (v : β) (m : List (Nat × β)) (h : b ≠ a) :
    lookupAt (insertAt a v m) b = lookupAt m b := by
  have h' : ¬ a = b := fun e => h e.symm
  induction m with
  | nil => simp [insertAt, lookupAt, h']
  | cons e rest ih =>
    obtain ⟨k, w⟩ := e
    unfold insertAt
    split
    · simp [lookupAt, h']
    · split
      · rename_i hka
        subst hka
        simp [lookupAt, h']
      · by_cases hkb : k = b <;> simp [lookupAt, hkb, ih]

theorem lookupAt_eraseAt_self (a : Nat) (m : List (Nat × β)) : lookupAt (eraseAt a m) a = none := by
  induction m with
  | nil => simp [eraseAt, lookupAt]
  | cons e rest ih =>
    obtain ⟨k, w⟩ := e
    by_cases hka : k = a <;> simp [eraseAt, lookupAt, hka, ih]

theorem lookupAt_eraseAt_ne {a b : Nat} (m : List (Nat × β)) (h : b ≠ a) :
    lookupAt (eraseAt a m) b = lookupAt m b := by
  have h' : ¬ a = b := fun e => h e.symm
  induction m with
  | nil => simp [eraseAt]
  | cons e rest ih =>
    obtain ⟨k, w⟩ := e
    by_cases hka : k = a
    · subst hka
      simp [eraseAt, lookupAt, h', ih]
    · simp only [eraseAt, if_neg hka, lookupAt, ih]

theorem mem_of_lookupAt {m : List (Nat × β)} {a : Nat} {v : β} (h : lookupAt m a = some v) : (a, v) ∈ m := by
  induction m with
  | nil => simp [lookupAt] at h
  | cons e rest ih =>
    obtain ⟨k, w⟩ := e
    by_cases hka : k = a
    · subst hka
      simp [lookupAt] at h
      simp [h]
    · simp [lookupAt, hka] at h
      exact List.mem_cons_of_mem _ (ih h)

theorem mem_insertAt {a : Nat} {v : β} {m : List (Nat × β)} {e : Nat × β} (h : e ∈ insertAt a v m) :
    e = (a, v) ∨ e ∈ m := by
  induction m with
  | nil => simpa [insertAt] using h
  | cons f rest ih =>
    obtain ⟨k, w⟩ := f
    unfold insertAt at h
    split at h
    · simpa using h
    · split at h
      · rcases List.mem_cons.mp h with h | h
        · exact .inl h
        · exact .inr (List.mem_cons_of_mem _ h)
      · rcases List.mem_cons.mp h with h | h
        · exact .inr (h ▸ List.mem_cons_self ..)
        · exact (ih h).imp id (List.mem_cons_of_mem _)

theorem mem_eraseAt {a : Nat} {m : List (Nat × β)} {e : Nat × β} (h : e ∈ eraseAt a m) : e ∈ m := by
  induction m with
  | nil => simp [eraseAt] at h
  | cons f rest ih =>
    obtain ⟨k, w⟩ := f
    unfold eraseAt at h
    split at h
    · exact List.mem_cons_of_mem _ (ih h)
    · rcases List.mem_cons.mp h with h | h
      · exact h ▸ List.mem_cons_self ..
      · exact List.mem_cons_of_mem _ (ih h)

theorem keysRise_cons {k : Nat} {w : β} {m : List (Nat × β)} :
    keysRise ((k, w) :: m) ↔ (∀ e ∈ m, k < e.1) ∧ keysRise m := by
  simp only [keysRise, List.map_cons, List.pairwise_cons, List.mem_map]
  constructor
  · rintro ⟨h, h'⟩
    exact ⟨fun e he => h _ ⟨e, he, rfl⟩, h'⟩
  · rintro ⟨h, h'⟩
    exact ⟨by rintro _ ⟨e, he, rfl⟩; exact h e he, h'⟩

theorem keysRise_insertAt (a : Nat) (v : β) {m : List (Nat × β)} (h : keysRise m) : keysRise (insertAt a v m) := by
  induction m with
  | nil => simp [insertAt, keysRise]
  | cons f rest ih =>
    obtain ⟨k, w⟩ := f
    obtain ⟨hk, hr⟩ := keysRise_cons.mp h
    unfold insertAt
    split
    · rename_i hak
      refine keysRise_cons.mpr ⟨?_, h⟩
      intro e he
      rcases List.mem_cons.mp he with he | he
      · exact he ▸ hak
      · exact Nat.lt_trans hak (hk e he)
    · split
      · rename_i hka
        subst hka
        exact keysRise_cons.mpr ⟨hk, hr⟩
      · refine keysRise_cons.mpr ⟨?_, ih hr⟩
        intro e he
        rcases mem_insertAt he with he | he
        · subst he
          show k < a
          omega
        · exact hk e he

theorem keysRise_eraseAt (a : Nat) {m : List (Nat × β)} (h : keysRise m) : keysRise (eraseAt a m) := by
  induction m with
  | nil => simp [eraseAt, keysRise]
  | cons f rest ih =>
    obtain ⟨k, w⟩ := f
    obtain ⟨hk, hr⟩ := keysRise_cons.mp h
    unfold eraseAt
    split
    · exact ih hr
    · exact keysRise_cons.mpr ⟨fun e he => hk e (mem_eraseAt he), ih hr⟩

end Store

/-! ### The shared memory -/

/-- "Returns the last byte written to that address" (spec R56). -/
@[simp] theorem Memory.read_write_self (m : Memory) (a : Nat) (v : Byte) : (m.write a v).read a = v := by
  unfold Memory.write Memory.read
  split
  · rename_i h
    simp [lookupAt_eraseAt_self, h]
  · simp [lookupAt_insertAt_self]

theorem Memory.read_write_ne (m : Memory) {a b : Nat} (v : Byte) (h : b ≠ a) : (m.write a v).read b = m.read b := by
  unfold Memory.write Memory.read
  split
  · rw [lookupAt_eraseAt_ne m h]
  · rw [lookupAt_insertAt_ne v m h]

/-- Every write keeps the canonical form. -/
theorem Memory.wf_write {m : Memory} (a : Nat) (v : Byte) (h : Memory.wf m) : Memory.wf (m.write a v) := by
  unfold Memory.write
  split
  · exact ⟨keysRise_eraseAt a h.1, fun c hc => h.2 c (mem_eraseAt hc)⟩
  · rename_i hv
    refine ⟨keysRise_insertAt a v h.1, fun c hc => ?_⟩
    rcases mem_insertAt hc with hc | hc
    · exact hc ▸ hv
    · exact h.2 c hc

/-- A write lists no address but its own and those listed before. -/
theorem Memory.inside_write {m : Memory} {a n : Nat} (v : Byte) (ha : a < n) (h : ∀ e ∈ m, e.1 < n) :
    ∀ e ∈ m.write a v, e.1 < n := by
  unfold Memory.write
  split
  · exact fun e he => h e (mem_eraseAt he)
  · intro e he
    rcases mem_insertAt he with he | he
    · exact he ▸ ha
    · exact h e he

theorem Memory.wf_nil : Memory.wf [] := by decide

/-- What `memRead` can answer. -/
theorem memRead_eq_ok {cfg : Config} {m : Memory} {a : Nat} (h : a < memSize cfg) :
    memRead cfg m a = .ok (m.read a) := if_pos h

/-- What `memWrite` can answer. -/
theorem memWrite_eq_ok {cfg : Config} {m : Memory} {a : Nat} {v : Byte} (h : a < memSize cfg) :
    memWrite cfg m a v = .ok (m.write a v) := if_pos h

theorem memRead_cases {cfg : Config} {m : Memory} {a : Nat} {b : Byte} (h : memRead cfg m a = .ok b) :
    a < memSize cfg ∧ b = m.read a := by
  unfold memRead at h
  split at h
  · cases h
    exact ⟨‹_›, rfl⟩
  · cases h

theorem memWrite_cases {cfg : Config} {m m' : Memory} {a : Nat} {v : Byte} (h : memWrite cfg m a v = .ok m') :
    a < memSize cfg ∧ m' = m.write a v := by
  unfold memWrite at h
  split at h
  · cases h
    exact ⟨‹_›, rfl⟩
  · cases h

end Sys2Proof.Machine
end

