-- ==== Sys2Proof/Laws/State.lean ====
section
/-! SUPPORT. One lemma per field per update of the state, so that no later proof unfolds a record update. -/

namespace Sys2Proof.Machine

/-! ### `setCtx` -/

@[simp] theorem State.setCtx_cfg (s : State) (c : BitVec 4) (k : Context) : (s.setCtx c k).cfg = s.cfg := rfl
@[simp] theorem State.setCtx_mem (s : State) (c : BitVec 4) (k : Context) : (s.setCtx c k).mem = s.mem := rfl
@[simp] theorem State.setCtx_faultCode (s : State) (c : BitVec 4) (k : Context) : (s.setCtx c k).faultCode = s.faultCode := rfl
@[simp] theorem State.setCtx_faultCmd (s : State) (c : BitVec 4) (k : Context) : (s.setCtx c k).faultCmd = s.faultCmd := rfl
@[simp] theorem State.setCtx_stream (s : State) (c : BitVec 4) (k : Context) : (s.setCtx c k).stream = s.stream := rfl
@[simp] theorem State.setCtx_response (s : State) (c : BitVec 4) (k : Context) : (s.setCtx c k).response = s.response := rfl
@[simp] theorem State.setCtx_inbox (s : State) (c : BitVec 4) (k : Context) : (s.setCtx c k).inbox = s.inbox := rfl
@[simp] theorem State.setCtx_halted (s : State) (c : BitVec 4) (k : Context) : (s.setCtx c k).halted = s.halted := rfl

/-! ### `setMem` -/

@[simp] theorem State.setMem_cfg (s : State) (m : Memory) : (s.setMem m).cfg = s.cfg := rfl
@[simp] theorem State.setMem_ctxs (s : State) (m : Memory) : (s.setMem m).ctxs = s.ctxs := rfl
@[simp] theorem State.setMem_mem (s : State) (m : Memory) : (s.setMem m).mem = m := rfl
@[simp] theorem State.setMem_faultCode (s : State) (m : Memory) : (s.setMem m).faultCode = s.faultCode := rfl
@[simp] theorem State.setMem_faultCmd (s : State) (m : Memory) : (s.setMem m).faultCmd = s.faultCmd := rfl
@[simp] theorem State.setMem_stream (s : State) (m : Memory) : (s.setMem m).stream = s.stream := rfl
@[simp] theorem State.setMem_response (s : State) (m : Memory) : (s.setMem m).response = s.response := rfl
@[simp] theorem State.setMem_inbox (s : State) (m : Memory) : (s.setMem m).inbox = s.inbox := rfl
@[simp] theorem State.setMem_ctx (s : State) (m : Memory) (d : BitVec 4) : (s.setMem m).ctx d = s.ctx d := rfl
@[simp] theorem State.setMem_halted (s : State) (m : Memory) : (s.setMem m).halted = s.halted := rfl

/-! ### `respond` -/

@[simp] theorem State.respond_cfg (s : State) (st : Status) (v : Word) : (s.respond st v).cfg = s.cfg := rfl
@[simp] theorem State.respond_ctxs (s : State) (st : Status) (v : Word) : (s.respond st v).ctxs = s.ctxs := rfl
@[simp] theorem State.respond_mem (s : State) (st : Status) (v : Word) : (s.respond st v).mem = s.mem := rfl
@[simp] theorem State.respond_faultCode (s : State) (st : Status) (v : Word) : (s.respond st v).faultCode = s.faultCode := rfl
@[simp] theorem State.respond_faultCmd (s : State) (st : Status) (v : Word) : (s.respond st v).faultCmd = s.faultCmd := rfl
@[simp] theorem State.respond_stream (s : State) (st : Status) (v : Word) : (s.respond st v).stream = s.stream := rfl
@[simp] theorem State.respond_response (s : State) (st : Status) (v : Word) : (s.respond st v).response = some ⟨st, v⟩ := rfl
@[simp] theorem State.respond_inbox (s : State) (st : Status) (v : Word) : (s.respond st v).inbox = s.inbox := rfl
@[simp] theorem State.respond_ctx (s : State) (st : Status) (v : Word) (d : BitVec 4) : (s.respond st v).ctx d = s.ctx d := rfl
@[simp] theorem State.respond_halted (s : State) (st : Status) (v : Word) : (s.respond st v).halted = s.halted := rfl

/-! ### `setFault` -/

@[simp] theorem State.setFault_cfg (s : State) (code : FaultCode) (w : Word) : (s.setFault code w).cfg = s.cfg := rfl
@[simp] theorem State.setFault_ctxs (s : State) (code : FaultCode) (w : Word) : (s.setFault code w).ctxs = s.ctxs := rfl
@[simp] theorem State.setFault_mem (s : State) (code : FaultCode) (w : Word) : (s.setFault code w).mem = s.mem := rfl
@[simp] theorem State.setFault_faultCode (s : State) (code : FaultCode) (w : Word) : (s.setFault code w).faultCode = code.code := rfl
@[simp] theorem State.setFault_faultCmd (s : State) (code : FaultCode) (w : Word) : (s.setFault code w).faultCmd = w := rfl
@[simp] theorem State.setFault_stream (s : State) (code : FaultCode) (w : Word) : (s.setFault code w).stream = s.stream := rfl
@[simp] theorem State.setFault_response (s : State) (code : FaultCode) (w : Word) : (s.setFault code w).response = s.response := rfl
@[simp] theorem State.setFault_inbox (s : State) (code : FaultCode) (w : Word) : (s.setFault code w).inbox = s.inbox := rfl
@[simp] theorem State.setFault_ctx (s : State) (code : FaultCode) (w : Word) (d : BitVec 4) : (s.setFault code w).ctx d = s.ctx d := rfl

/-! ### `consume` -/

@[simp] theorem State.consume_cfg (s : State) (w : Word) (ext : List Word) : (s.consume w ext).cfg = s.cfg := rfl
@[simp] theorem State.consume_ctxs (s : State) (w : Word) (ext : List Word) : (s.consume w ext).ctxs = s.ctxs := rfl
@[simp] theorem State.consume_mem (s : State) (w : Word) (ext : List Word) : (s.consume w ext).mem = s.mem := rfl
@[simp] theorem State.consume_faultCode (s : State) (w : Word) (ext : List Word) : (s.consume w ext).faultCode = s.faultCode := rfl
@[simp] theorem State.consume_faultCmd (s : State) (w : Word) (ext : List Word) : (s.consume w ext).faultCmd = s.faultCmd := rfl
@[simp] theorem State.consume_stream (s : State) (w : Word) (ext : List Word) : (s.consume w ext).stream = streamAfter w ext := rfl
@[simp] theorem State.consume_response (s : State) (w : Word) (ext : List Word) : (s.consume w ext).response = s.response := rfl
@[simp] theorem State.consume_inbox (s : State) (w : Word) (ext : List Word) : (s.consume w ext).inbox = s.inbox := rfl
@[simp] theorem State.consume_ctx (s : State) (w : Word) (ext : List Word) (d : BitVec 4) : (s.consume w ext).ctx d = s.ctx d := rfl
@[simp] theorem State.consume_halted (s : State) (w : Word) (ext : List Word) : (s.consume w ext).halted = s.halted := rfl

/-! ### Reading a context back -/

@[simp] theorem State.ctx_setCtx_self (s : State) (c : BitVec 4) (k : Context) : (s.setCtx c k).ctx c = k := by
  simp [State.setCtx, State.ctx]

theorem State.ctx_setCtx_ne (s : State) {c d : BitVec 4} (k : Context) (h : d ≠ c) :
    (s.setCtx c k).ctx d = s.ctx d := by
  have : c.toNat ≠ d.toNat := fun e => h (BitVec.eq_of_toNat_eq e.symm)
  simp [State.setCtx, State.ctx, Vector.getElem_set_ne, this]

/-- Writing back the context that is there changes nothing. -/
@[simp] theorem State.setCtx_ctx (s : State) (c : BitVec 4) : s.setCtx c (s.ctx c) = s := by
  simp [State.setCtx, State.ctx]

@[simp] theorem State.setMem_self (s : State) : s.setMem s.mem = s := rfl

@[simp] theorem State.setCtx_setCtx (s : State) (c : BitVec 4) (k l : Context) :
    (s.setCtx c k).setCtx c l = s.setCtx c l := by
  simp [State.setCtx]

/-! ### Halting and reset -/

theorem FaultCode.code_ne_zero (f : FaultCode) : f.code ≠ 0 := by cases f <;> decide

theorem FaultCode.code_le (f : FaultCode) : f.code.toNat ≤ 0x0E := by cases f <;> decide

@[simp] theorem State.setFault_halted (s : State) (code : FaultCode) (w : Word) :
    (s.setFault code w).halted = true := by
  simpa [State.halted] using code.code_ne_zero

theorem State.halted_eq_false_iff (s : State) : s.halted = false ↔ s.faultCode = 0 := by
  simp [State.halted]

theorem State.halted_eq_true_iff (s : State) : s.halted = true ↔ s.faultCode ≠ 0 := by
  simp [State.halted]

@[simp] theorem State.resetWith_ctx (cfg : Config) (c : BitVec 4) :
    (State.resetWith cfg).ctx c = Context.reset := by
  simp [State.resetWith, State.ctx]

@[simp] theorem resetBlock_ctx (s : State) (c : BitVec 4) : (resetBlock s).ctx c = (s.ctx c).afterReset := by
  simp [resetBlock, State.ctx]

end Sys2Proof.Machine
end

