-- ==== Sys2Proof/Laws/Ops.lean ====
section
/-! SUPPORT. What the shared operations can answer: a check, taking a fault, and running a command (spec R182, R201,
R203). -/

namespace Sys2Proof.Machine

/-! ### Sequencing -/

/-- A sequence that finishes ran both of its parts. -/
theorem bind_ok {ε α β : Type} {x : Except ε α} {f : α → Except ε β} {b : β} (h : (x >>= f) = .ok b) :
    ∃ a, x = .ok a ∧ f a = .ok b := by
  cases x with
  | error e => cases h
  | ok a => exact ⟨a, rfl, h⟩

/-- A sequence that aborts did so in its first part, or ran it and aborted in its second. -/
theorem bind_error {ε α β : Type} {x : Except ε α} {f : α → Except ε β} {e : ε} (h : (x >>= f) = .error e) :
    x = .error e ∨ ∃ a, x = .ok a ∧ f a = .error e := by
  cases x with
  | error e' => cases h; exact .inl rfl
  | ok a => exact .inr ⟨a, rfl, h⟩

@[simp] theorem ok_bind {ε α β : Type} (a : α) (f : α → Except ε β) : ((Except.ok a : Except ε α) >>= f) = f a := rfl

@[simp] theorem error_bind {ε α β : Type} (e : ε) (f : α → Except ε β) :
    ((Except.error e : Except ε α) >>= f) = .error e := rfl

/-! ### Checks -/

theorem require_true {p : Prop} [Decidable p] {f : FaultCode} (h : p) : require p f = .ok () := if_pos h

theorem require_false {p : Prop} [Decidable p] {f : FaultCode} (h : ¬ p) : require p f = .error (.raise f) := if_neg h

theorem require_ok {p : Prop} [Decidable p] {f : FaultCode} {u : Unit} (h : require p f = .ok u) : p := by
  unfold require at h
  split at h
  · assumption
  · cases h

/-- A check stops nothing: it passes or raises its own code. -/
theorem require_error {p : Prop} [Decidable p] {f : FaultCode} {e : Abort} (h : require p f = .error e) :
    e = .raise f ∧ ¬ p := by
  unfold require at h
  split at h
  · cases h
  · cases h
    exact ⟨rfl, ‹_›⟩

/-! ### Taking a fault -/

theorem takeFault_first {s : State} (f : FaultCode) (w : Word) (h : s.halted = false) :
    takeFault f w s = (s.setFault f w).respond .faulted (f.code.setWidth 32) := by
  simp [takeFault, h]

theorem takeFault_halted {s : State} (f : FaultCode) (w : Word) (h : s.halted = true) :
    takeFault f w s = s.respond .faulted (f.code.setWidth 32) := by
  simp [takeFault, h]

section
variable (f : FaultCode) (w : Word) (s : State)

@[simp] theorem takeFault_cfg : (takeFault f w s).cfg = s.cfg := by unfold takeFault; split <;> rfl
@[simp] theorem takeFault_ctxs : (takeFault f w s).ctxs = s.ctxs := by unfold takeFault; split <;> rfl
@[simp] theorem takeFault_mem : (takeFault f w s).mem = s.mem := by unfold takeFault; split <;> rfl
@[simp] theorem takeFault_stream : (takeFault f w s).stream = s.stream := by unfold takeFault; split <;> rfl
@[simp] theorem takeFault_inbox : (takeFault f w s).inbox = s.inbox := by unfold takeFault; split <;> rfl
@[simp] theorem takeFault_ctx (c : BitVec 4) : (takeFault f w s).ctx c = s.ctx c := by
  unfold takeFault; split <;> rfl
@[simp] theorem takeFault_response :
    (takeFault f w s).response = some ⟨.faulted, f.code.setWidth 32⟩ := rfl
@[simp] theorem takeFault_isHalted : (takeFault f w s).halted = true := by
  unfold takeFault
  split
  · simp [*]
  · simp

end

/-! ### Running a command -/

/-- Everything a command that always runs can do: finish with its working copy, take a fault, or stop the model. -/
theorem runAlways_cases (i : Instr) (s : State) (body : Context → Memory → Except Abort Done) :
    (s.cfg.nCtx ≤ i.ctx.toNat ∧ runAlways i s body = .next (takeFault .badContext i.word s)) ∨
    (i.ctx.toNat < s.cfg.nCtx ∧ ∃ d, body (s.ctx i.ctx) s.mem = .ok d ∧
      runAlways i s body = .next (((s.setCtx i.ctx d.ctx).setMem d.mem).respond .ok d.value)) ∨
    (i.ctx.toNat < s.cfg.nCtx ∧ ∃ f, body (s.ctx i.ctx) s.mem = .error (.raise f) ∧
      runAlways i s body = .next (takeFault f i.word s)) ∨
    (i.ctx.toNat < s.cfg.nCtx ∧ ∃ f, body (s.ctx i.ctx) s.mem = .error (.stop f) ∧
      runAlways i s body = .fault f) := by
  unfold runAlways checkContext require
  by_cases h : i.ctx.toNat < s.cfg.nCtx
  · rw [if_pos h, ok_bind]
    rcases hb : body (s.ctx i.ctx) s.mem with e | d
    · cases e with
      | raise f => exact .inr (.inr (.inl ⟨h, f, rfl, rfl⟩))
      | stop f => exact .inr (.inr (.inr ⟨h, f, rfl, rfl⟩))
    · exact .inr (.inl ⟨h, d, rfl, rfl⟩)
  · rw [if_neg h]
    exact .inl ⟨by omega, rfl⟩

theorem runAlways_ok {i : Instr} {s : State} {body : Context → Memory → Except Abort Done} {d : Done}
    (hc : i.ctx.toNat < s.cfg.nCtx) (h : body (s.ctx i.ctx) s.mem = .ok d) :
    runAlways i s body = .next (((s.setCtx i.ctx d.ctx).setMem d.mem).respond .ok d.value) := by
  simp [runAlways, checkContext, require_true hc, h, commit]

theorem runAlways_raise {i : Instr} {s : State} {body : Context → Memory → Except Abort Done} {f : FaultCode}
    (hc : i.ctx.toNat < s.cfg.nCtx) (h : body (s.ctx i.ctx) s.mem = .error (.raise f)) :
    runAlways i s body = .next (takeFault f i.word s) := by
  simp [runAlways, checkContext, require_true hc, h, commit]

theorem runAlways_badContext {i : Instr} {s : State} (body : Context → Memory → Except Abort Done)
    (hc : s.cfg.nCtx ≤ i.ctx.toNat) : runAlways i s body = .next (takeFault .badContext i.word s) := by
  simp [runAlways, checkContext, require_false (Nat.not_lt.mpr hc), commit]

theorem runCommand_halted {i : Instr} {s : State} (body : Context → Memory → Except Abort Done)
    (h : s.halted = true) : runCommand i s body = .next (refuseHalted s) := by
  simp [runCommand, h]

theorem runCommand_running {i : Instr} {s : State} (body : Context → Memory → Except Abort Done)
    (h : s.halted = false) : runCommand i s body = runAlways i s body := by
  simp [runCommand, h]

/-- A ready command whose pseudocode finishes ends with its working copy. -/
theorem runCommand_ok {i : Instr} {s : State} {body : Context → Memory → Except Abort Done} {d : Done}
    (hs : s.ready i.ctx) (h : body (s.ctx i.ctx) s.mem = .ok d) :
    runCommand i s body = .next (((s.setCtx i.ctx d.ctx).setMem d.mem).respond .ok d.value) := by
  rw [runCommand_running body hs.1, runAlways_ok hs.2 h]

/-- A ready command whose pseudocode raises a fault takes it. -/
theorem runCommand_raise {i : Instr} {s : State} {body : Context → Memory → Except Abort Done} {f : FaultCode}
    (hs : s.ready i.ctx) (h : body (s.ctx i.ctx) s.mem = .error (.raise f)) :
    runCommand i s body = .next (takeFault f i.word s) := by
  rw [runCommand_running body hs.1, runAlways_raise hs.2 h]

end Sys2Proof.Machine
end

