-- ==== Sys2Proof/Laws/Ans.lean ====
section
/-! SUPPORT. What the ANS engine's shared steps can do (spec R141 to R145): what a run of them leaves alone, when a byte
is put, and that the state stays in its interval. -/

namespace Sys2Proof.Machine

/-! ### What every ANS step leaves alone -/

/-- The cursor only grows, and only bytes between the cursor before and after are stored (spec R52, R141). -/
structure AnsGrows (cfg : Config) (ans : AnsRegs) (m : Memory) (ans' : AnsRegs) (m' : Memory) : Prop where
  lc     : ans'.lc = ans.lc
  base   : ans'.base = ans.base
  cap    : ans'.cap = ans.cap
  cursor : ans.off.toNat ≤ ans'.off.toNat
  room   : ans.off.toNat ≤ ans.cap.toNat → ans'.off.toNat ≤ ans'.cap.toNat
  frame  : ∀ a, ¬ (ans.base.toNat + ans.off.toNat ≤ a ∧ a < ans.base.toNat + ans'.off.toNat) → m'.read a = m.read a
  wf     : Memory.wf m → Memory.wf m'
  inside : (∀ e ∈ m, e.1 < memSize cfg) → ∀ e ∈ m', e.1 < memSize cfg

theorem AnsGrows.refl (cfg : Config) (ans : AnsRegs) (m : Memory) : AnsGrows cfg ans m ans m :=
  ⟨rfl, rfl, rfl, Nat.le_refl _, id, fun _ _ => rfl, id, id⟩

theorem AnsGrows.trans {cfg : Config} {a b c : AnsRegs} {m n o : Memory} (h : AnsGrows cfg a m b n)
    (h' : AnsGrows cfg b n c o) : AnsGrows cfg a m c o := by
  have hb := congrArg BitVec.toNat h.base
  have hc := h.cursor
  have hc' := h'.cursor
  refine ⟨h'.lc.trans h.lc, h'.base.trans h.base, h'.cap.trans h.cap, by omega, fun hr => h'.room (h.room hr),
    fun x hx => ?_, fun w => h'.wf (h.wf w), fun w => h'.inside (h.inside w)⟩
  rw [h'.frame x (by omega), h.frame x (by omega)]

/-- A state put in the register afterwards changes nothing of this. -/
theorem AnsGrows.setX {cfg : Config} {a b : AnsRegs} {m n : Memory} (h : AnsGrows cfg a m b n) (x : Word) :
    AnsGrows cfg a m { b with x := x } n :=
  ⟨h.lc, h.base, h.cap, h.cursor, h.room, h.frame, h.wf, h.inside⟩

/-! ### One byte -/

/-- The cursor after a byte does not wrap: it was below the capacity. -/
theorem ansOff_succ {ans : AnsRegs} (h : ans.off.toNat < ans.cap.toNat) : (ans.off + 1).toNat = ans.off.toNat + 1 := by
  have := ans.cap.isLt
  rw [BitVec.toNat_add]
  simp
  omega

/-- With room in the region, inside the memory, a byte is put. -/
theorem ansPut_eq {cfg : Config} {v : Byte} {ans : AnsRegs} (m : Memory) (h : ans.off.toNat < ans.cap.toNat)
    (hin : ans.base.toNat + ans.off.toNat < memSize cfg) :
    ansPut cfg v ans m = .ok ({ ans with off := ans.off + 1 }, m.write (ans.base.toNat + ans.off.toNat) v) := by
  rw [ansPut, require_true h, ok_bind, memWrite_eq_ok hin, ok_bind]

theorem ansPut_ok {cfg : Config} {v : Byte} {ans ans' : AnsRegs} {m m' : Memory}
    (h : ansPut cfg v ans m = .ok (ans', m')) :
    ans.off.toNat < ans.cap.toNat ∧ ans.base.toNat + ans.off.toNat < memSize cfg ∧
      ans' = { ans with off := ans.off + 1 } ∧ m' = m.write (ans.base.toNat + ans.off.toNat) v := by
  obtain ⟨_, hr, h⟩ := bind_ok h
  obtain ⟨m1, hm, h⟩ := bind_ok h
  obtain ⟨hin, rfl⟩ := memWrite_cases hm
  cases h
  exact ⟨require_ok hr, hin, rfl, rfl⟩

theorem ansPut_grows {cfg : Config} {v : Byte} {ans ans' : AnsRegs} {m m' : Memory}
    (h : ansPut cfg v ans m = .ok (ans', m')) : AnsGrows cfg ans m ans' m' := by
  obtain ⟨hroom, hin, rfl, rfl⟩ := ansPut_ok h
  have hoff := ansOff_succ hroom
  refine ⟨rfl, rfl, rfl, by simp only [hoff]; omega, fun _ => by simp only [hoff]; omega, fun a ha => ?_,
    Memory.wf_write _ _, Memory.inside_write _ hin⟩
  simp only [hoff] at ha
  exact Memory.read_write_ne m v (by omega)

/-- A byte aborts when there is no room, or (with a region outside the memory only) stops. -/
theorem ansPut_error {cfg : Config} {v : Byte} {ans : AnsRegs} {m : Memory} {e : Abort}
    (h : ansPut cfg v ans m = .error e) :
    (e = .raise .outputOverrun ∧ ans.cap.toNat ≤ ans.off.toNat) ∨
    (e = .stop .addressOutsideMemory ∧ ans.off.toNat < ans.cap.toNat ∧
      memSize cfg ≤ ans.base.toNat + ans.off.toNat) := by
  rcases bind_error h with hr | ⟨_, hr, h⟩
  · obtain ⟨rfl, hn⟩ := require_error hr
    exact .inl ⟨rfl, by omega⟩
  · rcases bind_error h with hm | ⟨_, -, h⟩
    · unfold memWrite at hm
      split at hm
      · cases hm
      · cases hm
        exact .inr ⟨rfl, require_ok hr, by omega⟩
    · cases h

/-! ### Renormalization -/

/-- A loop that finishes ends below the interval's upper part, and only grows the output. -/
theorem ansRenormLoop_ok {cfg : Config} {ls n : Nat} {ans ans' : AnsRegs} {m m' : Memory}
    (h : ansRenormLoop cfg ls n ans m = .ok (ans', m')) :
    ans'.x.toNat < 1024 * ls ∧ AnsGrows cfg ans m ans' m' := by
  induction n generalizing ans m with
  | zero =>
    unfold ansRenormLoop at h
    split at h
    · cases h
    · cases h
      exact ⟨by simp at *; omega, .refl ..⟩
  | succ n ih =>
    unfold ansRenormLoop at h
    split at h
    · obtain ⟨⟨a1, m1⟩, hp, h⟩ := bind_ok h
      obtain ⟨hx, hg⟩ := ih h
      exact ⟨hx, ((ansPut_grows hp).setX _).trans hg⟩
    · cases h
      exact ⟨by simp at *; omega, .refl ..⟩

theorem ansRenormLoop_error {cfg : Config} {ls n : Nat} {ans : AnsRegs} {m : Memory} {e : Abort}
    (h : ansRenormLoop cfg ls n ans m = .error e) :
    e = .raise .outputOverrun ∨
    (e = .stop .addressOutsideMemory ∧ memSize cfg < ans.base.toNat + ans.cap.toNat) := by
  induction n generalizing ans m with
  | zero =>
    unfold ansRenormLoop at h
    split at h
    · cases h; exact .inl rfl
    · cases h
  | succ n ih =>
    unfold ansRenormLoop at h
    split at h
    · rcases bind_error h with hp | ⟨⟨a1, m1⟩, hp, h⟩
      · rcases ansPut_error hp with ⟨rfl, -⟩ | ⟨rfl, h1, h2⟩
        · exact .inl rfl
        · exact .inr ⟨rfl, by omega⟩
      · obtain ⟨-, -, rfl, -⟩ := ansPut_ok hp
        rcases ih h with h | h
        · exact .inl h
        · exact .inr h
    · cases h

theorem ansRenorm_ok {cfg : Config} {ls : Nat} {ans ans' : AnsRegs} {m m' : Memory}
    (h : ansRenorm cfg ls ans m = .ok (ans', m')) : ans'.x.toNat < 1024 * ls ∧ AnsGrows cfg ans m ans' m' :=
  ansRenormLoop_ok h

/-- A renormalization aborts for want of room only, with the region inside the memory. -/
theorem ansRenorm_error {cfg : Config} {ls : Nat} {ans : AnsRegs} {m : Memory} {e : Abort}
    (h : ansRenorm cfg ls ans m = .error e) :
    e = .raise .outputOverrun ∨
    (e = .stop .addressOutsideMemory ∧ memSize cfg < ans.base.toNat + ans.cap.toNat) :=
  ansRenormLoop_error h

/-- Below `1024 * ls` nothing is put. -/
theorem ansRenorm_below (cfg : Config) {ls : Nat} {ans : AnsRegs} (m : Memory) (h : ans.x.toNat < 1024 * ls) :
    ansRenorm cfg ls ans m = .ok (ans, m) := by
  have h' : ¬ ansL * ls ≤ ans.x.toNat := by simp; omega
  unfold ansRenorm
  generalize ans.cap.toNat - ans.off.toNat = n
  cases n <;> simp only [ansRenormLoop, if_neg h']

/-- At or above it, from a state in the interval, exactly one byte is put (spec R146). -/
theorem ansRenorm_above {cfg : Config} {ls : Nat} {ans : AnsRegs} (m : Memory) (h1 : 1 ≤ ls)
    (h : 1024 * ls ≤ ans.x.toNat) (hx : ans.x.toNat < 262144) (hroom : ans.off.toNat < ans.cap.toNat)
    (hin : ans.base.toNat + ans.off.toNat < memSize cfg) :
    ansRenorm cfg ls ans m = .ok ({ ans with x := BitVec.ofNat 32 (ans.x.toNat / 256), off := ans.off + 1 },
      m.write (ans.base.toNat + ans.off.toNat) (BitVec.ofNat 8 ans.x.toNat)) := by
  have h' : ansL * ls ≤ ans.x.toNat := h
  have hv : BitVec.ofNat 8 (ans.x.toNat % ansIO) = BitVec.ofNat 8 ans.x.toNat := by
    apply BitVec.eq_of_toNat_eq
    simp
  unfold ansRenorm
  obtain ⟨n, hn⟩ : ∃ n, ans.cap.toNat - ans.off.toNat = n + 1 := ⟨ans.cap.toNat - ans.off.toNat - 1, by omega⟩
  rw [hn, ansRenormLoop, if_pos h', ansPut_eq m hroom hin, ok_bind, hv]
  have h2 : ¬ ansL * ls ≤ (BitVec.ofNat 32 (ans.x.toNat / ansIO)).toNat := by
    have := ans.x.isLt
    simp
    omega
  cases n <;> simp only [ansRenormLoop, if_neg h2] <;> simp

/-- At or above it with no room, the byte overruns. -/
theorem ansRenorm_full (cfg : Config) {ls : Nat} {ans : AnsRegs} (m : Memory)
    (h : 1024 * ls ≤ ans.x.toNat) (hroom : ans.cap.toNat ≤ ans.off.toNat) :
    ansRenorm cfg ls ans m = .error (.raise .outputOverrun) := by
  have h' : ansL * ls ≤ ans.x.toNat := h
  unfold ansRenorm
  rw [show ans.cap.toNat - ans.off.toNat = 0 by omega, ansRenormLoop, if_pos h']

/-- From a state in the interval a renormalization that finishes brings the state into `[4 * ls, 1024 * ls)` with at
most one byte. -/
theorem ansRenorm_window {cfg : Config} {ls : Nat} {ans ans' : AnsRegs} {m m' : Memory} (h1 : 1 ≤ ls) (h256 : ls ≤ 256)
    (hx : ansInRange ans.x.toNat) (h : ansRenorm cfg ls ans m = .ok (ans', m')) :
    4 * ls ≤ ans'.x.toNat ∧ ans'.x.toNat < 1024 * ls ∧ ans'.off.toNat ≤ ans.off.toNat + 1 := by
  obtain ⟨hlo, hhi⟩ := hx
  simp only [ansL, ansIO] at hlo hhi
  by_cases hb : ans.x.toNat < 1024 * ls
  · rw [ansRenorm_below cfg m hb] at h
    cases h
    exact ⟨by omega, hb, by omega⟩
  · have hfin := (ansRenorm_ok h).1
    unfold ansRenorm at h
    generalize hn : ans.cap.toNat - ans.off.toNat = n at h
    cases n with
    | zero => rw [ansRenormLoop, if_pos (by simp; omega)] at h; cases h
    | succ n =>
      rw [ansRenormLoop, if_pos (by simp; omega)] at h
      obtain ⟨⟨a1, m1⟩, hp, h⟩ := bind_ok h
      obtain ⟨hroom, hin, rfl, rfl⟩ := ansPut_ok hp
      have hoff := ansOff_succ hroom
      have h2 : ¬ ansL * ls ≤ (BitVec.ofNat 32 (ans.x.toNat / ansIO)).toNat := by
        simp
        omega
      have hend : ans' = { ans with off := ans.off + 1, x := BitVec.ofNat 32 (ans.x.toNat / ansIO) } := by
        cases n <;> (simp only [ansRenormLoop, if_neg h2] at h; cases h; rfl)
      subst hend
      refine ⟨?_, hfin, by simp only [hoff]; omega⟩
      simp
      omega

/-! ### The next states -/

theorem uabsLs_bounds {bit p0 : Nat} (h1 : 1 ≤ p0) (h255 : p0 ≤ 255) : 1 ≤ uabsLs bit p0 ∧ uabsLs bit p0 ≤ 255 := by
  simp only [uabsLs, probScale]
  split <;> omega

/-- uABS keeps the state in its interval (spec R146). -/
theorem uabsNext_inRange {bit p0 x : Nat} (hbit : bit ≤ 1) (h1 : 1 ≤ p0) (_h255 : p0 ≤ 255)
    (hlo : 4 * uabsLs bit p0 ≤ x) (hhi : x < 1024 * uabsLs bit p0) : ansInRange (uabsNext bit p0 x) := by
  unfold uabsLs at hlo hhi
  unfold uabsNext ansInRange
  simp only [probScale, ansL, ansIO] at *
  by_cases hb : bit = 1
  · simp only [hb, if_true] at *
    generalize hp : 256 - p0 = p at *
    have hpos : 0 < p := by omega
    have hl : 1025 ≤ ((x + 1) * 256 + p - 1) / p := by
      rw [Nat.le_div_iff_mul_le hpos]
      omega
    have hu : ((x + 1) * 256 + p - 1) / p < 262145 := by
      rw [Nat.div_lt_iff_lt_mul hpos]
      omega
    simp
    omega
  · have hb0 : bit = 0 := by omega
    simp only [if_pos hb0, if_neg hb] at *
    constructor
    · rw [Nat.le_div_iff_mul_le h1]
      omega
    · rw [Nat.div_lt_iff_lt_mul h1]
      omega

/-- rANS keeps the state in its interval (spec R146). -/
theorem ransNext_inRange {cum prob x : Nat} (h1 : 1 ≤ prob) (hsum : cum + prob ≤ 256)
    (hlo : 4 * prob ≤ x) (hhi : x < 1024 * prob) : ansInRange (ransNext cum prob x) := by
  unfold ransNext ansInRange
  simp only [probScale, ansL, ansIO]
  have hq : 4 ≤ x / prob := by rwa [Nat.le_div_iff_mul_le h1]
  have hq' : x / prob < 1024 := by rwa [Nat.div_lt_iff_lt_mul h1]
  have hr := Nat.mod_lt x h1
  omega

/-! ### The two steps -/

theorem uabsStep_ok {cfg : Config} {bit p0 : Nat} {ans ans' : AnsRegs} {m m' : Memory}
    (h : uabsStep cfg bit p0 ans m = .ok (ans', m')) : AnsGrows cfg ans m ans' m' := by
  obtain ⟨⟨a1, m1⟩, hr, h⟩ := bind_ok h
  cases h
  exact (ansRenorm_ok hr).2.setX _

theorem ransStep_ok {cfg : Config} {cum prob : Nat} {ans ans' : AnsRegs} {m m' : Memory}
    (h : ransStep cfg cum prob ans m = .ok (ans', m')) : AnsGrows cfg ans m ans' m' := by
  obtain ⟨⟨a1, m1⟩, hr, h⟩ := bind_ok h
  cases h
  exact (ansRenorm_ok hr).2.setX _

theorem uabsStep_error {cfg : Config} {bit p0 : Nat} {ans : AnsRegs} {m : Memory} {e : Abort}
    (h : uabsStep cfg bit p0 ans m = .error e) :
    e = .raise .outputOverrun ∨
    (e = .stop .addressOutsideMemory ∧ memSize cfg < ans.base.toNat + ans.cap.toNat) := by
  rcases bind_error h with h | ⟨_, -, h⟩
  · exact ansRenorm_error h
  · cases h

theorem ransStep_error {cfg : Config} {cum prob : Nat} {ans : AnsRegs} {m : Memory} {e : Abort}
    (h : ransStep cfg cum prob ans m = .error e) :
    e = .raise .outputOverrun ∨
    (e = .stop .addressOutsideMemory ∧ memSize cfg < ans.base.toNat + ans.cap.toNat) := by
  rcases bind_error h with h | ⟨_, -, h⟩
  · exact ansRenorm_error h
  · cases h

theorem ansInRange_ofNat {x : Nat} (h : ansInRange x) : (BitVec.ofNat 32 x).toNat = x := by
  obtain ⟨-, h⟩ := h
  simp only [ansL, ansIO] at h
  simp
  omega

theorem uabsStep_inRange {cfg : Config} {bit p0 : Nat} {ans ans' : AnsRegs} {m m' : Memory} (hbit : bit ≤ 1)
    (h1 : 1 ≤ p0) (h255 : p0 ≤ 255) (hx : ansInRange ans.x.toNat) (h : uabsStep cfg bit p0 ans m = .ok (ans', m')) :
    ansInRange ans'.x.toNat ∧ ans'.off.toNat ≤ ans.off.toNat + 1 := by
  obtain ⟨⟨a1, m1⟩, hr, h⟩ := bind_ok h
  cases h
  obtain ⟨hl, hl'⟩ := uabsLs_bounds (bit := bit) h1 h255
  obtain ⟨h4, h1024, hoff⟩ := ansRenorm_window hl (by omega) hx hr
  have := uabsNext_inRange hbit h1 h255 h4 h1024
  exact ⟨by simp only [ansInRange_ofNat this]; exact this, hoff⟩

theorem ransStep_inRange {cfg : Config} {cum prob : Nat} {ans ans' : AnsRegs} {m m' : Memory} (h1 : 1 ≤ prob)
    (hsum : cum + prob ≤ 256) (hx : ansInRange ans.x.toNat) (h : ransStep cfg cum prob ans m = .ok (ans', m')) :
    ansInRange ans'.x.toNat ∧ ans'.off.toNat ≤ ans.off.toNat + 1 := by
  obtain ⟨⟨a1, m1⟩, hr, h⟩ := bind_ok h
  cases h
  obtain ⟨h4, h1024, hoff⟩ := ansRenorm_window h1 (by omega) hx hr
  have := ransNext_inRange h1 hsum h4 h1024
  exact ⟨by simp only [ansInRange_ofNat this]; exact this, hoff⟩

/-- With a byte of room, inside the memory, a renormalization from the interval finishes. -/
theorem ansRenorm_finishes {cfg : Config} {ls : Nat} {ans : AnsRegs} (m : Memory) (h1 : 1 ≤ ls)
    (hx : ansInRange ans.x.toNat) (hfit : regionFits cfg ans.base ans.cap) (hroom : ans.off.toNat < ans.cap.toNat) :
    ∃ r, ansRenorm cfg ls ans m = .ok r := by
  obtain ⟨-, hfit⟩ := hfit
  obtain ⟨-, hhi⟩ := hx
  simp only [ansL, ansIO] at hhi
  by_cases hb : ans.x.toNat < 1024 * ls
  · exact ⟨_, ansRenorm_below cfg m hb⟩
  · exact ⟨_, ansRenorm_above m h1 (by omega) hhi hroom (by omega)⟩

/-! ### Several bytes -/

theorem ansPutAll_ok {cfg : Config} {vs : List Byte} {ans ans' : AnsRegs} {m m' : Memory}
    (h : ansPutAll cfg vs ans m = .ok (ans', m')) :
    AnsGrows cfg ans m ans' m' ∧ ans'.x = ans.x ∧ ans'.off.toNat = ans.off.toNat + vs.length := by
  induction vs generalizing ans m with
  | nil => cases h; exact ⟨.refl .., rfl, rfl⟩
  | cons v vs ih =>
    obtain ⟨⟨a1, m1⟩, hp, h⟩ := bind_ok h
    have hg := ansPut_grows hp
    obtain ⟨hroom, -, rfl, -⟩ := ansPut_ok hp
    obtain ⟨hg', hx, hoff⟩ := ih h
    refine ⟨hg.trans hg', hx, ?_⟩
    rw [hoff]
    simp only [ansOff_succ hroom, List.length_cons]
    omega

/-- With room for all of them, inside the memory, all bytes are put, each in its place. -/
theorem ansPutAll_finishes {cfg : Config} {vs : List Byte} {ans : AnsRegs} (m : Memory)
    (hfit : ans.base.toNat + ans.cap.toNat ≤ memSize cfg) (hroom : ans.off.toNat + vs.length ≤ ans.cap.toNat) :
    ∃ m', ansPutAll cfg vs ans m = .ok ({ ans with off := ans.off + BitVec.ofNat 32 vs.length }, m') ∧
      ∀ j (hj : j < vs.length), m'.read (ans.base.toNat + ans.off.toNat + j) = vs[j] := by
  induction vs generalizing ans m with
  | nil => exact ⟨m, by simp [ansPutAll], fun j hj => absurd hj (by simp)⟩
  | cons v vs ih =>
    simp only [List.length_cons] at hroom
    have hr : ans.off.toNat < ans.cap.toNat := by omega
    have hoff := ansOff_succ hr
    obtain ⟨m', hm, hread⟩ := ih (ans := { ans with off := ans.off + 1 })
      (m.write (ans.base.toNat + ans.off.toNat) v) hfit (by simp only [hoff]; omega)
    have hg := (ansPutAll_ok hm).1
    refine ⟨m', ?_, fun j hj => ?_⟩
    · rw [ansPutAll, ansPut_eq m hr (by omega), ok_bind, hm]
      congr 3
      apply BitVec.eq_of_toNat_eq
      simp [BitVec.toNat_add]
      omega
    · cases j with
      | zero =>
        rw [hg.frame _ (by simp only [hoff]; omega)]
        simp
      | succ j =>
        have := hread j (by simpa using hj)
        simp only [hoff] at this
        rw [show ans.base.toNat + ans.off.toNat + (j + 1) = ans.base.toNat + (ans.off.toNat + 1) + j by omega, this]
        simp

/-- Without room for all of them, with the region inside the memory, a byte overruns. -/
theorem ansPutAll_overruns {cfg : Config} {vs : List Byte} {ans : AnsRegs} (m : Memory)
    (hfit : ans.base.toNat + ans.cap.toNat ≤ memSize cfg) (hroom : ans.cap.toNat < ans.off.toNat + vs.length) :
    ansPutAll cfg vs ans m = .error (.raise .outputOverrun) ∨ vs = [] := by
  induction vs generalizing ans m with
  | nil => exact .inr rfl
  | cons v vs ih =>
    left
    simp only [List.length_cons] at hroom
    by_cases hr : ans.off.toNat < ans.cap.toNat
    · have hoff := ansOff_succ hr
      rw [ansPutAll, ansPut_eq m hr (by omega), ok_bind]
      rcases ih (ans := { ans with off := ans.off + 1 }) (m.write (ans.base.toNat + ans.off.toNat) v) hfit
        (by simp only [hoff]; omega) with h | rfl
      · exact h
      · simp at hroom
        omega
    · rw [ansPutAll, ansPut, require_false hr]
      rfl

theorem ansPutAll_error {cfg : Config} {vs : List Byte} {ans : AnsRegs} {m : Memory} {e : Abort}
    (h : ansPutAll cfg vs ans m = .error e) :
    e = .raise .outputOverrun ∨
    (e = .stop .addressOutsideMemory ∧ memSize cfg < ans.base.toNat + ans.cap.toNat) := by
  induction vs generalizing ans m with
  | nil => cases h
  | cons v vs ih =>
    rcases bind_error h with hp | ⟨⟨a1, m1⟩, hp, h⟩
    · rcases ansPut_error hp with ⟨rfl, -⟩ | ⟨rfl, h1, h2⟩
      · exact .inl rfl
      · exact .inr ⟨rfl, by omega⟩
    · obtain ⟨-, -, rfl, -⟩ := ansPut_ok hp
      rcases ih h with h | h
      · exact .inl h
      · exact .inr h

/-- The number of bytes of a final state (spec R145). -/
theorem ansEndBytes_length (st : Nat) :
    (ansEndBytes st).length = if st < 64 then 1 else if st < 16384 then 2 else 3 := by
  unfold ansEndBytes
  simp only [show (2 : Nat) ^ 6 = 64 from rfl, show (2 : Nat) ^ 14 = 16384 from rfl]
  split
  · rfl
  · split <;> rfl

/-- The bytes of a final state, as the digits of one number (spec R54, R145). -/
theorem ansEndBytes_byte (st j : Nat) (hj : j < (ansEndBytes st).length) :
    (ansEndBytes st)[j].toNat =
      (if st < 64 then st else if st < 16384 then 16384 + st else 8388608 + st) / 256 ^ j % 256 := by
  have hlen := ansEndBytes_length st
  by_cases h1 : st < 64
  · have he : ansEndBytes st = [BitVec.ofNat 8 st] := if_pos h1
    simp only [if_pos h1] at hlen ⊢
    obtain rfl : j = 0 := by omega
    simp [he]
  · by_cases h2 : st < 16384
    · have he : ansEndBytes st = [BitVec.ofNat 8 (0x4000 + st), BitVec.ofNat 8 ((0x4000 + st) >>> 8)] := by
        exact (if_neg h1).trans (if_pos h2)
      simp only [if_neg h1, if_pos h2] at hlen ⊢
      obtain rfl | rfl : j = 0 ∨ j = 1 := by omega
      all_goals simp [he, Nat.shiftRight_eq_div_pow]
    · have he : ansEndBytes st = [BitVec.ofNat 8 (0x800000 + st), BitVec.ofNat 8 ((0x800000 + st) >>> 8),
          BitVec.ofNat 8 ((0x800000 + st) >>> 16)] := by
        exact (if_neg h1).trans (if_neg h2)
      simp only [if_neg h1, if_neg h2] at hlen ⊢
      obtain rfl | rfl | rfl : j = 0 ∨ j = 1 ∨ j = 2 := by omega
      all_goals simp [he, Nat.shiftRight_eq_div_pow]

end Sys2Proof.Machine
end

