-- ==== Sys2Proof/Laws/Arith.lean ====
section
/-! SUPPORT. The split and the normalization shift (spec R100, R101). -/

namespace Sys2Proof.Machine

/-- The split as the spec's formula with a division. -/
theorem splitPoint_eq (r p : Nat) : splitPoint r p = 1 + (r - 1) * p / 256 := by
  simp [splitPoint, Nat.shiftRight_eq_div_pow]

theorem splitPoint_pos (r p : Nat) : 1 ≤ splitPoint r p := by
  simp [splitPoint]

/-- Both sub-intervals are non-empty (spec R100). -/
theorem splitPoint_lt {r p : Nat} (hr : 2 ≤ r) (hp : p ≤ 255) : splitPoint r p < r := by
  rw [splitPoint_eq]
  have h : (r - 1) * p ≤ (r - 1) * 255 := Nat.mul_le_mul_left _ hp
  omega

theorem normShift_le (r : Nat) : normShift r ≤ 7 := by
  unfold normShift
  repeat' split
  all_goals omega

/-- The shift brings the range into [128, 255] (spec R101). -/
theorem normShift_window {r : Nat} (h : 1 ≤ r) (h' : r ≤ 255) :
    128 ≤ r * 2 ^ normShift r ∧ r * 2 ^ normShift r ≤ 255 := by
  unfold normShift
  repeat' split
  all_goals omega

/-- After a sub-interval narrower than 255 the range is at most 254 (spec R103: "now 128..254"). -/
theorem normShift_window_le {r : Nat} (h : 1 ≤ r) (h' : r ≤ 254) : r * 2 ^ normShift r ≤ 254 := by
  unfold normShift
  repeat' split
  all_goals omega

theorem normShift_eq_zero {r : Nat} (h : 128 ≤ r) : normShift r = 0 := by
  unfold normShift
  repeat' split
  all_goals omega

end Sys2Proof.Machine
end

