-- ==== Sys2Proof/Laws/BoolDecoder.lean ====
section
/-! SUPPORT. What the bool decoder's shared steps can do (spec R120, R121): a stream bit is the input bit, and one
decode step narrows the interval, scales it, and brings as many input bits in as it shifts. -/

namespace Sys2Proof.Machine

/-! ### Input bits -/

/-- The input depends on the region's base and size alone. -/
theorem inputBit_congr {bd bd' : BdRegs} (hb : bd'.base = bd.base) (hs : bd'.size = bd.size) (m : Memory) (i : Nat) :
    inputBit bd' m i = inputBit bd m i := by
  simp [inputBit, hb, hs]

theorem inputBits_congr {bd bd' : BdRegs} (hb : bd'.base = bd.base) (hs : bd'.size = bd.size) (m : Memory) (i n : Nat) :
    inputBits bd' m i n = inputBits bd m i n := by
  induction n with
  | zero => rfl
  | succ n ih => rw [inputBits, inputBits, ih, inputBit_congr hb hs]

theorem inputBits_lt (bd : BdRegs) (m : Memory) (i n : Nat) : inputBits bd m i n < 2 ^ n := by
  induction n with
  | zero => simp [inputBits]
  | succ n ih =>
    have := Bool.toNat_lt (inputBit bd m (i + n))
    rw [inputBits, Nat.pow_succ]
    omega

/-- The bits from `i` on are the first `a` of them and the `b` after those. -/
theorem inputBits_add (bd : BdRegs) (m : Memory) (i a b : Nat) :
    inputBits bd m i (a + b) = inputBits bd m i a * 2 ^ b + inputBits bd m (i + a) b := by
  induction b with
  | zero => simp [inputBits]
  | succ b ih =>
    rw [← Nat.add_assoc, inputBits, inputBits, ih, Nat.pow_succ, Nat.add_assoc i a b]
    ring

theorem inputBits_one (bd : BdRegs) (m : Memory) (i : Nat) : inputBits bd m i 1 = (inputBit bd m i).toNat := by
  simp [inputBits]

/-! ### Stream bits -/

/-- In a region inside the memory a stream byte is there: the byte of memory, or 0 past the region (spec R120). -/
theorem streamByte_eq {cfg : Config} {bd : BdRegs} (h : regionFits cfg bd.base bd.size) (m : Memory) (k : Nat) :
    streamByte cfg bd m k = .ok (if k < bd.size.toNat then m.read (bd.base.toNat + k) else 0) := by
  obtain ⟨-, h⟩ := h
  unfold streamByte
  split
  · rw [memRead_eq_ok (by omega)]
  · rfl

theorem streamBit_eq {cfg : Config} {bd : BdRegs} (h : regionFits cfg bd.base bd.size) (m : Memory) (i : Nat) :
    streamBit cfg bd m i = .ok (inputBit bd m i) := by
  rw [streamBit, streamByte_eq h, ok_bind]
  unfold inputBit
  split <;> simp

/-- A stream byte raises no fault of the spec. -/
theorem streamByte_error {cfg : Config} {bd : BdRegs} {m : Memory} {k : Nat} {e : Abort}
    (h : streamByte cfg bd m k = .error e) : e = .stop .addressOutsideMemory := by
  unfold streamByte memRead at h
  split at h
  · split at h
    · cases h
    · cases h; rfl
  · cases h

/-! ### The renormalization loop -/

/-- `n` passes of the loop in a region inside the memory. -/
theorem decShift_eq {cfg : Config} (m : Memory) (n : Nat) {bd : BdRegs} (h : regionFits cfg bd.base bd.size) :
    decShift cfg m n bd = .ok { bd with
      range  := bd.range <<< n
      value  := BitVec.ofNat 8 (bd.value.toNat * 2 ^ n + inputBits bd m bd.bitpos n)
      bitpos := bd.bitpos + n } := by
  induction n generalizing bd with
  | zero => simp [decShift, inputBits]
  | succ n ih =>
    let bd1 : BdRegs := { bd with
      range  := bd.range <<< 1
      value  := (bd.value <<< 1) ||| (BitVec.ofBool (inputBit bd m bd.bitpos)).setWidth 8
      bitpos := bd.bitpos + 1 }
    have hor : bd1.value.toNat = (2 * bd.value.toNat + (inputBit bd m bd.bitpos).toNat) % 256 := by
      dsimp only [bd1]
      generalize inputBit bd m bd.bitpos = b
      generalize bd.value = v
      revert v
      cases b <;> decide
    have hbits : inputBits bd1 m (bd.bitpos + 1) n = inputBits bd m (bd.bitpos + 1) n :=
      inputBits_congr (bd := bd) (bd' := bd1) rfl rfl m _ n
    rw [decShift, streamBit_eq h, ok_bind]
    refine (ih (bd := bd1) h).trans ?_
    congr 2
    · apply BitVec.eq_of_toNat_eq
      simp only [BitVec.toNat_ofNat]
      rw [hor, hbits, show n + 1 = 1 + n by omega, inputBits_add, inputBits_one, Nat.pow_add]
      conv_rhs => rw [show bd.value.toNat * (2 ^ 1 * 2 ^ n) + ((inputBit bd m bd.bitpos).toNat * 2 ^ n +
        inputBits bd m (bd.bitpos + 1) n) = (2 * bd.value.toNat + (inputBit bd m bd.bitpos).toNat) * 2 ^ n +
        inputBits bd m (bd.bitpos + 1) n by ring]
      simp [Nat.add_mod, Nat.mul_mod]
    · rw [Nat.add_comm n 1, BitVec.shiftLeft_add]
    · dsimp only [bd1]
      omega

/-- What a loop that finishes leaves alone, in every state. -/
theorem decShift_frame {cfg : Config} {m : Memory} {n : Nat} {bd bd' : BdRegs} (h : decShift cfg m n bd = .ok bd') :
    bd'.lc = bd.lc ∧ bd'.base = bd.base ∧ bd'.size = bd.size ∧ bd'.bitpos = bd.bitpos + n ∧
      bd'.range = bd.range <<< n := by
  induction n generalizing bd with
  | zero => cases h; simp
  | succ n ih =>
    obtain ⟨b, -, h⟩ := bind_ok h
    obtain ⟨h1, h2, h3, h4, h5⟩ := ih h
    refine ⟨h1, h2, h3, by simp only [h4]; omega, ?_⟩
    rw [h5, ← BitVec.shiftLeft_add, Nat.add_comm]

/-- A loop raises no fault of the spec. -/
theorem decShift_error {cfg : Config} {m : Memory} {n : Nat} {bd : BdRegs} {e : Abort}
    (h : decShift cfg m n bd = .error e) : e = .stop .addressOutsideMemory := by
  induction n generalizing bd with
  | zero => cases h
  | succ n ih =>
    rcases bind_error h with h | ⟨b, -, h⟩
    · rcases bind_error h with h | ⟨b, -, h⟩
      · exact streamByte_error h
      · cases h
    · exact ih h

/-! ### One decode step -/

/-- The width of the chosen sub-interval (spec R121). -/
def decRange (p : Nat) (bd : BdRegs) : Nat :=
  if decBitOf p bd then bd.range.toNat - splitPoint bd.range.toNat p else splitPoint bd.range.toNat p

/-- The value's place in the chosen sub-interval (spec R121). -/
def decValue (p : Nat) (bd : BdRegs) : Nat :=
  if decBitOf p bd then bd.value.toNat - splitPoint bd.range.toNat p else bd.value.toNat

/-- The narrowed registers as numbers. -/
theorem decNarrow_eq {p : Nat} {bd : BdRegs} (hr : 2 ≤ bd.range.toNat) (hp : p ≤ 255) :
    decNarrow p bd = { bd with range := BitVec.ofNat 8 (decRange p bd), value := BitVec.ofNat 8 (decValue p bd) } ∧
    1 ≤ decRange p bd ∧ decRange p bd ≤ 254 ∧ decValue p bd ≤ 255 := by
  have hlt := splitPoint_lt hr hp
  have hpos := splitPoint_pos bd.range.toNat p
  have := bd.range.isLt
  have := bd.value.isLt
  unfold decNarrow decRange decValue
  split
  · exact ⟨rfl, by omega, by omega, by omega⟩
  · refine ⟨?_, by omega, by omega, by omega⟩
    simp

/-- Everything a decode step does from a legal range, in a region inside the memory (spec R121). -/
theorem decBit_eq {cfg : Config} {p : Nat} {bd : BdRegs} (m : Memory) (hr : 2 ≤ bd.range.toNat) (hp : p ≤ 255)
    (h : regionFits cfg bd.base bd.size) :
    ∃ bd', decBit cfg p bd m = .ok (decBitOf p bd, bd') ∧
      bd'.lc = bd.lc ∧ bd'.base = bd.base ∧ bd'.size = bd.size ∧
      bd'.range.toNat = decRange p bd * 2 ^ normShift (decRange p bd) ∧
      bd'.bitpos = bd.bitpos + normShift (decRange p bd) ∧
      bd'.value.toNat = (decValue p bd * 2 ^ normShift (decRange p bd) +
        inputBits bd m bd.bitpos (normShift (decRange p bd))) % 256 := by
  obtain ⟨hn, h1, h254, hv⟩ := decNarrow_eq hr hp
  have hwin := normShift_window_le h1 h254
  have hR : (decNarrow p bd).range.toNat = decRange p bd := by
    rw [hn]
    simp only [BitVec.toNat_ofNat]
    omega
  rw [decBit, hR, decShift_eq m _ (by rw [hn]; exact h)]
  refine ⟨_, rfl, ?_⟩
  rw [hn]
  refine ⟨rfl, rfl, rfl, ?_, rfl, ?_⟩
  · simp only [BitVec.toNat_shiftLeft, BitVec.toNat_ofNat, Nat.shiftLeft_eq]
    rw [Nat.mod_eq_of_lt (a := decRange p bd) (by omega), Nat.mod_eq_of_lt (by omega)]
  · simp only [BitVec.toNat_ofNat]
    rw [Nat.mod_eq_of_lt (a := decValue p bd) (by omega), inputBits_congr (bd := bd) (bd' := { bd with
      range := BitVec.ofNat 8 (decRange p bd), value := BitVec.ofNat 8 (decValue p bd) }) rfl rfl]

/-- A step raises no fault of the spec. -/
theorem decBit_error {cfg : Config} {p : Nat} {bd : BdRegs} {m : Memory} {e : Abort}
    (h : decBit cfg p bd m = .error e) : e = .stop .addressOutsideMemory := by
  rcases bind_error h with h | ⟨_, -, h⟩
  · exact decShift_error h
  · cases h

/-- What a step that finishes leaves alone, in every state. -/
theorem decBit_frame {cfg : Config} {p : Nat} {bd bd' : BdRegs} {m : Memory} {b : Bool}
    (h : decBit cfg p bd m = .ok (b, bd')) :
    b = decBitOf p bd ∧ bd'.lc = bd.lc ∧ bd'.base = bd.base ∧ bd'.size = bd.size ∧ bd.bitpos ≤ bd'.bitpos := by
  obtain ⟨bd1, h1, h⟩ := bind_ok h
  cases h
  obtain ⟨a, b, c, d, -⟩ := decShift_frame h1
  have hf : (decNarrow p bd).lc = bd.lc ∧ (decNarrow p bd).base = bd.base ∧ (decNarrow p bd).size = bd.size ∧
      (decNarrow p bd).bitpos = bd.bitpos := by
    unfold decNarrow
    split <;> exact ⟨rfl, rfl, rfl, rfl⟩
  refine ⟨rfl, a.trans hf.1, b.trans hf.2.1, c.trans hf.2.2.1, ?_⟩
  rw [d, hf.2.2.2]
  omega

end Sys2Proof.Machine
end

