-- ==== Sys2Proof/Laws/Region.lean ====
section
/-! SUPPORT. The bytes of a region as one number (spec R53): what it depends on, its bound, and its first byte. -/

namespace Sys2Proof.Machine

/-- The value of a region depends on its own bytes only. -/
theorem regionValue_congr {m m' : Memory} {base n : Nat} (h : ∀ j, j < n → m'.read (base + j) = m.read (base + j)) :
    regionValue m' base n = regionValue m base n := by
  induction n with
  | zero => rfl
  | succ n ih => rw [regionValue, regionValue, ih fun j hj => h j (by omega), h n (by omega)]

theorem regionValue_lt (m : Memory) (base n : Nat) : regionValue m base n < 2 ^ (8 * n) := by
  induction n with
  | zero => simp [regionValue]
  | succ n ih =>
    have hb := (m.read (base + n)).isLt
    rw [regionValue, show 8 * (n + 1) = 8 * n + 8 by omega, Nat.pow_add]
    omega

/-- A region of 0xFF bytes has the largest value. -/
theorem regionValue_all_ff {m : Memory} {base n : Nat} (h : ∀ j, j < n → m.read (base + j) = 0xFF) :
    regionValue m base n + 1 = 2 ^ (8 * n) := by
  induction n with
  | zero => simp [regionValue]
  | succ n ih =>
    have hb : (m.read (base + n)).toNat = 255 := by rw [h n (by omega)]; rfl
    have := ih fun j hj => h j (by omega)
    rw [regionValue, hb, show 8 * (n + 1) = 8 * n + 8 by omega, Nat.pow_add]
    omega

/-- The first byte of a region stands at the top of its value. -/
theorem regionValue_first (m : Memory) (base n : Nat) :
    (m.read base).toNat * 2 ^ (8 * n) ≤ regionValue m base (n + 1) := by
  induction n with
  | zero => simp [regionValue]
  | succ n ih =>
    have h := regionValue.eq_2 m base (n + 1)
    rw [h, show 8 * (n + 1) = 8 * n + 8 by omega, Nat.pow_add, ← Nat.mul_assoc]
    omega

end Sys2Proof.Machine
end

