-- ==== Sys2Proof/Laws/BoolEncoder.lean ====
section
/-! SUPPORT. What the bool encoder's shared steps can do (spec R103, R104): the carry chain adds one to the emitted
bytes as a number, and one encode step keeps the unit's legal values and moves and scales its code value. -/

namespace Sys2Proof.Machine

/-! ### The carry chain -/

/-- A carry chain that finishes adds one to the bytes emitted so far and touches nothing outside them, nothing below a
byte that was not 0xFF, and keeps the form of the memory. -/
theorem carry_ok {cfg : Config} {base n : Nat} {m m' : Memory} (h : carry cfg base n m = .ok m') :
    regionValue m' base n = regionValue m base n + 1 ∧
    (∀ a, ¬ (base ≤ a ∧ a < base + n) → m'.read a = m.read a) ∧
    (∀ j, j < n → m.read (base + j) ≠ 0xFF → ∀ a, a < base + j → m'.read a = m.read a) ∧
    (Memory.wf m → Memory.wf m') ∧
    ((∀ e ∈ m, e.1 < memSize cfg) → ∀ e ∈ m', e.1 < memSize cfg) := by
  induction n generalizing m with
  | zero => cases h
  | succ x ih =>
    obtain ⟨b, hb, h⟩ := bind_ok h
    obtain ⟨hin, rfl⟩ := memRead_cases hb
    split at h
    · rename_i hff
      obtain ⟨m1, hw, h⟩ := bind_ok h
      obtain ⟨-, rfl⟩ := memWrite_cases hw
      obtain ⟨hv, hout, hlow, hwf, hins⟩ := ih h
      have hx : m'.read (base + x) = 0 := by
        rw [hout _ (by omega), Memory.read_write_self]
      have hsame : regionValue (m.write (base + x) 0) base x = regionValue m base x :=
        regionValue_congr fun j hj => Memory.read_write_ne m 0 (by omega)
      refine ⟨?_, ?_, ?_, fun w => hwf (Memory.wf_write _ _ w), fun w => hins (Memory.inside_write _ hin w)⟩
      · rw [regionValue, regionValue, hv, hsame, hx, hff]
        simp
        omega
      · intro a ha
        rw [hout a (by omega), Memory.read_write_ne m 0 (by omega)]
      · intro j hj hne a ha
        have hjx : j ≠ x := fun e => hne (e ▸ hff)
        rw [hlow j (by omega) (by rwa [Memory.read_write_ne m 0 (by omega)]) a ha,
          Memory.read_write_ne m 0 (by omega)]
    · rename_i hff
      obtain ⟨-, rfl⟩ := memWrite_cases h
      have hsame : regionValue (m.write (base + x) (m.read (base + x) + 1)) base x = regionValue m base x :=
        regionValue_congr fun j hj => Memory.read_write_ne m _ (by omega)
      have hinc : (m.read (base + x) + 1).toNat = (m.read (base + x)).toNat + 1 := by
        have := (m.read (base + x)).isLt
        have : (m.read (base + x)).toNat ≠ 255 := fun e => hff (BitVec.eq_of_toNat_eq e)
        rw [BitVec.toNat_add]
        simp
        omega
      refine ⟨?_, ?_, ?_, Memory.wf_write _ _, Memory.inside_write _ hin⟩
      · rw [regionValue, regionValue, hsame, Memory.read_write_self, hinc]
        omega
      · intro a ha
        exact Memory.read_write_ne m _ (by omega)
      · intro j hj _ a ha
        exact Memory.read_write_ne m _ (by omega)

/-- With a byte below 0xFF to take it, a carry inside the memory finishes. -/
theorem carry_finishes {cfg : Config} {base n j : Nat} {m : Memory} (hin : base + n ≤ memSize cfg) (hj : j < n)
    (hne : m.read (base + j) ≠ 0xFF) : ∃ m', carry cfg base n m = .ok m' := by
  induction n generalizing m with
  | zero => omega
  | succ x ih =>
    have hx : base + x < memSize cfg := by omega
    simp only [carry, memRead_eq_ok hx, ok_bind, memWrite_eq_ok hx]
    split
    · rename_i hff
      have hjx : j ≠ x := fun e => hne (e ▸ hff)
      exact ih (by omega) (by omega) (by rwa [Memory.read_write_ne m 0 (by omega)])
    · exact ⟨_, rfl⟩

/-- With only 0xFF bytes below it, a carry inside the memory runs past index 0. -/
theorem carry_underflows {cfg : Config} {base n : Nat} {m : Memory} (hin : base + n ≤ memSize cfg)
    (hff : ∀ j, j < n → m.read (base + j) = 0xFF) : carry cfg base n m = .error (.raise .carryUnderflow) := by
  induction n generalizing m with
  | zero => rfl
  | succ x ih =>
    have hx : base + x < memSize cfg := by omega
    simp only [carry, memRead_eq_ok hx, ok_bind, memWrite_eq_ok hx, hff x (by omega), if_true]
    exact ih (by omega) fun j hj => by rw [Memory.read_write_ne m 0 (by omega), hff j (by omega)]

/-- A carry that aborts either met only 0xFF bytes or left the memory. -/
theorem carry_error {cfg : Config} {base n : Nat} {m : Memory} {e : Abort} (h : carry cfg base n m = .error e) :
    (e = .raise .carryUnderflow ∧ ∀ j, j < n → m.read (base + j) = 0xFF) ∨
    (e = .stop .addressOutsideMemory ∧ memSize cfg < base + n) := by
  induction n generalizing m with
  | zero => cases h; exact .inl ⟨rfl, fun j hj => by omega⟩
  | succ x ih =>
    by_cases hx : base + x < memSize cfg
    · simp only [carry, memRead_eq_ok hx, ok_bind, memWrite_eq_ok hx] at h
      split at h
      · rename_i hff
        rcases ih h with ⟨he, hall⟩ | ⟨he, hout⟩
        · refine .inl ⟨he, fun j hj => ?_⟩
          by_cases hjx : j = x
          · exact hjx ▸ hff
          · rw [← hall j (by omega), Memory.read_write_ne m 0 (by omega)]
        · omega
      · cases h
    · simp only [carry, memRead, if_neg hx, error_bind] at h
      cases h
      exact .inr ⟨rfl, by omega⟩

/-! ### The emitted byte -/

/-- The carry test of spec R103: bit 31 of `lo << (offset - 1)` is bit `32 - offset` of `lo`. -/
theorem carryBit_eq {lo : BitVec 32} {off : Nat} (h1 : 1 ≤ off) (h7 : off ≤ 7) (hlo : lo.toNat < 2 ^ (33 - off)) :
    (lo <<< (off - 1)).getLsbD 31 = decide (2 ^ (32 - off) ≤ lo.toNat) := by
  have hbit : lo.toNat / 2 ^ (32 - off) < 2 := by
    rw [Nat.div_lt_iff_lt_mul (Nat.two_pow_pos _), ← Nat.pow_succ', show (32 - off).succ = 33 - off by omega]
    exact hlo
  rw [BitVec.getLsbD_shiftLeft, show 31 - (off - 1) = 32 - off by omega]
  have h31 : ¬ 31 < off - 1 := by omega
  simp only [h31, decide_false, Bool.not_false, Bool.and_true, Nat.lt_add_one, decide_true, Bool.true_and,
    BitVec.getLsbD, Nat.testBit_eq_decide_div_mod_eq, decide_eq_decide]
  rw [Nat.mod_eq_of_lt hbit]
  constructor
  · intro h
    have : 0 < lo.toNat / 2 ^ (32 - off) := by omega
    exact (Nat.div_pos_iff.mp this).2
  · intro h
    have := Nat.div_pos h (Nat.two_pow_pos _)
    omega

/-- Everything an emission that finishes can do. -/
theorem emitByte_ok {cfg : Config} {be : BeRegs} {lo : BitVec 32} {off : Nat} {m m' : Memory}
    (h : emitByte cfg be lo off m = .ok m') :
    be.pos.toNat < be.cap.toNat ∧ be.base.toNat + be.pos.toNat < memSize cfg ∧
    ∃ m1, m' = m1.write (be.base.toNat + be.pos.toNat) ((lo >>> (24 - off)).setWidth 8) ∧
      (((lo <<< (off - 1)).getLsbD 31 = true ∧ carry cfg be.base.toNat be.pos.toNat m = .ok m1) ∨
        ((lo <<< (off - 1)).getLsbD 31 = false ∧ m1 = m)) := by
  obtain ⟨_, hr, h⟩ := bind_ok h
  obtain ⟨m1, hm, h⟩ := bind_ok h
  obtain ⟨hin, rfl⟩ := memWrite_cases h
  refine ⟨require_ok hr, hin, m1, rfl, ?_⟩
  unfold carryIfPending at hm
  split at hm
  · exact .inl ⟨‹_›, hm⟩
  · cases hm
    exact .inr ⟨Bool.eq_false_of_not_eq_true ‹_›, rfl⟩

/-- An emission adds the byte and the carry that the bits of `lo` at `24 - offset` and up call for. -/
theorem emitByte_value {cfg : Config} {be : BeRegs} {lo : BitVec 32} {off : Nat} {m m' : Memory}
    (h1 : 1 ≤ off) (h7 : off ≤ 7) (hlo : lo.toNat < 2 ^ (33 - off)) (h : emitByte cfg be lo off m = .ok m') :
    regionValue m' be.base.toNat (be.pos.toNat + 1) * 2 ^ (24 - off) + lo.toNat % 2 ^ (24 - off) =
      regionValue m be.base.toNat be.pos.toNat * 2 ^ (32 - off) + lo.toNat := by
  obtain ⟨-, -, m1, rfl, hc⟩ := emitByte_ok h
  rw [carryBit_eq h1 h7 hlo] at hc
  have hsame : regionValue (m1.write (be.base.toNat + be.pos.toNat) ((lo >>> (24 - off)).setWidth 8))
      be.base.toNat be.pos.toNat = regionValue m1 be.base.toNat be.pos.toNat :=
    regionValue_congr fun j hj => Memory.read_write_ne m1 _ (by omega)
  have hbyte : ((lo >>> (24 - off)).setWidth 8).toNat = lo.toNat / 2 ^ (24 - off) % 256 := by
    simp [Nat.shiftRight_eq_div_pow]
  have hN : regionValue m1 be.base.toNat be.pos.toNat =
      regionValue m be.base.toNat be.pos.toNat + lo.toNat / 2 ^ (32 - off) := by
    rcases hc with ⟨hb, hcar⟩ | ⟨hb, rfl⟩
    · rw [(carry_ok hcar).1]
      have hge : 2 ^ (32 - off) ≤ lo.toNat := by simpa using hb
      have hlt : lo.toNat / 2 ^ (32 - off) < 2 := by
        rw [Nat.div_lt_iff_lt_mul (Nat.two_pow_pos _), ← Nat.pow_succ', show (32 - off).succ = 33 - off by omega]
        exact hlo
      have hpos := Nat.div_pos hge (Nat.two_pow_pos _)
      omega
    · have hlt : lo.toNat < 2 ^ (32 - off) := by simpa using hb
      rw [Nat.div_eq_of_lt hlt, Nat.add_zero]
  have hsplit : lo.toNat / 2 ^ (24 - off) = lo.toNat / 2 ^ (32 - off) * 256 + lo.toNat / 2 ^ (24 - off) % 256 := by
    have : lo.toNat / 2 ^ (32 - off) = lo.toNat / 2 ^ (24 - off) / 256 := by
      rw [Nat.div_div_eq_div_mul, show (256 : Nat) = 2 ^ 8 from rfl, ← Nat.pow_add, show 24 - off + 8 = 32 - off by omega]
    rw [this]
    omega
  have hdm := Nat.div_add_mod lo.toNat (2 ^ (24 - off))
  have hp : (2 : Nat) ^ (32 - off) = 256 * 2 ^ (24 - off) := by
    rw [show 32 - off = 8 + (24 - off) by omega, Nat.pow_add]
  rw [regionValue, Memory.read_write_self, hsame, hbyte, hN]
  generalize regionValue m be.base.toNat be.pos.toNat = N at *
  generalize lo.toNat / 2 ^ (32 - off) = q at *
  generalize lo.toNat % 2 ^ (24 - off) = r at *
  generalize (2 : Nat) ^ (24 - off) = P at *
  generalize lo.toNat / P % 256 = y at *
  rw [hsplit] at hdm
  rw [← hdm, hp]
  ring

/-- What an emission leaves alone, and the form it keeps. -/
theorem emitByte_frame {cfg : Config} {be : BeRegs} {lo : BitVec 32} {off : Nat} {m m' : Memory}
    (h : emitByte cfg be lo off m = .ok m') :
    (∀ a, ¬ (be.base.toNat ≤ a ∧ a < be.base.toNat + be.pos.toNat + 1) → m'.read a = m.read a) ∧
    (∀ j, j < be.pos.toNat → m.read (be.base.toNat + j) ≠ 0xFF → ∀ a, a < be.base.toNat + j →
      m'.read a = m.read a) ∧
    (Memory.wf m → Memory.wf m') ∧
    ((∀ e ∈ m, e.1 < memSize cfg) → ∀ e ∈ m', e.1 < memSize cfg) := by
  obtain ⟨-, hin, m1, rfl, ⟨-, hc⟩ | ⟨-, rfl⟩⟩ := emitByte_ok h
  · obtain ⟨-, hout, hlow, hwf, hins⟩ := carry_ok hc
    refine ⟨fun a ha => ?_, fun j hj hne a ha => ?_, fun w => Memory.wf_write _ _ (hwf w),
      fun w => Memory.inside_write _ hin (hins w)⟩
    · rw [Memory.read_write_ne m1 _ (by omega), hout a (by omega)]
    · rw [Memory.read_write_ne m1 _ (by omega), hlow j hj hne a ha]
  · exact ⟨fun a ha => Memory.read_write_ne _ _ (by omega), fun j hj _ a ha => Memory.read_write_ne _ _ (by omega),
      Memory.wf_write _ _, Memory.inside_write _ hin⟩

/-- With room in a region inside the memory, and a byte below 0xFF if a carry is pending, an emission finishes. -/
theorem emitByte_finishes {cfg : Config} {be : BeRegs} {lo : BitVec 32} {off : Nat} {m : Memory}
    (hfit : regionFits cfg be.base be.cap) (hroom : be.pos.toNat < be.cap.toNat)
    (hc : (lo <<< (off - 1)).getLsbD 31 = true → ∃ j, j < be.pos.toNat ∧ m.read (be.base.toNat + j) ≠ 0xFF) :
    ∃ m', emitByte cfg be lo off m = .ok m' := by
  obtain ⟨hb, hfit⟩ := hfit
  have hin : be.base.toNat + be.pos.toNat < memSize cfg := by omega
  obtain ⟨m1, h1⟩ : ∃ m1, carryIfPending cfg be lo off m = .ok m1 := by
    unfold carryIfPending
    split
    · obtain ⟨j, hj, hne⟩ := hc ‹_›
      exact carry_finishes (by omega) hj hne
    · exact ⟨_, rfl⟩
  exact ⟨_, by rw [emitByte, require_true hroom, ok_bind, h1, ok_bind, memWrite_eq_ok hin]⟩

/-- How an emission aborts: no room, a carry below index 0, or (with a region outside the memory only) a stop. -/
theorem emitByte_error {cfg : Config} {be : BeRegs} {lo : BitVec 32} {off : Nat} {m : Memory} {e : Abort}
    (h : emitByte cfg be lo off m = .error e) :
    (e = .raise .outputOverrun ∧ be.cap.toNat ≤ be.pos.toNat) ∨
    (e = .raise .carryUnderflow ∧ be.pos.toNat < be.cap.toNat ∧ (lo <<< (off - 1)).getLsbD 31 = true ∧
      ∀ j, j < be.pos.toNat → m.read (be.base.toNat + j) = 0xFF) ∨
    (e = .stop .addressOutsideMemory ∧ be.pos.toNat < be.cap.toNat ∧
      memSize cfg ≤ be.base.toNat + be.pos.toNat) := by
  unfold emitByte at h
  rcases bind_error h with hr | ⟨_, hr, h⟩
  · obtain ⟨rfl, hn⟩ := require_error hr
    exact .inl ⟨rfl, by omega⟩
  · have hroom := require_ok hr
    rcases bind_error h with hc | ⟨m1, hc, h⟩
    · unfold carryIfPending at hc
      split at hc
      · rcases carry_error hc with ⟨rfl, hff⟩ | ⟨rfl, hout⟩
        · exact .inr (.inl ⟨rfl, hroom, ‹_›, hff⟩)
        · exact .inr (.inr ⟨rfl, hroom, by omega⟩)
      · cases hc
    · unfold memWrite at h
      split at h
      · cases h
      · cases h
        exact .inr (.inr ⟨rfl, hroom, by omega⟩)

/-! ### One encode step -/

/-- How far the low end of the interval moves: by the split for the bit 1 (spec R103). -/
def encAdd (bit : Bool) (p : Nat) (be : BeRegs) : Nat := if bit then splitPoint be.range.toNat p else 0

/-- The exponent of the code value as a natural number: `count + 32` is in 8..31. -/
theorem BeOk.exponent {be : BeRegs} (h : BeOk be) :
    ∃ k : Nat, 8 ≤ k ∧ k ≤ 31 ∧ be.count.toInt = (k : Int) - 32 ∧ (be.count.toInt + 32).toNat = k ∧
      (be.count.toInt + 33).toNat = k + 1 := by
  refine ⟨(be.count.toInt + 32).toNat, ?_⟩
  have := h.countLow
  have := h.countHigh
  omega

/-- The chosen sub-interval lies in the old interval and is narrower than it (spec R100, R103). -/
theorem encRange_bounds {be : BeRegs} (h : BeOk be) (bit : Bool) {p : Nat} (hp : p ≤ 255) :
    1 ≤ encRange bit p be ∧ encRange bit p be ≤ 253 ∧ encAdd bit p be + encRange bit p be ≤ be.range.toNat := by
  have hlt := splitPoint_lt (r := be.range.toNat) (by have := h.rangeLow; omega) hp
  have hpos := splitPoint_pos be.range.toNat p
  have := h.rangeHigh
  unfold encRange encAdd
  cases bit <;> simp <;> omega

theorem encLow_toNat {be : BeRegs} (h : BeOk be) (bit : Bool) {p : Nat} (hp : p ≤ 255) :
    (encLow bit p be).toNat = be.low.toNat + encAdd bit p be := by
  obtain ⟨k, hk8, hk31, -, -, hk⟩ := h.exponent
  have hb := encRange_bounds h bit hp
  have hw := h.window
  have hpow : (2 : Nat) ^ (k + 1) ≤ 2 ^ 32 := Nat.pow_le_pow_right (by omega) (by omega)
  rw [hk] at hw
  unfold encLow encAdd at *
  cases bit
  · simp
  · simp only [if_true, BitVec.toNat_add, BitVec.toNat_ofNat] at *
    rw [Nat.mod_eq_of_lt (a := splitPoint _ _) (by omega), Nat.mod_eq_of_lt (by omega)]

/-- The two ways an encode step finishes (spec R103). -/
theorem encBit_cases {cfg : Config} {bit : Bool} {p : Nat} {be be' : BeRegs} {m m' : Memory}
    (h : encBit cfg bit p be m = .ok (be', m')) :
    (be.count.toInt + encShift bit p be < 0 ∧ m' = m ∧
      be' = { be with
        low   := encLow bit p be <<< encShift bit p be
        range := BitVec.ofNat 8 (encRange bit p be <<< encShift bit p be)
        count := BitVec.ofInt 8 (be.count.toInt + encShift bit p be) }) ∨
    (0 ≤ be.count.toInt + encShift bit p be ∧
      emitByte cfg be (encLow bit p be) (-be.count.toInt).toNat m = .ok m' ∧
      be' = { be with
        low   := ((encLow bit p be <<< (-be.count.toInt).toNat) &&& 0xFFFFFF)
                   <<< (be.count.toInt + encShift bit p be).toNat
        range := BitVec.ofNat 8 (encRange bit p be <<< encShift bit p be)
        count := BitVec.ofInt 8 (be.count.toInt + encShift bit p be - 8)
        pos   := be.pos + 1 }) := by
  unfold encBit at h
  have hoff : ((encShift bit p be : Int) - (be.count.toInt + encShift bit p be)).toNat = (-be.count.toInt).toNat := by
    congr 1
    omega
  simp only [hoff] at h
  split at h
  · rename_i hc
    obtain ⟨m1, hm, h⟩ := bind_ok h
    cases h
    exact .inr ⟨hc, hm, rfl⟩
  · cases h
    exact .inl ⟨by omega, rfl, rfl⟩

/-- A step that aborts does so in its emission. -/
theorem encBit_error {cfg : Config} {bit : Bool} {p : Nat} {be : BeRegs} {m : Memory} {e : Abort}
    (h : encBit cfg bit p be m = .error e) :
    0 ≤ be.count.toInt + encShift bit p be ∧
      emitByte cfg be (encLow bit p be) (-be.count.toInt).toNat m = .error e := by
  unfold encBit at h
  have hoff : ((encShift bit p be : Int) - (be.count.toInt + encShift bit p be)).toNat = (-be.count.toInt).toNat := by
    congr 1
    omega
  simp only [hoff] at h
  split at h
  · rcases bind_error h with h | ⟨_, _, h⟩
    · exact ⟨‹_›, h⟩
    · cases h
  · cases h

/-- A step that completes no byte finishes. -/
theorem encBit_quiet (cfg : Config) {bit : Bool} {p : Nat} {be : BeRegs} (m : Memory)
    (h : be.count.toInt + encShift bit p be < 0) : ∃ be', encBit cfg bit p be m = .ok (be', m) := by
  unfold encBit
  simp only [if_neg (not_le.mpr h)]
  exact ⟨_, rfl⟩

/-- A step that completes a byte finishes when its emission does. -/
theorem encBit_emits {cfg : Config} {bit : Bool} {p : Nat} {be : BeRegs} {m m' : Memory}
    (h : 0 ≤ be.count.toInt + encShift bit p be)
    (hm : emitByte cfg be (encLow bit p be) (-be.count.toInt).toNat m = .ok m') :
    ∃ be', encBit cfg bit p be m = .ok (be', m') := by
  have hoff : ((encShift bit p be : Int) - (be.count.toInt + encShift bit p be)).toNat = (-be.count.toInt).toNat := by
    congr 1
    omega
  unfold encBit
  simp only [hoff, if_pos h, hm, ok_bind]
  exact ⟨_, rfl⟩

/-- What one encode step does to a unit in its legal values. -/
structure EncodeStep (bit : Bool) (p : Nat) (be : BeRegs) (m : Memory) (be' : BeRegs) (m' : Memory) : Prop where
  lc     : be'.lc = be.lc
  base   : be'.base = be.base
  cap    : be'.cap = be.cap
  ok     : BeOk be'
  range  : be'.range.toNat = encRange bit p be * 2 ^ encShift bit p be
  value  : codeValue be' m' = (codeValue be m + encAdd bit p be) * 2 ^ encShift bit p be
  bits   : codeBits be' = codeBits be + encShift bit p be
  quiet  : be.count.toInt + encShift bit p be < 0 →
    be'.pos = be.pos ∧ m' = m ∧ be'.count.toInt = be.count.toInt + encShift bit p be ∧
      be'.low.toNat = (be.low.toNat + encAdd bit p be) * 2 ^ encShift bit p be
  emits  : 0 ≤ be.count.toInt + encShift bit p be →
    be'.pos.toNat = be.pos.toNat + 1 ∧ be'.count.toInt = be.count.toInt + encShift bit p be - 8 ∧
      be'.low.toNat < 2 ^ (be'.count.toInt + 32).toNat

theorem ofInt8_toInt {c : Int} (h1 : -128 ≤ c) (h2 : c < 128) : (BitVec.ofInt 8 c).toInt = c := by
  rw [BitVec.toInt_ofInt]
  exact Int.bmod_eq_of_le (by omega) (by omega)

/-- The 24-bit window that an emission leaves, scaled by the rest of the shift (spec R103, lines 13 and 16). -/
theorem maskedLow_toNat (lo : BitVec 32) {k n : Nat} (hk : 25 ≤ k) (hk' : k ≤ 31) (hn : k + n ≤ 40) (hkn : 32 ≤ k + n) :
    (((lo <<< (32 - k)) &&& 0xFFFFFF) <<< (k + n - 32)).toNat = lo.toNat % 2 ^ (k - 8) * 2 ^ n := by
  have hmask : ((lo <<< (32 - k)) &&& 0xFFFFFF).toNat = lo.toNat % 2 ^ (k - 8) * 2 ^ (32 - k) := by
    rw [BitVec.toNat_and, BitVec.toNat_shiftLeft, Nat.shiftLeft_eq,
      show (0xFFFFFF : BitVec 32).toNat = 2 ^ 24 - 1 from rfl, Nat.and_two_pow_sub_one_eq_mod,
      Nat.mod_mod_of_dvd _ (Nat.pow_dvd_pow 2 (by omega)),
      show (2 : Nat) ^ 24 = 2 ^ (k - 8) * 2 ^ (32 - k) by rw [← Nat.pow_add]; congr 1; omega,
      Nat.mul_mod_mul_right]
  have hrem : lo.toNat % 2 ^ (k - 8) * 2 ^ n < 2 ^ 32 := by
    calc lo.toNat % 2 ^ (k - 8) * 2 ^ n < 2 ^ (k - 8) * 2 ^ n :=
          Nat.mul_lt_mul_of_pos_right (Nat.mod_lt _ (Nat.two_pow_pos _)) (Nat.two_pow_pos _)
      _ = 2 ^ (k - 8 + n) := (Nat.pow_add ..).symm
      _ ≤ 2 ^ 32 := Nat.pow_le_pow_right (by omega) (by omega)
  rw [BitVec.toNat_shiftLeft, hmask, Nat.shiftLeft_eq, Nat.mul_assoc, ← Nat.pow_add,
    show 32 - k + (k + n - 32) = n by omega, Nat.mod_eq_of_lt hrem]

/-- The range after a step (spec R103, line 5). -/
theorem encRange_shifted {be : BeRegs} (h : BeOk be) (bit : Bool) {p : Nat} (hp : p ≤ 255) :
    128 ≤ encRange bit p be * 2 ^ encShift bit p be ∧ encRange bit p be * 2 ^ encShift bit p be ≤ 254 ∧
    (BitVec.ofNat 8 (encRange bit p be <<< encShift bit p be)).toNat =
      encRange bit p be * 2 ^ encShift bit p be := by
  obtain ⟨hr1, hr253, -⟩ := encRange_bounds h bit hp
  have h1 : 128 ≤ encRange bit p be * 2 ^ encShift bit p be := (normShift_window hr1 (by omega)).1
  have h2 : encRange bit p be * 2 ^ encShift bit p be ≤ 254 := normShift_window_le hr1 (by omega)
  exact ⟨h1, h2, by rw [BitVec.toNat_ofNat, Nat.shiftLeft_eq, Nat.mod_eq_of_lt (by omega)]⟩

/-- A step that completes no byte (spec R103): the exponent of the code value grows by the shift. -/
theorem encBit_quiet_ok {cfg : Config} {bit : Bool} {p : Nat} {be be' : BeRegs} {m m' : Memory} (hok : BeOk be)
    (hp : p ≤ 255) (hc : be.count.toInt + encShift bit p be < 0) (h : encBit cfg bit p be m = .ok (be', m')) :
    EncodeStep bit p be m be' m' := by
  obtain ⟨k, hk8, hk31, hcount, hk, hk'⟩ := hok.exponent
  obtain ⟨hr128, hr254, hrange⟩ := encRange_shifted hok bit hp
  have hsub := (encRange_bounds hok bit hp).2.2
  have hlow := encLow_toNat hok bit hp
  have hwin := hok.window
  rw [hk'] at hwin
  rcases encBit_cases h with ⟨-, rfl, hbe⟩ | ⟨hc', -, -⟩
  swap
  · omega
  have hscaled : (be.low.toNat + encAdd bit p be) * 2 ^ encShift bit p be +
      encRange bit p be * 2 ^ encShift bit p be ≤ 2 ^ (k + encShift bit p be + 1) := by
    calc _ = (be.low.toNat + encAdd bit p be + encRange bit p be) * 2 ^ encShift bit p be := (Nat.add_mul ..).symm
      _ ≤ 2 ^ (k + 1) * 2 ^ encShift bit p be := Nat.mul_le_mul_right _ (by omega)
      _ = 2 ^ (k + encShift bit p be + 1) := by rw [← Nat.pow_add]; congr 1; omega
  have hp32 : (2 : Nat) ^ (k + encShift bit p be + 1) ≤ 2 ^ 32 := Nat.pow_le_pow_right (by omega) (by omega)
  have hL : be'.low.toNat = (be.low.toNat + encAdd bit p be) * 2 ^ encShift bit p be := by
    rw [hbe]
    dsimp only
    rw [BitVec.toNat_shiftLeft, Nat.shiftLeft_eq, hlow, Nat.mod_eq_of_lt (by omega)]
  have hR : be'.range.toNat = encRange bit p be * 2 ^ encShift bit p be := by rw [hbe]; exact hrange
  have hC : be'.count.toInt = be.count.toInt + encShift bit p be := by
    rw [hbe]; exact ofInt8_toInt (by omega) (by omega)
  have hP : be'.pos = be.pos := by rw [hbe]
  have hB : be'.base = be.base := by rw [hbe]
  have hK : be'.cap = be.cap := by rw [hbe]
  have hE : (be'.count.toInt + 32).toNat = k + encShift bit p be := by omega
  refine ⟨by rw [hbe], hB, hK, ⟨by omega, by omega, by omega, by omega, ?_, ?_⟩, hR, ?_, ?_, ?_, ?_⟩
  · rw [hL, hR, show (be'.count.toInt + 33).toNat = k + encShift bit p be + 1 by omega]
    exact hscaled
  · rw [hP, hK]
    exact hok.cursor
  · rw [codeValue, codeValue, hE, hL, hP, hB, hk, Nat.pow_add]
    ring
  · rw [codeBits, codeBits, hE, hP, hk]
    omega
  · exact fun _ => ⟨hP, rfl, hC, hL⟩
  · intro h'
    omega

/-- A step that completes a byte (spec R103): the exponent of the code value grows by the shift less 8. -/
theorem encBit_emits_ok {cfg : Config} {bit : Bool} {p : Nat} {be be' : BeRegs} {m m' : Memory} (hok : BeOk be)
    (hp : p ≤ 255) (hc : 0 ≤ be.count.toInt + encShift bit p be) (h : encBit cfg bit p be m = .ok (be', m')) :
    EncodeStep bit p be m be' m' := by
  obtain ⟨k, hk8, hk31, hcount, hk, hk'⟩ := hok.exponent
  obtain ⟨hr128, hr254, hrange⟩ := encRange_shifted hok bit hp
  obtain ⟨hr1, -, hsub⟩ := encRange_bounds hok bit hp
  have hlow := encLow_toNat hok bit hp
  have hwin := hok.window
  rw [hk'] at hwin
  have hn7 : encShift bit p be ≤ 7 := normShift_le _
  rcases encBit_cases h with ⟨hc', -, -⟩ | ⟨-, hm, hbe⟩
  · omega
  have hoff : (-be.count.toInt).toNat = 32 - k := by omega
  rw [hoff] at hm
  have hcnt : (be.count.toInt + encShift bit p be).toNat = k + encShift bit p be - 32 := by omega
  rw [hoff, hcnt] at hbe
  have hlt : (encLow bit p be).toNat < 2 ^ (33 - (32 - k)) := by
    rw [show 33 - (32 - k) = k + 1 by omega]
    omega
  have hval := emitByte_value (by omega) (by omega) hlt hm
  obtain ⟨hroom, -, -⟩ := emitByte_ok hm
  rw [show 24 - (32 - k) = k - 8 by omega, show 32 - (32 - k) = k by omega] at hval
  have hrem : (encLow bit p be).toNat % 2 ^ (k - 8) * 2 ^ encShift bit p be < 2 ^ (k + encShift bit p be - 8) := by
    rw [show k + encShift bit p be - 8 = k - 8 + encShift bit p be by omega, Nat.pow_add]
    exact Nat.mul_lt_mul_of_pos_right (Nat.mod_lt _ (Nat.two_pow_pos _)) (Nat.two_pow_pos _)
  have h256 : (2 : Nat) ^ 8 ≤ 2 ^ (k + encShift bit p be - 8) := Nat.pow_le_pow_right (by omega) (by omega)
  have hL : be'.low.toNat = (encLow bit p be).toNat % 2 ^ (k - 8) * 2 ^ encShift bit p be := by
    rw [hbe]
    exact maskedLow_toNat _ (by omega) hk31 (by omega) (by omega)
  have hR : be'.range.toNat = encRange bit p be * 2 ^ encShift bit p be := by rw [hbe]; exact hrange
  have hC : be'.count.toInt = be.count.toInt + encShift bit p be - 8 := by
    rw [hbe]; exact ofInt8_toInt (by omega) (by omega)
  have hP : be'.pos.toNat = be.pos.toNat + 1 := by
    have := be.cap.isLt
    rw [hbe]
    dsimp only
    rw [BitVec.toNat_add]
    simp
    omega
  have hB : be'.base = be.base := by rw [hbe]
  have hK : be'.cap = be.cap := by rw [hbe]
  have hE : (be'.count.toInt + 32).toNat = k + encShift bit p be - 8 := by omega
  refine ⟨by rw [hbe], hB, hK, ⟨by omega, by omega, by omega, by omega, ?_, ?_⟩, hR, ?_, ?_, ?_, ?_⟩
  · rw [hL, hR, show (be'.count.toInt + 33).toNat = k + encShift bit p be - 8 + 1 by omega, Nat.pow_succ]
    omega
  · rw [hP, hK]
    exact hroom
  · rw [codeValue, codeValue, hE, hL, hP, hB, hk, show k + encShift bit p be - 8 = k - 8 + encShift bit p be by omega,
      Nat.pow_add, ← Nat.mul_assoc, ← Nat.add_mul, hval, hlow]
    ring
  · rw [codeBits, codeBits, hE, hP, hk]
    omega
  · intro h'
    omega
  · intro _
    refine ⟨hP, hC, ?_⟩
    rw [hL, hE]
    exact hrem

/-- Spec R31, R103: an encode step that finishes keeps the legal values of the unit and moves and scales its code
value. -/
theorem encBit_ok {cfg : Config} {bit : Bool} {p : Nat} {be be' : BeRegs} {m m' : Memory} (hok : BeOk be)
    (hp : p ≤ 255) (h : encBit cfg bit p be m = .ok (be', m')) : EncodeStep bit p be m be' m' := by
  by_cases hc : be.count.toInt + encShift bit p be < 0
  · exact encBit_quiet_ok hok hp hc h
  · exact encBit_emits_ok hok hp (by omega) h

/-- What an encode step leaves alone in every state, legal or not, and the form of the memory it keeps. -/
theorem encBit_frame {cfg : Config} {bit : Bool} {p : Nat} {be be' : BeRegs} {m m' : Memory}
    (h : encBit cfg bit p be m = .ok (be', m')) :
    be'.lc = be.lc ∧ be'.base = be.base ∧ be'.cap = be.cap ∧
    be.pos.toNat ≤ be'.pos.toNat ∧
    (∀ a, ¬ (be.base.toNat ≤ a ∧ a < be.base.toNat + be'.pos.toNat) → m'.read a = m.read a) ∧
    (be'.pos = be.pos → m' = m) ∧
    (∀ j, j < be.pos.toNat → m.read (be.base.toNat + j) ≠ 0xFF → ∀ a, a < be.base.toNat + j →
      m'.read a = m.read a) ∧
    (Memory.wf m → Memory.wf m') ∧
    ((∀ e ∈ m, e.1 < memSize cfg) → ∀ e ∈ m', e.1 < memSize cfg) := by
  rcases encBit_cases h with ⟨-, rfl, rfl⟩ | ⟨-, hm, rfl⟩
  · exact ⟨rfl, rfl, rfl, Nat.le_refl _, fun _ _ => rfl, fun _ => rfl, fun _ _ _ _ _ => rfl, id, id⟩
  · obtain ⟨hroom, -, -⟩ := emitByte_ok hm
    obtain ⟨hout, hlow, hwf, hins⟩ := emitByte_frame hm
    have hpos : (be.pos + 1).toNat = be.pos.toNat + 1 := by
      have := be.cap.isLt
      rw [BitVec.toNat_add]
      simp
      omega
    refine ⟨rfl, rfl, rfl, by simp only [hpos]; omega, fun a ha => hout a ?_, fun he => ?_, hlow, hwf, hins⟩
    · simp only [hpos] at ha
      omega
    · have := congrArg BitVec.toNat he
      simp only [hpos] at this
      omega

end Sys2Proof.Machine
end

