-- ==== Sys2Proof/Laws/BoolEncoderStop.lean ====
section
/-! SUPPORT. What starting and stopping a bool-encoder unit can do: the marker of BE_START (spec R102), the padding and
the guard byte of BE_STOP (spec R106), and the sentinel that keeps a carry inside the output (spec R107). -/

namespace Sys2Proof.Machine

/-! ### The marker -/

/-- The marker bit of BE_START, in every region: it completes no byte. -/
theorem encBit_fresh (cfg : Config) (lc : Lifecycle) (base len : Word) (m : Memory) :
    encBit cfg false fairProb (beFresh lc base len) m =
      .ok ({ lc := lc, low := 0, range := 128, count := -24, pos := 0, base := base, cap := len }, m) := by
  have hr : encRange false fairProb (beFresh lc base len) = 128 := by
    simp [encRange, beFresh, splitPoint]
  have hs : encShift false fairProb (beFresh lc base len) = 0 := by rw [encShift, hr]; rfl
  have hc : (beFresh lc base len).count.toInt = -24 := by simp [beFresh]
  unfold encBit
  simp only [hr, hs, hc]
  simp [encLow, beFresh]

/-- A unit right after the marker is in its legal values. -/
theorem beOk_fresh (base len : Word) : BeOk ⟨.active, 0, 128, -24, 0, base, len⟩ := by
  refine ⟨?_, ?_, ?_, ?_, ?_, ?_⟩ <;> simp

/-! ### The sentinel (spec R107) -/

/-- The code value has as many bits as the exponent and the emitted bytes give. -/
theorem codeBits_eq {be : BeRegs} (h : BeOk be) : 8 ≤ codeBits be := by
  obtain ⟨k, hk8, -, -, hk, -⟩ := h.exponent
  rw [codeBits, hk]
  omega

/-- A unit right after the marker has the sentinel. -/
theorem beSentinel_fresh (lc : Lifecycle) (base len : Word) (m : Memory) :
    BeSentinel { lc := lc, low := 0, range := 128, count := -24, pos := 0, base := base, cap := len } m := by
  simp [BeSentinel, codeValue, codeBits, regionValue]

/-- An encode step keeps the sentinel. -/
theorem BeSentinel.step {bit : Bool} {p : Nat} {be be' : BeRegs} {m m' : Memory} (hs : BeSentinel be m)
    (hok : BeOk be) (hp : p ≤ 255) (h : EncodeStep bit p be m be' m') : BeSentinel be' m' := by
  have h8 := codeBits_eq hok
  have hsub := (encRange_bounds hok bit hp).2.2
  unfold BeSentinel at *
  rw [h.value, h.range, h.bits, show codeBits be + encShift bit p be - 1 = codeBits be - 1 + encShift bit p be by omega,
    Nat.pow_add, ← Nat.add_mul]
  exact Nat.mul_le_mul_right _ (by omega)

/-- With the sentinel, a carry that is pending, or would be with the low end moved inside the interval, has a byte below
0xFF to take it. -/
theorem BeSentinel.takesCarry {be : BeRegs} {m : Memory} (hs : BeSentinel be m) (hok : BeOk be) {add : Nat}
    (ha : add ≤ be.range.toNat) (hc : 2 ^ (be.count.toInt + 32).toNat ≤ be.low.toNat + add) :
    ∃ j, j < be.pos.toNat ∧ m.read (be.base.toNat + j) ≠ 0xFF := by
  by_contra hall
  have hff : ∀ j, j < be.pos.toNat → m.read (be.base.toNat + j) = 0xFF := by
    intro j hj
    by_contra hne
    exact hall ⟨j, hj, hne⟩
  have h1 := regionValue_all_ff hff
  have h8 := codeBits_eq hok
  have hle : 2 ^ codeBits be ≤ codeValue be m + add := by
    rw [codeBits, Nat.pow_add, ← h1, codeValue, Nat.add_mul, Nat.one_mul]
    omega
  have hlt : (2 : Nat) ^ (codeBits be - 1) < 2 ^ codeBits be := Nat.pow_lt_pow_right (by omega) (by omega)
  unfold BeSentinel at hs
  omega

/-- With the sentinel, the first byte of the output has bit 7 clear. -/
theorem BeSentinel.firstByte {be : BeRegs} {m : Memory} (hs : BeSentinel be m) (hok : BeOk be)
    (hpos : 0 < be.pos.toNat) : (m.read be.base.toNat).toNat < 128 := by
  have hr := hok.rangeLow
  obtain ⟨n, hn⟩ : ∃ n, be.pos.toNat = n + 1 := ⟨be.pos.toNat - 1, by omega⟩
  have hfirst := regionValue_first m be.base.toNat n
  rw [← hn] at hfirst
  unfold BeSentinel codeValue codeBits at hs
  generalize (be.count.toInt + 32).toNat = k at hs
  by_contra hge
  have hchain : 2 ^ (8 * be.pos.toNat + k - 1) ≤ regionValue m be.base.toNat be.pos.toNat * 2 ^ k := by
    calc 2 ^ (8 * be.pos.toNat + k - 1) = 128 * 2 ^ (8 * n) * 2 ^ k := by
          rw [show (128 : Nat) = 2 ^ 7 from rfl, ← Nat.pow_add, ← Nat.pow_add]
          congr 1
          omega
      _ ≤ (m.read be.base.toNat).toNat * 2 ^ (8 * n) * 2 ^ k :=
          Nat.mul_le_mul_right _ (Nat.mul_le_mul_right _ (by omega))
      _ ≤ _ := Nat.mul_le_mul_right _ hfirst
  omega

/-! ### How an encode step aborts -/

/-- The carry test of an emission, on the registers before it. -/
theorem encCarry_eq {bit : Bool} {p : Nat} {be : BeRegs} (hok : BeOk be) (hp : p ≤ 255)
    (hc : 0 ≤ be.count.toInt + encShift bit p be) :
    (encLow bit p be <<< ((-be.count.toInt).toNat - 1)).getLsbD 31 =
      decide (2 ^ (be.count.toInt + 32).toNat ≤ (encLow bit p be).toNat) := by
  obtain ⟨k, hk8, hk31, hcount, hk, hk'⟩ := hok.exponent
  have hn7 : encShift bit p be ≤ 7 := normShift_le _
  have hlow := encLow_toNat hok bit hp
  have hsub := (encRange_bounds hok bit hp).2.2
  have hr1 := (encRange_bounds hok bit hp).1
  have hwin := hok.window
  rw [hk'] at hwin
  have hoff : (-be.count.toInt).toNat = 32 - k := by omega
  rw [hoff, hk, carryBit_eq (by omega) (by omega) (by
    rw [show 33 - (32 - k) = k + 1 by omega]
    omega), show 32 - (32 - k) = k by omega]

/-- With room, and a byte below 0xFF if a carry is pending, an encode step finishes. -/
theorem encBit_finishes {cfg : Config} {bit : Bool} {p : Nat} {be : BeRegs} {m : Memory} (hok : BeOk be) (hp : p ≤ 255)
    (hfit : regionFits cfg be.base be.cap)
    (hroom : 0 ≤ be.count.toInt + encShift bit p be → be.pos.toNat < be.cap.toNat ∧
      (2 ^ (be.count.toInt + 32).toNat ≤ (encLow bit p be).toNat →
        ∃ j, j < be.pos.toNat ∧ m.read (be.base.toNat + j) ≠ 0xFF)) :
    ∃ r, encBit cfg bit p be m = .ok r := by
  by_cases hc : be.count.toInt + encShift bit p be < 0
  · obtain ⟨be', h⟩ := encBit_quiet cfg m hc
    exact ⟨_, h⟩
  · have hc' : 0 ≤ be.count.toInt + encShift bit p be := by omega
    obtain ⟨hr, hj⟩ := hroom hc'
    obtain ⟨m', hm⟩ := emitByte_finishes (lo := encLow bit p be) (off := (-be.count.toInt).toNat) hfit hr (by
      rw [encCarry_eq hok hp hc']
      intro h
      exact hj (by simpa using h))
    obtain ⟨be', h⟩ := encBit_emits hc' hm
    exact ⟨_, h⟩

/-- An encode step that needs a byte and has no room overruns, carry or not (spec R103). -/
theorem encBit_overruns (cfg : Config) {bit : Bool} {p : Nat} {be : BeRegs} (m : Memory)
    (hc : 0 ≤ be.count.toInt + encShift bit p be) (hroom : be.cap.toNat ≤ be.pos.toNat) :
    encBit cfg bit p be m = .error (.raise .outputOverrun) := by
  unfold encBit emitByte
  simp only [if_pos hc, require_false (Nat.not_lt.mpr hroom), error_bind]

/-- An encode step with room whose carry has only 0xFF bytes below it underflows (spec R104). -/
theorem encBit_underflows {cfg : Config} {bit : Bool} {p : Nat} {be : BeRegs} {m : Memory} (hok : BeOk be)
    (hp : p ≤ 255) (hfit : regionFits cfg be.base be.cap) (hc : 0 ≤ be.count.toInt + encShift bit p be)
    (hroom : be.pos.toNat < be.cap.toNat) (hcarry : 2 ^ (be.count.toInt + 32).toNat ≤ (encLow bit p be).toNat)
    (hff : ∀ j, j < be.pos.toNat → m.read (be.base.toNat + j) = 0xFF) :
    encBit cfg bit p be m = .error (.raise .carryUnderflow) := by
  have hoff : ((encShift bit p be : Int) - (be.count.toInt + encShift bit p be)).toNat = (-be.count.toInt).toNat := by
    congr 1
    omega
  have hbit := encCarry_eq hok hp hc
  rw [decide_eq_true hcarry] at hbit
  obtain ⟨-, hfit⟩ := hfit
  have hu := carry_underflows (cfg := cfg) (by omega) hff
  unfold encBit emitByte carryIfPending
  simp only [hoff, if_pos hc, require_true hroom, ok_bind, hbit, if_true, hu, error_bind]

/-- How an encode step of a unit in its legal values aborts: no room, a carry with only 0xFF bytes below it, or (with a
region outside the memory only) a stop. -/
theorem encBit_raises {cfg : Config} {bit : Bool} {p : Nat} {be : BeRegs} {m : Memory} {e : Abort} (hok : BeOk be)
    (hp : p ≤ 255) (h : encBit cfg bit p be m = .error e) :
    (e = .raise .outputOverrun ∧ be.cap.toNat ≤ be.pos.toNat) ∨
    (e = .raise .carryUnderflow ∧ be.pos.toNat < be.cap.toNat ∧
      2 ^ (be.count.toInt + 32).toNat ≤ (encLow bit p be).toNat ∧
      ∀ j, j < be.pos.toNat → m.read (be.base.toNat + j) = 0xFF) ∨
    (e = .stop .addressOutsideMemory ∧ memSize cfg < be.base.toNat + be.cap.toNat) := by
  obtain ⟨hc, h⟩ := encBit_error h
  rcases emitByte_error h with h | ⟨he, hr, hb, hff⟩ | ⟨he, h1, h2⟩
  · exact .inl h
  · rw [encCarry_eq hok hp hc] at hb
    exact .inr (.inl ⟨he, hr, by simpa using hb, hff⟩)
  · exact .inr (.inr ⟨he, by omega⟩)

/-! ### The padding of BE_STOP -/

/-- A padding bit scales by one place: the range becomes even, the low end stays. -/
theorem encPad_facts {be : BeRegs} (h : BeOk be) :
    encShift false fairProb be = 1 ∧ encAdd false fairProb be = 0 ∧ encLow false fairProb be = be.low ∧
      encRange false fairProb be * 2 = be.range.toNat + be.range.toNat % 2 := by
  have h1 := h.rangeLow
  have h2 := h.rangeHigh
  have hr : encRange false fairProb be = 1 + (be.range.toNat - 1) / 2 := by
    simp only [encRange, Bool.false_eq_true, if_false, splitPoint_eq, fairProb]
    omega
  refine ⟨?_, rfl, rfl, by rw [hr]; omega⟩
  unfold encShift normShift
  rw [hr]
  repeat' split
  all_goals omega

/-- Number of bytes that `n` padding bits complete, from a unit whose code value has exponent `k = count + 32`. -/
def padBytes (k n : Nat) : Nat := if n + k < 32 then 0 else 1 + (n + k - 32) / 8

theorem padBytes_zero {k : Nat} (h : k ≤ 31) : padBytes k 0 = 0 := if_pos (by omega)

theorem padBytes_quiet (k n : Nat) : padBytes k (n + 1) = padBytes (k + 1) n := by
  unfold padBytes
  rw [show n + 1 + k = n + (k + 1) by omega]

theorem padBytes_emit (n : Nat) : padBytes 31 (n + 1) = 1 + padBytes 24 n := by
  unfold padBytes
  split <;> split <;> omega

/-- What `n` padding bits do to a unit in its legal values. -/
structure Padded (n : Nat) (be : BeRegs) (m : Memory) (be' : BeRegs) (m' : Memory) : Prop where
  lc    : be'.lc = be.lc
  base  : be'.base = be.base
  cap   : be'.cap = be.cap
  ok    : BeOk be'
  range : be'.range.toNat = if n = 0 then be.range.toNat else be.range.toNat + be.range.toNat % 2
  value : codeValue be' m' = codeValue be m * 2 ^ n
  pos   : be'.pos.toNat = be.pos.toNat + padBytes (be.count.toInt + 32).toNat n
  count : be'.count.toInt + 8 * padBytes (be.count.toInt + 32).toNat n = be.count.toInt + n
  small : 0 < padBytes (be.count.toInt + 32).toNat n ∨ be.low.toNat < 2 ^ (be.count.toInt + 32).toNat →
    be'.low.toNat < 2 ^ (be'.count.toInt + 32).toNat
  below : ∀ j, j < be.pos.toNat → m.read (be.base.toNat + j) ≠ 0xFF → ∀ a, a < be.base.toNat + j →
    m'.read a = m.read a
  quiet : padBytes (be.count.toInt + 32).toNat n = 0 → be'.pos = be.pos ∧ m' = m
  above : be.low.toNat < 2 ^ (be.count.toInt + 32).toNat → ∀ a, a < be.base.toNat + be.pos.toNat →
    m'.read a = m.read a

/-- A padding bit with no carry pending stores nothing below the cursor. -/
theorem encPad_above {cfg : Config} {be be' : BeRegs} {m m' : Memory} (hok : BeOk be)
    (hlow : be.low.toNat < 2 ^ (be.count.toInt + 32).toNat) (h : encBit cfg false fairProb be m = .ok (be', m')) :
    ∀ a, a < be.base.toNat + be.pos.toNat → m'.read a = m.read a := by
  intro a ha
  rcases encBit_cases h with ⟨-, rfl, -⟩ | ⟨hc, hm, -⟩
  · rfl
  · obtain ⟨-, -, m1, rfl, ⟨hb, -⟩ | ⟨-, rfl⟩⟩ := emitByte_ok hm
    · rw [encCarry_eq hok (by simp) hc, (encPad_facts hok).2.2.1] at hb
      have : 2 ^ (be.count.toInt + 32).toNat ≤ be.low.toNat := by simpa using hb
      omega
    · exact Memory.read_write_ne _ _ (by omega)

/-- One padding bit. -/
theorem encPad_one {cfg : Config} {be be' : BeRegs} {m m' : Memory} (hok : BeOk be)
    (h : encBit cfg false fairProb be m = .ok (be', m')) : Padded 1 be m be' m' := by
  have hst := encBit_ok hok (by simp) h
  obtain ⟨hs, ha, hl, hr⟩ := encPad_facts hok
  obtain ⟨k, hk8, hk31, hcount, hk, hk'⟩ := hok.exponent
  have hv := hst.value
  have hrg := hst.range
  have hq := hst.quiet
  have he := hst.emits
  rw [hs, ha] at hv hq
  rw [hs] at hrg he
  have hpad : padBytes k 1 = if k = 31 then 1 else 0 := by
    unfold padBytes
    split <;> split <;> omega
  obtain ⟨-, -, -, -, -, -, hbelow, -, -⟩ := encBit_frame h
  refine ⟨hst.lc, hst.base, hst.cap, hst.ok, by rw [hrg, Nat.pow_one, hr]; rfl, by simpa using hv, ?_, ?_, ?_,
    hbelow, ?_, fun hlow => encPad_above hok hlow h⟩
  · rw [hk, hpad]
    split
    · exact (he (by omega)).1
    · rw [(hq (by omega)).1]
      rfl
  · rw [hk, hpad]
    split
    · have := (he (by omega)).2.1
      omega
    · have := (hq (by omega)).2.2.1
      omega
  · rw [hk, hpad]
    split
    · exact fun _ => (he (by omega)).2.2
    · rintro (h | hlow)
      · omega
      · obtain ⟨-, -, hc, hlo⟩ := hq (by omega)
        rw [hlo, show (be'.count.toInt + 32).toNat = k + 1 by omega]
        simp [Nat.pow_succ]
        exact hlow
  · rw [hk, hpad]
    intro h0
    have hne : k ≠ 31 := fun e => by simp [e] at h0
    obtain ⟨h1, h2, -, -⟩ := hq (by omega)
    exact ⟨h1, h2⟩

/-- Padding in two parts. -/
theorem Padded.trans {a b : Nat} {be be' be'' : BeRegs} {m m' m'' : Memory} (hok : BeOk be) (h : Padded a be m be' m')
    (h' : Padded b be' m' be'' m'') : Padded (a + b) be m be'' m'' := by
  obtain ⟨k, hk8, hk31, hcount, hk, -⟩ := hok.exponent
  obtain ⟨k', hk8', hk31', hcount', hk', -⟩ := h.ok.exponent
  have hbase : be'.base.toNat = be.base.toNat := by rw [h.base]
  have hp := h.pos
  have hc := h.count
  have hp' := h'.pos
  have hc' := h'.count
  have hsm := h.small
  have hsm' := h'.small
  have hab' := h'.above
  rw [hk] at hp hc hsm
  rw [hk'] at hp' hc' hsm' hab'
  rw [hk'] at hsm
  have hsum : padBytes k (a + b) = padBytes k a + padBytes k' b := by
    unfold padBytes at *
    split at hc <;> split at hc' <;> (repeat' split) <;> omega
  refine ⟨h'.lc.trans h.lc, h'.base.trans h.base, h'.cap.trans h.cap, h'.ok, ?_, ?_, ?_, ?_, ?_, ?_, ?_, ?_⟩
  · rw [h'.range, h.range]
    (repeat' split) <;> omega
  · rw [h'.value, h.value, Nat.pow_add, Nat.mul_assoc]
  · rw [hk, hsum]
    omega
  · rw [hk, hsum]
    omega
  · rw [hk, hsum]
    intro hor
    apply hsm'
    rcases hor with h0 | h0
    · rcases Nat.eq_zero_or_pos (padBytes k a) with h1 | h1
      · exact .inl (by omega)
      · exact .inr (hsm (.inl h1))
    · exact .inr (hsm (.inr h0))
  · intro j hj hne x hx
    rcases Nat.eq_zero_or_pos (padBytes k a) with h0 | h0
    · have hq := h.quiet
      rw [hk] at hq
      obtain ⟨h1, rfl⟩ := hq h0
      exact h'.below j (by rw [h1]; exact hj) (by rw [hbase]; exact hne) x (by omega)
    · rw [hab' (hsm (.inl h0)) x (by omega), h.below j hj hne x hx]
  · rw [hk, hsum]
    intro h0
    have hq := h.quiet
    have hq' := h'.quiet
    rw [hk] at hq
    rw [hk'] at hq'
    obtain ⟨h1, h2⟩ := hq (by omega)
    obtain ⟨h3, h4⟩ := hq' (by omega)
    exact ⟨h3.trans h1, h4.trans h2⟩
  · rw [hk]
    intro hlow x hx
    rw [hab' (hsm (.inr hlow)) x (by omega), h.above (by rw [hk]; exact hlow) x hx]

/-- No padding bits. -/
theorem Padded.zero {be : BeRegs} {m : Memory} (hok : BeOk be) : Padded 0 be m be m := by
  obtain ⟨k, hk8, hk31, hcount, hk, -⟩ := hok.exponent
  have h0 := padBytes_zero hk31
  refine ⟨rfl, rfl, rfl, hok, rfl, by simp, by rw [hk, h0]; rfl, by rw [hk, h0]; simp, ?_, fun _ _ _ _ _ => rfl,
    fun _ => ⟨rfl, rfl⟩, fun _ _ _ => rfl⟩
  rw [hk, h0]
  rintro (h | h)
  · omega
  · exact h

/-- Everything the padding of a unit in its legal values does when it finishes. -/
theorem encPadding_ok {cfg : Config} {n : Nat} {be be' : BeRegs} {m m' : Memory} (hok : BeOk be)
    (h : encPadding cfg n be m = .ok (be', m')) : Padded n be m be' m' := by
  induction n generalizing be m with
  | zero => cases h; exact .zero hok
  | succ n ih =>
    obtain ⟨⟨b1, m1⟩, h1, h⟩ := bind_ok h
    have hp := encPad_one hok h1
    rw [Nat.add_comm]
    exact hp.trans hok (ih hp.ok h)

/-- What padding leaves alone in every state, legal or not, and the form of the memory it keeps. -/
theorem encPadding_frame {cfg : Config} {n : Nat} {be be' : BeRegs} {m m' : Memory}
    (h : encPadding cfg n be m = .ok (be', m')) :
    be'.lc = be.lc ∧ be'.base = be.base ∧ be'.cap = be.cap ∧ be.pos.toNat ≤ be'.pos.toNat ∧
    (∀ a, ¬ (be.base.toNat ≤ a ∧ a < be.base.toNat + be'.pos.toNat) → m'.read a = m.read a) ∧
    (be'.pos = be.pos → m' = m) ∧
    (Memory.wf m → Memory.wf m') ∧
    ((∀ e ∈ m, e.1 < memSize cfg) → ∀ e ∈ m', e.1 < memSize cfg) := by
  induction n generalizing be m with
  | zero => cases h; exact ⟨rfl, rfl, rfl, Nat.le_refl _, fun _ _ => rfl, fun _ => rfl, id, id⟩
  | succ n ih =>
    obtain ⟨⟨b1, m1⟩, h1, h⟩ := bind_ok h
    obtain ⟨hl, hb, hc, hp, hf, hq, -, hw, hi⟩ := encBit_frame h1
    obtain ⟨hl', hb', hc', hp', hf', hq', hw', hi'⟩ := ih h
    have hbn : b1.base.toNat = be.base.toNat := by rw [hb]
    dsimp only at hl' hb' hc' hp' hf' hq'
    refine ⟨hl'.trans hl, hb'.trans hb, hc'.trans hc, by omega, fun a ha => ?_, fun he => ?_, fun w => hw' (hw w),
      fun w => hi' (hi w)⟩
    · rw [hf' a (by omega), hf a (by omega)]
    · have hpn := congrArg BitVec.toNat he
      have h1 : b1.pos = be.pos := BitVec.eq_of_toNat_eq (by omega)
      rw [hq' (he.trans h1.symm), hq h1]

/-- What the padding needs so that the first byte's carry, if one is pending, stays in the output. -/
abbrev padCarryOk (be : BeRegs) (m : Memory) : Prop :=
  2 ^ (be.count.toInt + 32).toNat ≤ be.low.toNat → ∃ j, j < be.pos.toNat ∧ m.read (be.base.toNat + j) ≠ 0xFF

/-- A padding bit that finishes leaves nothing for a carry to be stopped by. -/
theorem encPad_carry {cfg : Config} {be be' : BeRegs} {m m' : Memory} (hok : BeOk be) (hc : padCarryOk be m)
    (h : encBit cfg false fairProb be m = .ok (be', m')) : padCarryOk be' m' := by
  intro hlow
  have hp := encPad_one hok h
  rcases Nat.eq_zero_or_pos (padBytes (be.count.toInt + 32).toNat 1) with h0 | h0
  · obtain ⟨hpos, rfl⟩ := hp.quiet h0
    rw [hpos, hp.base]
    apply hc
    by_contra hlt
    have := hp.small (.inr (by omega))
    omega
  · have := hp.small (.inl h0)
    omega

/-- With room for its bytes, and a byte below 0xFF if a carry is pending, the padding finishes. -/
theorem encPadding_finishes {cfg : Config} {n : Nat} {be : BeRegs} {m : Memory} (hok : BeOk be)
    (hfit : regionFits cfg be.base be.cap) (hc : padCarryOk be m)
    (hroom : be.pos.toNat + padBytes (be.count.toInt + 32).toNat n ≤ be.cap.toNat) :
    ∃ r, encPadding cfg n be m = .ok r := by
  induction n generalizing be m with
  | zero => exact ⟨_, rfl⟩
  | succ n ih =>
    obtain ⟨hs, -, hl, -⟩ := encPad_facts hok
    obtain ⟨k, hk8, hk31, hcount, hk, -⟩ := hok.exponent
    have hlast : k = 31 → be.pos.toNat < be.cap.toNat := by
      rintro rfl
      rw [hk, padBytes_emit] at hroom
      omega
    obtain ⟨⟨b1, m1⟩, h1⟩ := encBit_finishes (cfg := cfg) (bit := false) (p := fairProb) (m := m) hok (by simp) hfit (by
      rw [hs, hl]
      intro h
      exact ⟨hlast (by omega), hc⟩)
    have hp := encPad_one hok h1
    obtain ⟨k1, hk8', hk31', hcount', hk', -⟩ := hp.ok.exponent
    have hpos := hp.pos
    have hcnt := hp.count
    have hcap : b1.cap.toNat = be.cap.toNat := by rw [hp.cap]
    have hsum : padBytes k (n + 1) = padBytes k 1 + padBytes k1 n := by
      rw [hk] at hcnt
      unfold padBytes at *
      split at hcnt <;> (repeat' split) <;> omega
    rw [hk] at hpos hroom
    obtain ⟨q, hq⟩ := ih (be := b1) (m := m1) hp.ok (by rw [hp.base, hp.cap]; exact hfit) (encPad_carry hok hc h1)
      (by rw [hk']; omega)
    exact ⟨q, by rw [encPadding, h1, ok_bind]; exact hq⟩

/-- How padding of a unit in its legal values aborts: OUTPUT_OVERRUN for want of room, CARRY_UNDERFLOW in its first
byte, or (with a region outside the memory only) a stop. -/
theorem encPadding_raises {cfg : Config} {n : Nat} {be : BeRegs} {m : Memory} {e : Abort} (hok : BeOk be)
    (h : encPadding cfg n be m = .error e) :
    (e = .raise .outputOverrun ∧ be.cap.toNat < be.pos.toNat + padBytes (be.count.toInt + 32).toNat n) ∨
    (e = .raise .carryUnderflow ∧ be.pos.toNat < be.cap.toNat ∧ ¬ padCarryOk be m) ∨
    (e = .stop .addressOutsideMemory ∧ memSize cfg < be.base.toNat + be.cap.toNat) := by
  induction n generalizing be m with
  | zero => cases h
  | succ n ih =>
    obtain ⟨hs, -, hl, -⟩ := encPad_facts hok
    obtain ⟨k, hk8, hk31, hcount, hk, -⟩ := hok.exponent
    rcases bind_error h with h | ⟨⟨b1, m1⟩, h1, h⟩
    · have hc := (encBit_error h).1
      rw [hs] at hc
      obtain rfl : k = 31 := by omega
      rcases encBit_raises hok (by simp) h with ⟨he, h'⟩ | ⟨he, hr, hlow, hff⟩ | he
      · exact .inl ⟨he, by rw [hk, padBytes_emit]; omega⟩
      · rw [hl] at hlow
        refine .inr (.inl ⟨he, hr, fun hc => ?_⟩)
        obtain ⟨j, hj, hne⟩ := hc hlow
        exact hne (hff j hj)
      · exact .inr (.inr he)
    · have hp := encPad_one hok h1
      obtain ⟨k1, hk8', hk31', hcount', hk', -⟩ := hp.ok.exponent
      have hpos := hp.pos
      have hcnt := hp.count
      have hcap : b1.cap.toNat = be.cap.toNat := by rw [hp.cap]
      have hsum : padBytes k (n + 1) = padBytes k 1 + padBytes k1 n := by
        rw [hk] at hcnt
        unfold padBytes at *
        split at hcnt <;> (repeat' split) <;> omega
      rw [hk] at hpos ⊢
      rcases ih (be := b1) (m := m1) hp.ok h with ⟨he, hr⟩ | ⟨he, hr, hn⟩ | ⟨he, hr⟩
      · rw [hk'] at hr
        exact .inl ⟨he, by omega⟩
      · exact .inr (.inl ⟨he, by omega, fun hc => hn (encPad_carry hok hc h1)⟩)
      · rw [hp.base, hp.cap] at hr
        exact .inr (.inr ⟨he, hr⟩)

/-- With room for the first byte, a pending carry with only 0xFF bytes below it underflows. -/
theorem encPadding_underflows {cfg : Config} {n : Nat} {be : BeRegs} {m : Memory} (hok : BeOk be)
    (hfit : regionFits cfg be.base be.cap) (hn : 0 < padBytes (be.count.toInt + 32).toNat n)
    (hroom : be.pos.toNat < be.cap.toNat) (hcarry : 2 ^ (be.count.toInt + 32).toNat ≤ be.low.toNat)
    (hff : ∀ j, j < be.pos.toNat → m.read (be.base.toNat + j) = 0xFF) :
    encPadding cfg n be m = .error (.raise .carryUnderflow) := by
  induction n generalizing be m with
  | zero =>
    obtain ⟨k, -, hk31, -, hk, -⟩ := hok.exponent
    rw [hk, padBytes_zero hk31] at hn
    omega
  | succ n ih =>
    obtain ⟨hs, -, hl, -⟩ := encPad_facts hok
    obtain ⟨k, hk8, hk31, hcount, hk, -⟩ := hok.exponent
    by_cases hc : be.count.toInt + encShift false fairProb be < 0
    · obtain ⟨b1, h1⟩ := encBit_quiet cfg (bit := false) (p := fairProb) (be := be) m hc
      have hst := encBit_ok hok (by simp) h1
      obtain ⟨hpos, -, hcnt, hlow⟩ := hst.quiet hc
      rw [hs] at hc hcnt hlow
      have hk' : (b1.count.toInt + 32).toNat = k + 1 := by omega
      rw [encPadding, h1, ok_bind]
      refine ih hst.ok (by rw [hst.base, hst.cap]; exact hfit) ?_ (by rw [hpos, hst.cap]; exact hroom) ?_
        (by rw [hpos, hst.base]; exact hff)
      · rw [hk', ← padBytes_quiet, ← hk]
        exact hn
      · rw [hk', hlow, Nat.pow_succ]
        rw [hk] at hcarry
        omega
    · rw [encPadding, encBit_underflows hok (by simp) hfit (by omega) hroom (by rw [hl]; exact hcarry) hff, error_bind]

/-- After the 32 padding bits nothing is left in `low` (spec R106), and the output holds the whole code value. -/
theorem encPadding_flushes {cfg : Config} {be be' : BeRegs} {m m' : Memory} (hok : BeOk be)
    (h : encPadding cfg beStopPadding be m = .ok (be', m')) :
    be'.low = 0 ∧ regionValue m' be'.base.toNat be'.pos.toNat * 2 ^ (be'.count.toInt + 32).toNat =
      codeValue be m * 2 ^ 32 := by
  have hp := encPadding_ok hok h
  obtain ⟨k, hk8, hk31, -, hk, -⟩ := hok.exponent
  obtain ⟨k', hk8', hk31', -, hk', -⟩ := hp.ok.exponent
  have hv := hp.value
  have hs := hp.small
  rw [codeValue, hk', beStopPadding] at hv
  rw [hk, hk'] at hs
  have hlt : be'.low.toNat < 2 ^ k' := hs (.inl (by unfold padBytes beStopPadding; split <;> omega))
  have hdvd : 2 ^ k' ∣ codeValue be m * 2 ^ 32 := dvd_mul_of_dvd_right (pow_dvd_pow 2 (by omega)) _
  rw [← hv] at hdvd
  have h0 : be'.low.toNat = 0 :=
    Nat.eq_zero_of_dvd_of_lt ((Nat.dvd_add_right (Dvd.intro_left _ rfl)).mp hdvd) hlt
  refine ⟨BitVec.eq_of_toNat_eq h0, ?_⟩
  rw [hk', ← hv, h0, Nat.add_zero]

/-! ### The guard byte -/

/-- The guard byte is called for: STOP_GUARD = 1 and the last byte is `110xxxxx` (spec R106). -/
def guardCalled (cfg : Config) (be : BeRegs) (m : Memory) : Bool :=
  cfg.stopGuard && m.read (be.base.toNat + be.pos.toNat - 1) &&& 0xE0 == 0xC0

/-- The mask test of spec R106 is a test of the top three bits. -/
theorem guardMask (b : Byte) : (b &&& 0xE0 == 0xC0) = decide (b.toNat / 32 = 6) := by
  revert b
  decide

/-- The guard byte's step, with the last byte in the memory. -/
theorem guardByte_eq {cfg : Config} {be : BeRegs} {m : Memory} (hin : be.base.toNat + be.pos.toNat - 1 < memSize cfg) :
    guardByte cfg be m =
      if guardCalled cfg be m then
        (if be.pos.toNat < be.cap.toNat then
          (memWrite cfg m (be.base.toNat + be.pos.toNat) 0).bind fun m' => .ok ({ be with pos := be.pos + 1 }, m')
        else .error (.raise .outputOverrun))
      else .ok (be, m) := by
  unfold guardByte guardCalled
  rw [memRead_eq_ok hin]
  cases cfg.stopGuard
  · rfl
  · simp only [if_true, ok_bind, Bool.true_and, beq_iff_eq]
    split
    · unfold require
      split <;> rfl
    · rfl

/-- Everything the guard byte's step does when it finishes, in every state. -/
theorem guardByte_ok {cfg : Config} {be be' : BeRegs} {m m' : Memory} (h : guardByte cfg be m = .ok (be', m')) :
    (be' = be ∧ m' = m ∧ guardCalled cfg be m = false) ∨
    (guardCalled cfg be m = true ∧ be.pos.toNat < be.cap.toNat ∧ be.base.toNat + be.pos.toNat < memSize cfg ∧
      be' = { be with pos := be.pos + 1 } ∧ m' = m.write (be.base.toNat + be.pos.toNat) 0) := by
  unfold guardByte at h
  unfold guardCalled
  split at h
  · rename_i hg
    obtain ⟨b, hb, h⟩ := bind_ok h
    obtain ⟨-, rfl⟩ := memRead_cases hb
    split at h
    · rename_i hm
      obtain ⟨_, hr, h⟩ := bind_ok h
      obtain ⟨m1, hw, h⟩ := bind_ok h
      obtain ⟨hin, rfl⟩ := memWrite_cases hw
      cases h
      exact .inr ⟨by rw [hg, Bool.true_and, beq_iff_eq]; exact hm, require_ok hr, hin, rfl, rfl⟩
    · rename_i hm
      cases h
      exact .inl ⟨rfl, rfl, by rw [hg, Bool.true_and]; exact beq_false_of_ne hm⟩
  · rename_i hg
    cases h
    exact .inl ⟨rfl, rfl, by rw [Bool.eq_false_of_not_eq_true hg]; rfl⟩

/-- How the guard byte's step aborts: no room for the byte it calls for, or (with output outside the memory only) a
stop. -/
theorem guardByte_raises {cfg : Config} {be : BeRegs} {m : Memory} {e : Abort} (h : guardByte cfg be m = .error e) :
    (e = .raise .outputOverrun ∧ guardCalled cfg be m = true ∧ be.cap.toNat ≤ be.pos.toNat) ∨
    (e = .stop .addressOutsideMemory ∧ ¬ (regionFits cfg be.base be.cap ∧ be.pos.toNat ≤ be.cap.toNat)) := by
  by_cases hin : be.base.toNat + be.pos.toNat - 1 < memSize cfg
  · rw [guardByte_eq hin] at h
    split at h
    · split at h
      · unfold memWrite at h
        split at h
        · cases h
        · cases h
          exact .inr ⟨rfl, fun ⟨⟨_, _⟩, _⟩ => by omega⟩
      · cases h
        exact .inl ⟨rfl, ‹_›, by omega⟩
    · cases h
  · unfold guardByte memRead at h
    simp only [if_neg hin, error_bind] at h
    split at h
    · cases h
      exact .inr ⟨rfl, fun ⟨⟨_, _⟩, _⟩ => by omega⟩
    · cases h

end Sys2Proof.Machine
end

