-- ==== Sys2Proof/Laws/Decode.lean ====
section
/-! SUPPORT. The bits and fields of a command word (spec R71). -/

namespace Sys2Proof

/-- The bits of a command word: RSV, B, A, CTX and OP from bit 0 up (spec R71). -/
theorem commandWord_getLsbD (op ctx : BitVec 4) (a b : BitVec 8) (i : Nat) :
    (commandWord op ctx a b).getLsbD i =
      if i < 8 then false else if i < 16 then b.getLsbD (i - 8) else if i < 24 then a.getLsbD (i - 16)
      else if i < 28 then ctx.getLsbD (i - 24) else op.getLsbD (i - 28) := by
  unfold commandWord
  erw [BitVec.getLsbD_append, BitVec.getLsbD_append, BitVec.getLsbD_append, BitVec.getLsbD_append]
  split
  · simp
  · rename_i h1
    rw [show i - 8 - 8 = i - 16 by omega, show i - 16 - 8 = i - 24 by omega, show i - 24 - 4 = i - 28 by omega]
    by_cases h2 : i < 16
    · rw [if_pos h2, if_pos (by omega : i - 8 < 8)]
    · rw [if_neg h2, if_neg (by omega : ¬ i - 8 < 8)]
      by_cases h3 : i < 24
      · rw [if_pos h3, if_pos (by omega : i - 16 < 8)]
      · rw [if_neg h3, if_neg (by omega : ¬ i - 16 < 8)]
        by_cases h4 : i < 28
        · rw [if_pos h4, if_pos (by omega : i - 24 < 4)]
        · rw [if_neg h4, if_neg (by omega : ¬ i - 24 < 4)]
@[simp] theorem opField_commandWord (op ctx : BitVec 4) (a b : BitVec 8) :
    opField (commandWord op ctx a b) = op := by
  ext i hi
  simp only [opField, BitVec.getElem_extractLsb', commandWord_getLsbD]
  rw [if_neg (by omega), if_neg (by omega), if_neg (by omega), if_neg (by omega)]
  simp [BitVec.getLsbD_eq_getElem hi]

@[simp] theorem ctxField_commandWord (op ctx : BitVec 4) (a b : BitVec 8) :
    ctxField (commandWord op ctx a b) = ctx := by
  ext i hi
  simp only [ctxField, BitVec.getElem_extractLsb', commandWord_getLsbD]
  rw [if_neg (by omega), if_neg (by omega), if_neg (by omega), if_pos (by omega)]
  simp [BitVec.getLsbD_eq_getElem hi]

@[simp] theorem aField_commandWord (op ctx : BitVec 4) (a b : BitVec 8) :
    aField (commandWord op ctx a b) = a := by
  ext i hi
  simp only [aField, BitVec.getElem_extractLsb', commandWord_getLsbD]
  rw [if_neg (by omega), if_neg (by omega), if_pos (by omega)]
  simp [BitVec.getLsbD_eq_getElem hi]

@[simp] theorem bField_commandWord (op ctx : BitVec 4) (a b : BitVec 8) :
    bField (commandWord op ctx a b) = b := by
  ext i hi
  simp only [bField, BitVec.getElem_extractLsb', commandWord_getLsbD]
  rw [if_neg (by omega), if_pos (by omega)]
  simp [BitVec.getLsbD_eq_getElem hi]

@[simp] theorem rsvField_commandWord (op ctx : BitVec 4) (a b : BitVec 8) :
    rsvField (commandWord op ctx a b) = 0#8 := by
  ext i hi
  simp only [rsvField, BitVec.getElem_extractLsb', commandWord_getLsbD]
  rw [if_pos (by omega)]
  simp

/-- A word with `RSV = 0` is its other four fields (spec R71). -/
theorem word_eq_fields (w : Word) (h : rsvField w = 0#8) :
    commandWord (opField w) (ctxField w) (aField w) (bField w) = w := by
  apply BitVec.eq_of_getLsbD_eq
  intro i hi
  rw [commandWord_getLsbD]
  have hr : i < 8 → w.getLsbD i = false := by
    intro hi8
    have := congrArg (fun v => v.getLsbD i) h
    simpa [rsvField, BitVec.getLsbD_extractLsb', hi8] using this
  simp only [opField, ctxField, aField, bField, BitVec.getLsbD_extractLsb']
  split
  · rw [hr ‹_›]
  · split
    · rw [show 8 + (i - 8) = i by omega]; simp; omega
    · split
      · rw [show 16 + (i - 16) = i by omega]; simp; omega
      · split
        · rw [show 24 + (i - 24) = i by omega]; simp; omega
        · rw [show 28 + (i - 28) = i by omega]; simp; omega

end Sys2Proof
end

