-- ==== Sys2Proof/Laws/SymbolQueue.lean ====
section
/-! SUPPORT. What the symbol queue's shared steps can do (spec R160 to R164): an append, the step of a record, and the
loop of SQ_FLUSH. -/

namespace Sys2Proof.Machine

/-! ### Records -/

theorem uabsRecord_valid (b : Bool) {p : BitVec 8} (h : p ≠ 0) : (uabsRecord b p).valid = true := by
  cases b <;> simpa [uabsRecord, SqRecord.valid] using h

theorem ransRecord_valid {cum prob : BitVec 8} (h : prob ≠ 0) (hs : cum.toNat + prob.toNat ≤ 256) :
    (ransRecord cum prob).valid = true := by
  simpa [ransRecord, SqRecord.valid, hs] using h

/-- A record below `SQ.len` was written (spec R32), and is valid (spec R160). -/
theorem SqOk.readRecord_valid {cfg : Config} {sq : SqRegs} (h : SqOk cfg sq) (c : BitVec 4) {i : Nat}
    (hi : i < sq.len.toNat) : (readRecord c sq.recs i).valid = true := by
  obtain ⟨r, hr⟩ := Option.isSome_iff_exists.mp (h.written i hi)
  rw [readRecord, hr]
  exact h.valid _ (mem_of_lookupAt hr)

theorem readRecord_insertAt_self (c : BitVec 4) (recs : RecordStore) (i : Nat) (r : SqRecord) :
    readRecord c (insertAt i r recs) i = r := by
  simp [readRecord, lookupAt_insertAt_self]

theorem readRecord_insertAt_ne (c : BitVec 4) (recs : RecordStore) {i k : Nat} (r : SqRecord) (h : k ≠ i) :
    readRecord c (insertAt i r recs) k = readRecord c recs k := by
  simp [readRecord, lookupAt_insertAt_ne r recs h]

/-! ### Appending -/

theorem sqAppend_eq {r : SqRecord} {sq : SqRegs} (h : sq.len.toNat < sq.cap.toNat) :
    sqAppend r sq = .ok { sq with recs := insertAt sq.len.toNat r sq.recs, len := sq.len + 1 } := by
  rw [sqAppend, require_true h, ok_bind]

theorem sqAppend_full {r : SqRecord} {sq : SqRegs} (h : sq.cap.toNat ≤ sq.len.toNat) :
    sqAppend r sq = .error (.raise .queueFull) := by
  rw [sqAppend, require_false (by omega), error_bind]

theorem sqAppend_ok {r : SqRecord} {sq sq' : SqRegs} (h : sqAppend r sq = .ok sq') :
    sq.len.toNat < sq.cap.toNat ∧ sq' = { sq with recs := insertAt sq.len.toNat r sq.recs, len := sq.len + 1 } := by
  obtain ⟨_, hr, h⟩ := bind_ok h
  cases h
  exact ⟨require_ok hr, rfl⟩

theorem sqAppend_error {r : SqRecord} {sq : SqRegs} {e : Abort} (h : sqAppend r sq = .error e) :
    e = .raise .queueFull ∧ sq.cap.toNat ≤ sq.len.toNat := by
  rcases bind_error h with h | ⟨_, -, h⟩
  · obtain ⟨rfl, hn⟩ := require_error h
    exact ⟨rfl, by omega⟩
  · cases h

theorem sqLen_succ {sq : SqRegs} (h : sq.len.toNat < sq.cap.toNat) : (sq.len + 1).toNat = sq.len.toNat + 1 := by
  have := sq.cap.isLt
  rw [BitVec.toNat_add]
  simp
  omega

/-- Appending a valid record keeps the queue's legal values. -/
theorem SqOk.append {cfg : Config} {r : SqRecord} {sq sq' : SqRegs} (hok : SqOk cfg sq) (hv : r.valid = true)
    (h : sqAppend r sq = .ok sq') : SqOk cfg sq' := by
  obtain ⟨hroom, rfl⟩ := sqAppend_ok h
  have hlen := sqLen_succ hroom
  have hcap := hok.capacity
  refine ⟨hcap, by simp only [hlen]; omega, keysRise_insertAt _ _ hok.rising, fun e he => ?_, fun e he => ?_,
    fun i hi => ?_⟩
  · rcases mem_insertAt he with rfl | he
    · dsimp only
      omega
    · exact hok.inside e he
  · rcases mem_insertAt he with rfl | he
    · exact hv
    · exact hok.valid e he
  · simp only [hlen] at hi
    by_cases h : i = sq.len.toNat
    · subst h
      simp [lookupAt_insertAt_self]
    · simp only [lookupAt_insertAt_ne r sq.recs h]
      exact hok.written i (by omega)

/-! ### The step of a record -/

theorem recordStep_ok {cfg : Config} {r : SqRecord} {ans ans' : AnsRegs} {m m' : Memory}
    (h : recordStep cfg r ans m = .ok (ans', m')) : AnsGrows cfg ans m ans' m' := by
  unfold recordStep at h
  split at h
  · exact ransStep_ok h
  · exact uabsStep_ok h

theorem recordStep_error {cfg : Config} {r : SqRecord} {ans : AnsRegs} {m : Memory} {e : Abort}
    (h : recordStep cfg r ans m = .error e) :
    e = .raise .outputOverrun ∨
    (e = .stop .addressOutsideMemory ∧ memSize cfg < ans.base.toNat + ans.cap.toNat) := by
  unfold recordStep at h
  split at h
  · exact ransStep_error h
  · exact uabsStep_error h

/-- What a valid record says of its operands (spec R160). -/
theorem SqRecord.valid_bounds {r : SqRecord} (h : r.valid = true) :
    1 ≤ r.prob.toNat ∧ r.prob.toNat ≤ 255 ∧ (r.tag = .uabs → r.vs.toNat ≤ 1) ∧
      (r.tag = .rans → r.vs.toNat + r.prob.toNat ≤ 256) := by
  obtain ⟨tag, vs, prob⟩ := r
  have hp := prob.isLt
  have hne : prob ≠ 0 → 1 ≤ prob.toNat := fun h => by
    rcases Nat.eq_zero_or_pos prob.toNat with h0 | h0
    · exact absurd (BitVec.eq_of_toNat_eq (by simpa using h0)) h
    · exact h0
  cases tag
  · simp only [SqRecord.valid, Bool.and_eq_true, decide_eq_true_eq, bne_iff_ne] at h
    exact ⟨hne h.2, by dsimp only; omega, fun _ => h.1, fun h => by cases h⟩
  · simp only [SqRecord.valid, Bool.and_eq_true, bne_iff_ne, probScale] at h
    exact ⟨hne h.1, by dsimp only; omega, (fun h => by cases h), fun _ => of_decide_eq_true h.2⟩

/-- A valid record keeps the state in its interval and puts at most one byte (spec R146). -/
theorem recordStep_inRange {cfg : Config} {r : SqRecord} {ans ans' : AnsRegs} {m m' : Memory} (hv : r.valid = true)
    (hx : ansInRange ans.x.toNat) (h : recordStep cfg r ans m = .ok (ans', m')) :
    ansInRange ans'.x.toNat ∧ ans'.off.toNat ≤ ans.off.toNat + 1 := by
  obtain ⟨h1, h255, hu, hr⟩ := SqRecord.valid_bounds hv
  unfold recordStep at h
  split at h
  · exact ransStep_inRange h1 (hr ‹_›) hx h
  · exact uabsStep_inRange (hu ‹_›) h1 h255 hx h

/-- With a byte of room, inside the memory, a valid record's step finishes. -/
theorem recordStep_finishes {cfg : Config} {r : SqRecord} {ans : AnsRegs} (m : Memory) (hv : r.valid = true)
    (hx : ansInRange ans.x.toNat) (hfit : regionFits cfg ans.base ans.cap) (hroom : ans.off.toNat < ans.cap.toNat) :
    ∃ q, recordStep cfg r ans m = .ok q := by
  obtain ⟨h1, h255, -, -⟩ := SqRecord.valid_bounds hv
  unfold recordStep
  split
  · obtain ⟨q, hq⟩ := ansRenorm_finishes m h1 hx hfit hroom
    exact ⟨_, by rw [ransStep, hq, ok_bind]⟩
  · obtain ⟨q, hq⟩ := ansRenorm_finishes m (uabsLs_bounds (bit := r.vs.toNat) h1 h255).1 hx hfit hroom
    exact ⟨_, by rw [uabsStep, hq, ok_bind]⟩

/-- The step of a valid record that needs a byte overruns when there is no room. -/
theorem recordStep_full (cfg : Config) {r : SqRecord} {ans : AnsRegs} (m : Memory) (hv : r.valid = true)
    (hroom : ans.cap.toNat ≤ ans.off.toNat)
    (hx : 1024 * (if r.tag = .uabs ∧ r.vs = 1 then 256 - r.prob.toNat else r.prob.toNat) ≤ ans.x.toNat) :
    recordStep cfg r ans m = .error (.raise .outputOverrun) := by
  obtain ⟨-, -, hu, -⟩ := SqRecord.valid_bounds hv
  obtain ⟨tag, vs, prob⟩ := r
  cases tag
  · have hls : uabsLs vs.toNat prob.toNat = if vs = 1 then 256 - prob.toNat else prob.toNat := by
      have h1 : vs.toNat = 1 ↔ vs = 1 := ⟨fun h => BitVec.eq_of_toNat_eq h, fun h => by rw [h]; rfl⟩
      simp only [uabsLs, probScale, h1]
    simp only [true_and] at hx
    simp only [recordStep, uabsStep, ansRenorm_full cfg m (hls ▸ hx) hroom, error_bind]
  · simp only [reduceCtorEq, false_and, if_false] at hx
    simp only [recordStep, ransStep, ansRenorm_full cfg m hx hroom, error_bind]

/-! ### The loop of SQ_FLUSH -/

theorem flushFrom_ok {cfg : Config} {c : BitVec 4} {recs : RecordStore} {n : Nat} {ans ans' : AnsRegs} {m m' : Memory}
    (h : flushFrom cfg c recs n ans m = .ok (ans', m')) : AnsGrows cfg ans m ans' m' := by
  induction n generalizing ans m with
  | zero => cases h; exact .refl ..
  | succ n ih =>
    obtain ⟨⟨a1, m1⟩, hs, h⟩ := bind_ok h
    exact (recordStep_ok hs).trans (ih h)

theorem flushFrom_error {cfg : Config} {c : BitVec 4} {recs : RecordStore} {n : Nat} {ans : AnsRegs} {m : Memory}
    {e : Abort} (h : flushFrom cfg c recs n ans m = .error e) :
    e = .raise .outputOverrun ∨
    (e = .stop .addressOutsideMemory ∧ memSize cfg < ans.base.toNat + ans.cap.toNat) := by
  induction n generalizing ans m with
  | zero => cases h
  | succ n ih =>
    rcases bind_error h with h | ⟨⟨a1, m1⟩, hs, h⟩
    · exact recordStep_error h
    · have hg := recordStep_ok hs
      rw [← hg.base, ← hg.cap]
      exact ih h

theorem flushFrom_inRange {cfg : Config} {c : BitVec 4} {recs : RecordStore} {n : Nat} {ans ans' : AnsRegs}
    {m m' : Memory} (hv : ∀ i, i < n → (readRecord c recs i).valid = true) (hx : ansInRange ans.x.toNat)
    (h : flushFrom cfg c recs n ans m = .ok (ans', m')) :
    ansInRange ans'.x.toNat ∧ ans'.off.toNat ≤ ans.off.toNat + n := by
  induction n generalizing ans m with
  | zero => cases h; exact ⟨hx, Nat.le_refl _⟩
  | succ n ih =>
    obtain ⟨⟨a1, m1⟩, hs, h⟩ := bind_ok h
    obtain ⟨hx1, ho1⟩ := recordStep_inRange (hv n (by omega)) hx hs
    obtain ⟨hx2, ho2⟩ := ih (fun i hi => hv i (by omega)) hx1 h
    exact ⟨hx2, by omega⟩

/-- With a byte of room for each valid record, inside the memory, the loop finishes. -/
theorem flushFrom_finishes {cfg : Config} {c : BitVec 4} {recs : RecordStore} {n : Nat} {ans : AnsRegs} (m : Memory)
    (hv : ∀ i, i < n → (readRecord c recs i).valid = true) (hx : ansInRange ans.x.toNat)
    (hfit : regionFits cfg ans.base ans.cap) (hroom : ans.off.toNat + n ≤ ans.cap.toNat) :
    ∃ q, flushFrom cfg c recs n ans m = .ok q := by
  induction n generalizing ans m with
  | zero => exact ⟨_, rfl⟩
  | succ n ih =>
    obtain ⟨⟨a1, m1⟩, hs⟩ := recordStep_finishes m (hv n (by omega)) hx hfit (by omega)
    have hg := recordStep_ok hs
    obtain ⟨hx1, ho1⟩ := recordStep_inRange (hv n (by omega)) hx hs
    have hfit1 : regionFits cfg a1.base a1.cap := by rw [hg.base, hg.cap]; exact hfit
    have hc : a1.cap.toNat = ans.cap.toNat := by rw [hg.cap]
    obtain ⟨q, hq⟩ := ih (ans := a1) m1 (fun i hi => hv i (by omega)) hx1 hfit1 (by omega)
    exact ⟨q, by rw [flushFrom, hs, ok_bind]; exact hq⟩

end Sys2Proof.Machine
end

