-- ==== Sys2Proof/Laws/Exec.lean ====
section
/-! SUPPORT. Everything `exec` can do, once: it refuses, finds no such context, finishes as `Ran` says, or aborts as
`Aborts` says. Later proofs cite these and do not unfold a command. -/

namespace Sys2Proof.Machine

/-- What a command that finished did, in the shared steps' own terms. -/
def Ran (s : State) (d : Done) : Instr → Prop
  | .beStart c base len => regionFits s.cfg base len ∧
      d = ⟨{ s.ctx c with be := ⟨.active, 0, 128, -24, 0, base, len⟩ }, s.mem, 0⟩
  | .beWrite c a p => (s.ctx c).be.lc = .active ∧ p ≠ 0 ∧ ∃ be' m',
      encBit s.cfg (bitOperand a) p.toNat (s.ctx c).be s.mem = .ok (be', m') ∧ d = ⟨{ s.ctx c with be := be' }, m', 0⟩
  | .beStop c => (s.ctx c).be.lc = .active ∧ ∃ be1 m1 be2 m2,
      encPadding s.cfg beStopPadding (s.ctx c).be s.mem = .ok (be1, m1) ∧ guardByte s.cfg be1 m1 = .ok (be2, m2) ∧
      d = ⟨{ s.ctx c with be := { be2 with lc := .final } }, m2, be2.pos⟩
  | .bdInit c base len => regionFits s.cfg base len ∧ ∃ v b bd',
      streamByte s.cfg { (s.ctx c).bd with base := base, size := len } s.mem 0 = .ok v ∧
      decBit s.cfg fairProb ⟨.active, v, 255, 8, base, len⟩ s.mem = .ok (b, bd') ∧
      d = ⟨{ s.ctx c with bd := bd' }, s.mem, bitWord b⟩
  | .bdRead c p => (s.ctx c).bd.lc = .active ∧ p ≠ 0 ∧ ∃ b bd',
      decBit s.cfg p.toNat (s.ctx c).bd s.mem = .ok (b, bd') ∧ d = ⟨{ s.ctx c with bd := bd' }, s.mem, bitWord b⟩
  | .ansInit c base len => regionFits s.cfg base len ∧
      d = ⟨{ s.ctx c with ans := ⟨.active, 1024, 0, base, len⟩ }, s.mem, 0⟩
  | .ansUabs c a p0 => (s.ctx c).ans.lc = .active ∧ p0 ≠ 0 ∧ ∃ ans' m',
      uabsStep s.cfg (bitOperand a).toNat p0.toNat (s.ctx c).ans s.mem = .ok (ans', m') ∧
      d = ⟨{ s.ctx c with ans := ans' }, m', 0⟩
  | .ansRans c cum prob => (s.ctx c).ans.lc = .active ∧ prob ≠ 0 ∧ cum.toNat + prob.toNat ≤ 256 ∧ ∃ ans' m',
      ransStep s.cfg cum.toNat prob.toNat (s.ctx c).ans s.mem = .ok (ans', m') ∧
      d = ⟨{ s.ctx c with ans := ans' }, m', 0⟩
  | .ansEnd c => (s.ctx c).ans.lc = .active ∧ ansInRange (s.ctx c).ans.x.toNat ∧ ∃ ans' m',
      ansPutAll s.cfg (ansEndBytes ((s.ctx c).ans.x.toNat - ansL)) (s.ctx c).ans s.mem = .ok (ans', m') ∧
      d = ⟨{ s.ctx c with ans := { ans' with lc := .final } }, m', ans'.off⟩
  | .sqInit c capacity => capacity.toNat ≤ s.cfg.sqMax ∧
      d = ⟨{ s.ctx c with sq := { (s.ctx c).sq with cap := capacity, len := 0, lc := .active } }, s.mem, 0⟩
  | .sqUabs c a p => (s.ctx c).sq.lc = .active ∧ p ≠ 0 ∧ ∃ sq',
      sqAppend (uabsRecord (bitOperand a) p) (s.ctx c).sq = .ok sq' ∧ d = ⟨{ s.ctx c with sq := sq' }, s.mem, 0⟩
  | .sqRans c cum prob => (s.ctx c).sq.lc = .active ∧ prob ≠ 0 ∧ cum.toNat + prob.toNat ≤ 256 ∧ ∃ sq',
      sqAppend (ransRecord cum prob) (s.ctx c).sq = .ok sq' ∧ d = ⟨{ s.ctx c with sq := sq' }, s.mem, 0⟩
  | .sqFlush c => (s.ctx c).sq.lc = .active ∧ (s.ctx c).ans.lc = .active ∧ ∃ ans' m',
      flushFrom s.cfg c (s.ctx c).sq.recs (s.ctx c).sq.len.toNat (s.ctx c).ans s.mem = .ok (ans', m') ∧
      d = ⟨{ s.ctx c with ans := ans', sq := { (s.ctx c).sq with lc := .final } }, m', (s.ctx c).sq.len⟩
  | .regRead c n => ∃ r, regOf n = some r ∧ d = ⟨s.ctx c, s.mem, regValue s (s.ctx c) r⟩

/-- Why a command's working copy was dropped, in the shared steps' own terms. -/
def Aborts (s : State) (e : Abort) : Instr → Prop
  | .beStart _ base len => e = .raise .badRegion ∧ ¬ regionFits s.cfg base len
  | .beWrite c a p =>
      (e = .raise .lifecycle ∧ (s.ctx c).be.lc ≠ .active) ∨
      ((s.ctx c).be.lc = .active ∧ e = .raise .badProbability ∧ p = 0) ∨
      ((s.ctx c).be.lc = .active ∧ p ≠ 0 ∧ encBit s.cfg (bitOperand a) p.toNat (s.ctx c).be s.mem = .error e)
  | .beStop c =>
      (e = .raise .lifecycle ∧ (s.ctx c).be.lc ≠ .active) ∨
      ((s.ctx c).be.lc = .active ∧ (encPadding s.cfg beStopPadding (s.ctx c).be s.mem = .error e ∨
        ∃ be1 m1, encPadding s.cfg beStopPadding (s.ctx c).be s.mem = .ok (be1, m1) ∧
          guardByte s.cfg be1 m1 = .error e))
  | .bdInit _ base len => e = .raise .badRegion ∧ ¬ regionFits s.cfg base len
  | .bdRead c p =>
      (e = .raise .lifecycle ∧ (s.ctx c).bd.lc ≠ .active) ∨
      ((s.ctx c).bd.lc = .active ∧ e = .raise .badProbability ∧ p = 0) ∨
      ((s.ctx c).bd.lc = .active ∧ p ≠ 0 ∧ decBit s.cfg p.toNat (s.ctx c).bd s.mem = .error e)
  | .ansInit _ base len => e = .raise .badRegion ∧ ¬ regionFits s.cfg base len
  | .ansUabs c a p0 =>
      (e = .raise .lifecycle ∧ (s.ctx c).ans.lc ≠ .active) ∨
      ((s.ctx c).ans.lc = .active ∧ e = .raise .badProbability ∧ p0 = 0) ∨
      ((s.ctx c).ans.lc = .active ∧ p0 ≠ 0 ∧
        uabsStep s.cfg (bitOperand a).toNat p0.toNat (s.ctx c).ans s.mem = .error e)
  | .ansRans c cum prob =>
      (e = .raise .lifecycle ∧ (s.ctx c).ans.lc ≠ .active) ∨
      ((s.ctx c).ans.lc = .active ∧ e = .raise .badProbability ∧ prob = 0) ∨
      ((s.ctx c).ans.lc = .active ∧ prob ≠ 0 ∧ e = .raise .badSymbolRange ∧ 256 < cum.toNat + prob.toNat) ∨
      ((s.ctx c).ans.lc = .active ∧ prob ≠ 0 ∧ cum.toNat + prob.toNat ≤ 256 ∧
        ransStep s.cfg cum.toNat prob.toNat (s.ctx c).ans s.mem = .error e)
  | .ansEnd c =>
      (e = .raise .lifecycle ∧ (s.ctx c).ans.lc ≠ .active) ∨
      ((s.ctx c).ans.lc = .active ∧ e = .raise .ansStateInvariant ∧ ¬ ansInRange (s.ctx c).ans.x.toNat) ∨
      ((s.ctx c).ans.lc = .active ∧ ansInRange (s.ctx c).ans.x.toNat ∧
        ansPutAll s.cfg (ansEndBytes ((s.ctx c).ans.x.toNat - ansL)) (s.ctx c).ans s.mem = .error e)
  | .sqInit _ capacity => e = .raise .badCapacity ∧ s.cfg.sqMax < capacity.toNat
  | .sqUabs c _ p =>
      (e = .raise .lifecycle ∧ (s.ctx c).sq.lc ≠ .active) ∨
      ((s.ctx c).sq.lc = .active ∧ e = .raise .badProbability ∧ p = 0) ∨
      ((s.ctx c).sq.lc = .active ∧ p ≠ 0 ∧ e = .raise .queueFull ∧ (s.ctx c).sq.cap.toNat ≤ (s.ctx c).sq.len.toNat)
  | .sqRans c cum prob =>
      (e = .raise .lifecycle ∧ (s.ctx c).sq.lc ≠ .active) ∨
      ((s.ctx c).sq.lc = .active ∧ e = .raise .badProbability ∧ prob = 0) ∨
      ((s.ctx c).sq.lc = .active ∧ prob ≠ 0 ∧ e = .raise .badSymbolRange ∧ 256 < cum.toNat + prob.toNat) ∨
      ((s.ctx c).sq.lc = .active ∧ prob ≠ 0 ∧ cum.toNat + prob.toNat ≤ 256 ∧
        e = .raise .queueFull ∧ (s.ctx c).sq.cap.toNat ≤ (s.ctx c).sq.len.toNat)
  | .sqFlush c =>
      (e = .raise .lifecycle ∧ ((s.ctx c).sq.lc ≠ .active ∨ (s.ctx c).ans.lc ≠ .active)) ∨
      ((s.ctx c).sq.lc = .active ∧ (s.ctx c).ans.lc = .active ∧
        flushFrom s.cfg c (s.ctx c).sq.recs (s.ctx c).sq.len.toNat (s.ctx c).ans s.mem = .error e)
  | .regRead _ n => e = .raise .badRegister ∧ regOf n = none

/-- The command is not refused: the block is running, or the command is REG_READ (spec R184). -/
abbrev served (i : Instr) (s : State) : Prop := s.halted = false ∨ i.opcode = 0xE

theorem runAlways_served {i : Instr} {c : BitVec 4} {s : State} {body : Context → Memory → Except Abort Done}
    (hi : i.ctx = c) (hc : c.toNat < s.cfg.nCtx) :
    runAlways i s body = commit i.word c s (body (s.ctx c) s.mem) := by
  subst hi
  rw [runAlways, checkContext, require_true hc, ok_bind]

theorem runCommand_served {i : Instr} {c : BitVec 4} {s : State} {body : Context → Memory → Except Abort Done}
    (hi : i.ctx = c) (hs : s.halted = false) (hc : c.toNat < s.cfg.nCtx) :
    runCommand i s body = commit i.word c s (body (s.ctx c) s.mem) := by
  rw [runCommand_running body hs, runAlways_served hi hc]

theorem exec_halted {i : Instr} {s : State} (h : s.halted = true) (hi : i.opcode ≠ 0xE) :
    exec i s = .next (refuseHalted s) := by
  cases i
  case regRead => exact absurd rfl hi
  all_goals exact runCommand_halted _ h

theorem exec_badContext {i : Instr} {s : State} (h : served i s) (hc : s.cfg.nCtx ≤ i.ctx.toNat) :
    exec i s = .next (takeFault .badContext i.word s) := by
  cases i
  case regRead c n => exact runAlways_badContext (i := .regRead c n) (fun k m =>
    match regOf n with
    | some r => .ok ⟨k, m, regValue s k r⟩
    | none   => .error (.raise .badRegister)) hc
  all_goals
    rcases h with h | h
    · exact (runCommand_running _ h).trans (runAlways_badContext _ hc)
    · cases h

/-- A check followed by the rest of the pseudocode. -/
theorem require_bind {p : Prop} [Decidable p] {f : FaultCode} {α : Type} {x : Except Abort α} :
    (require p f >>= fun _ => x) = if p then x else .error (.raise f) := by
  unfold require
  split <;> rfl

/-- Two ways for a command's pseudocode to end. -/
theorem ends_of_eq {i : Instr} {s : State} {r : Except Abort Done} (hx : exec i s = commit i.word i.ctx s r)
    (hok : ∀ d, r = .ok d → Ran s d i) (herr : ∀ e, r = .error e → Aborts s e i) :
    (∃ d, Ran s d i ∧ exec i s = commit i.word i.ctx s (.ok d)) ∨
    (∃ e, Aborts s e i ∧ exec i s = commit i.word i.ctx s (.error e)) := by
  rcases r with e | d
  · exact .inr ⟨e, herr e rfl, hx⟩
  · exact .inl ⟨d, hok d rfl, hx⟩

theorem beStart_served {s : State} {c : BitVec 4} {base len : Word} (hs : s.halted = false)
    (hc : c.toNat < s.cfg.nCtx) :
    (∃ d, Ran s d (.beStart c base len) ∧ exec (.beStart c base len) s = commit (Instr.beStart c base len).word c s (.ok d)) ∨
    (∃ e, Aborts s e (.beStart c base len) ∧ exec (.beStart c base len) s = commit (Instr.beStart c base len).word c s (.error e)) := by
  refine ends_of_eq (i := .beStart c base len) (runCommand_served (c := c) rfl hs hc) (fun d h => ?_) (fun e h => ?_)
  · obtain ⟨_, hr, h⟩ := bind_ok h
    obtain ⟨r, hb, h⟩ := bind_ok h
    rw [encBit_fresh] at hb
    cases hb
    cases h
    exact ⟨require_ok hr, rfl⟩
  · rcases bind_error h with hr | ⟨_, -, h⟩
    · exact require_error hr
    · rw [encBit_fresh] at h
      cases h

theorem beWrite_served {s : State} {c : BitVec 4} {a p : BitVec 8} (hs : s.halted = false)
    (hc : c.toNat < s.cfg.nCtx) :
    (∃ d, Ran s d (.beWrite c a p) ∧ exec (.beWrite c a p) s = commit (Instr.beWrite c a p).word c s (.ok d)) ∨
    (∃ e, Aborts s e (.beWrite c a p) ∧ exec (.beWrite c a p) s = commit (Instr.beWrite c a p).word c s (.error e)) := by
  refine ends_of_eq (i := .beWrite c a p) (runCommand_served (c := c) rfl hs hc) (fun d h => ?_) (fun e h => ?_)
  · obtain ⟨_, hl, h⟩ := bind_ok h
    obtain ⟨_, hp, h⟩ := bind_ok h
    obtain ⟨⟨be', m'⟩, hb, h⟩ := bind_ok h
    cases h
    exact ⟨require_ok hl, require_ok hp, be', m', hb, rfl⟩
  · rcases bind_error h with hl | ⟨_, hl, h⟩
    · exact .inl (require_error hl)
    rcases bind_error h with hp | ⟨_, hp, h⟩
    · obtain ⟨rfl, hn⟩ := require_error hp
      exact .inr (.inl ⟨require_ok hl, rfl, not_not.mp hn⟩)
    rcases bind_error h with hb | ⟨_, -, h⟩
    · exact .inr (.inr ⟨require_ok hl, require_ok hp, hb⟩)
    · cases h

theorem beStop_served {s : State} {c : BitVec 4} (hs : s.halted = false)
    (hc : c.toNat < s.cfg.nCtx) :
    (∃ d, Ran s d (.beStop c) ∧ exec (.beStop c) s = commit (Instr.beStop c).word c s (.ok d)) ∨
    (∃ e, Aborts s e (.beStop c) ∧ exec (.beStop c) s = commit (Instr.beStop c).word c s (.error e)) := by
  refine ends_of_eq (i := .beStop c) (runCommand_served (c := c) rfl hs hc) (fun d h => ?_) (fun e h => ?_)
  · obtain ⟨_, hl, h⟩ := bind_ok h
    obtain ⟨⟨be1, m1⟩, hp, h⟩ := bind_ok h
    obtain ⟨⟨be2, m2⟩, hg, h⟩ := bind_ok h
    cases h
    exact ⟨require_ok hl, be1, m1, be2, m2, hp, hg, rfl⟩
  · rcases bind_error h with hl | ⟨_, hl, h⟩
    · exact .inl (require_error hl)
    rcases bind_error h with hp | ⟨⟨be1, m1⟩, hp, h⟩
    · exact .inr ⟨require_ok hl, .inl hp⟩
    rcases bind_error h with hg | ⟨_, -, h⟩
    · exact .inr ⟨require_ok hl, .inr ⟨be1, m1, hp, hg⟩⟩
    · cases h

theorem bdInit_served {s : State} {c : BitVec 4} {base len : Word} (hs : s.halted = false)
    (hc : c.toNat < s.cfg.nCtx) :
    (∃ d, Ran s d (.bdInit c base len) ∧ exec (.bdInit c base len) s = commit (Instr.bdInit c base len).word c s (.ok d)) ∨
    (∃ e, Aborts s e (.bdInit c base len) ∧ exec (.bdInit c base len) s = commit (Instr.bdInit c base len).word c s (.error e)) := by
  refine ends_of_eq (i := .bdInit c base len) (runCommand_served (c := c) rfl hs hc) (fun d h => ?_) (fun e h => ?_)
  · obtain ⟨_, hr, h⟩ := bind_ok h
    obtain ⟨v, hv, h⟩ := bind_ok h
    obtain ⟨⟨b, bd'⟩, hb, h⟩ := bind_ok h
    cases h
    exact ⟨require_ok hr, v, b, bd', hv, hb, rfl⟩
  · rcases bind_error h with hr | ⟨_, hr, h⟩
    · exact require_error hr
    have hfit := require_ok hr
    rcases bind_error h with hv | ⟨v, -, h⟩
    · rw [streamByte_eq (bd := { (s.ctx c).bd with base := base, size := len }) hfit] at hv
      cases hv
    rcases bind_error h with hb | ⟨_, -, h⟩
    · obtain ⟨bd', hd, -⟩ := decBit_eq (p := fairProb) (bd := ⟨.active, v, 255, 8, base, len⟩) s.mem
        (show 2 ≤ (255 : BitVec 8).toNat by decide) (by decide) hfit
      have hb' : decBit s.cfg fairProb ⟨.active, v, 255, 8, base, len⟩ s.mem = .error e := hb
      rw [hd] at hb'
      cases hb'
    · cases h

theorem bdRead_served {s : State} {c : BitVec 4} {p : BitVec 8} (hs : s.halted = false)
    (hc : c.toNat < s.cfg.nCtx) :
    (∃ d, Ran s d (.bdRead c p) ∧ exec (.bdRead c p) s = commit (Instr.bdRead c p).word c s (.ok d)) ∨
    (∃ e, Aborts s e (.bdRead c p) ∧ exec (.bdRead c p) s = commit (Instr.bdRead c p).word c s (.error e)) := by
  refine ends_of_eq (i := .bdRead c p) (runCommand_served (c := c) rfl hs hc) (fun d h => ?_) (fun e h => ?_)
  · obtain ⟨_, hl, h⟩ := bind_ok h
    obtain ⟨_, hp, h⟩ := bind_ok h
    obtain ⟨⟨b, bd'⟩, hb, h⟩ := bind_ok h
    cases h
    exact ⟨require_ok hl, require_ok hp, b, bd', hb, rfl⟩
  · rcases bind_error h with hl | ⟨_, hl, h⟩
    · exact .inl (require_error hl)
    rcases bind_error h with hp | ⟨_, hp, h⟩
    · obtain ⟨rfl, hn⟩ := require_error hp
      exact .inr (.inl ⟨require_ok hl, rfl, not_not.mp hn⟩)
    rcases bind_error h with hb | ⟨_, -, h⟩
    · exact .inr (.inr ⟨require_ok hl, require_ok hp, hb⟩)
    · cases h

theorem ansInit_served {s : State} {c : BitVec 4} {base len : Word} (hs : s.halted = false)
    (hc : c.toNat < s.cfg.nCtx) :
    (∃ d, Ran s d (.ansInit c base len) ∧ exec (.ansInit c base len) s = commit (Instr.ansInit c base len).word c s (.ok d)) ∨
    (∃ e, Aborts s e (.ansInit c base len) ∧ exec (.ansInit c base len) s = commit (Instr.ansInit c base len).word c s (.error e)) := by
  refine ends_of_eq (i := .ansInit c base len) (runCommand_served (c := c) rfl hs hc) (fun d h => ?_) (fun e h => ?_)
  · obtain ⟨_, hr, h⟩ := bind_ok h
    cases h
    exact ⟨require_ok hr, rfl⟩
  · rcases bind_error h with hr | ⟨_, -, h⟩
    · exact require_error hr
    · cases h

theorem ansUabs_served {s : State} {c : BitVec 4} {a p0 : BitVec 8} (hs : s.halted = false)
    (hc : c.toNat < s.cfg.nCtx) :
    (∃ d, Ran s d (.ansUabs c a p0) ∧ exec (.ansUabs c a p0) s = commit (Instr.ansUabs c a p0).word c s (.ok d)) ∨
    (∃ e, Aborts s e (.ansUabs c a p0) ∧ exec (.ansUabs c a p0) s = commit (Instr.ansUabs c a p0).word c s (.error e)) := by
  refine ends_of_eq (i := .ansUabs c a p0) (runCommand_served (c := c) rfl hs hc) (fun d h => ?_) (fun e h => ?_)
  · obtain ⟨_, hl, h⟩ := bind_ok h
    obtain ⟨_, hp, h⟩ := bind_ok h
    obtain ⟨⟨ans', m'⟩, hb, h⟩ := bind_ok h
    cases h
    exact ⟨require_ok hl, require_ok hp, ans', m', hb, rfl⟩
  · rcases bind_error h with hl | ⟨_, hl, h⟩
    · exact .inl (require_error hl)
    rcases bind_error h with hp | ⟨_, hp, h⟩
    · obtain ⟨rfl, hn⟩ := require_error hp
      exact .inr (.inl ⟨require_ok hl, rfl, not_not.mp hn⟩)
    rcases bind_error h with hb | ⟨_, -, h⟩
    · exact .inr (.inr ⟨require_ok hl, require_ok hp, hb⟩)
    · cases h

theorem ansRans_served {s : State} {c : BitVec 4} {cum prob : BitVec 8} (hs : s.halted = false)
    (hc : c.toNat < s.cfg.nCtx) :
    (∃ d, Ran s d (.ansRans c cum prob) ∧ exec (.ansRans c cum prob) s = commit (Instr.ansRans c cum prob).word c s (.ok d)) ∨
    (∃ e, Aborts s e (.ansRans c cum prob) ∧ exec (.ansRans c cum prob) s = commit (Instr.ansRans c cum prob).word c s (.error e)) := by
  refine ends_of_eq (i := .ansRans c cum prob) (runCommand_served (c := c) rfl hs hc) (fun d h => ?_) (fun e h => ?_)
  · obtain ⟨_, hl, h⟩ := bind_ok h
    obtain ⟨_, hp, h⟩ := bind_ok h
    obtain ⟨_, hr, h⟩ := bind_ok h
    obtain ⟨⟨ans', m'⟩, hb, h⟩ := bind_ok h
    cases h
    exact ⟨require_ok hl, require_ok hp, require_ok hr, ans', m', hb, rfl⟩
  · rcases bind_error h with hl | ⟨_, hl, h⟩
    · exact .inl (require_error hl)
    rcases bind_error h with hp | ⟨_, hp, h⟩
    · obtain ⟨rfl, hn⟩ := require_error hp
      exact .inr (.inl ⟨require_ok hl, rfl, not_not.mp hn⟩)
    rcases bind_error h with hr | ⟨_, hr, h⟩
    · obtain ⟨rfl, hn⟩ := require_error hr
      exact .inr (.inr (.inl ⟨require_ok hl, require_ok hp, rfl, Nat.lt_of_not_le hn⟩))
    rcases bind_error h with hb | ⟨_, -, h⟩
    · exact .inr (.inr (.inr ⟨require_ok hl, require_ok hp, require_ok hr, hb⟩))
    · cases h

theorem ansEnd_served {s : State} {c : BitVec 4} (hs : s.halted = false)
    (hc : c.toNat < s.cfg.nCtx) :
    (∃ d, Ran s d (.ansEnd c) ∧ exec (.ansEnd c) s = commit (Instr.ansEnd c).word c s (.ok d)) ∨
    (∃ e, Aborts s e (.ansEnd c) ∧ exec (.ansEnd c) s = commit (Instr.ansEnd c).word c s (.error e)) := by
  refine ends_of_eq (i := .ansEnd c) (runCommand_served (c := c) rfl hs hc) (fun d h => ?_) (fun e h => ?_)
  · obtain ⟨_, hl, h⟩ := bind_ok h
    obtain ⟨_, hx, h⟩ := bind_ok h
    obtain ⟨⟨ans', m'⟩, hb, h⟩ := bind_ok h
    cases h
    exact ⟨require_ok hl, require_ok hx, ans', m', hb, rfl⟩
  · rcases bind_error h with hl | ⟨_, hl, h⟩
    · exact .inl (require_error hl)
    rcases bind_error h with hx | ⟨_, hx, h⟩
    · exact .inr (.inl ⟨require_ok hl, require_error hx⟩)
    rcases bind_error h with hb | ⟨_, -, h⟩
    · exact .inr (.inr ⟨require_ok hl, require_ok hx, hb⟩)
    · cases h

theorem sqInit_served {s : State} {c : BitVec 4} {capacity : Word} (hs : s.halted = false)
    (hc : c.toNat < s.cfg.nCtx) :
    (∃ d, Ran s d (.sqInit c capacity) ∧ exec (.sqInit c capacity) s = commit (Instr.sqInit c capacity).word c s (.ok d)) ∨
    (∃ e, Aborts s e (.sqInit c capacity) ∧ exec (.sqInit c capacity) s = commit (Instr.sqInit c capacity).word c s (.error e)) := by
  refine ends_of_eq (i := .sqInit c capacity) (runCommand_served (c := c) rfl hs hc) (fun d h => ?_) (fun e h => ?_)
  · obtain ⟨_, hr, h⟩ := bind_ok h
    cases h
    exact ⟨require_ok hr, rfl⟩
  · rcases bind_error h with hr | ⟨_, -, h⟩
    · obtain ⟨rfl, hn⟩ := require_error hr
      exact ⟨rfl, Nat.lt_of_not_le hn⟩
    · cases h

theorem sqUabs_served {s : State} {c : BitVec 4} {a p : BitVec 8} (hs : s.halted = false)
    (hc : c.toNat < s.cfg.nCtx) :
    (∃ d, Ran s d (.sqUabs c a p) ∧ exec (.sqUabs c a p) s = commit (Instr.sqUabs c a p).word c s (.ok d)) ∨
    (∃ e, Aborts s e (.sqUabs c a p) ∧ exec (.sqUabs c a p) s = commit (Instr.sqUabs c a p).word c s (.error e)) := by
  refine ends_of_eq (i := .sqUabs c a p) (runCommand_served (c := c) rfl hs hc) (fun d h => ?_) (fun e h => ?_)
  · obtain ⟨_, hl, h⟩ := bind_ok h
    obtain ⟨_, hp, h⟩ := bind_ok h
    obtain ⟨sq', hb, h⟩ := bind_ok h
    cases h
    exact ⟨require_ok hl, require_ok hp, sq', hb, rfl⟩
  · rcases bind_error h with hl | ⟨_, hl, h⟩
    · exact .inl (require_error hl)
    rcases bind_error h with hp | ⟨_, hp, h⟩
    · obtain ⟨rfl, hn⟩ := require_error hp
      exact .inr (.inl ⟨require_ok hl, rfl, not_not.mp hn⟩)
    rcases bind_error h with hb | ⟨_, -, h⟩
    · exact .inr (.inr ⟨require_ok hl, require_ok hp, sqAppend_error hb⟩)
    · cases h

theorem sqRans_served {s : State} {c : BitVec 4} {cum prob : BitVec 8} (hs : s.halted = false)
    (hc : c.toNat < s.cfg.nCtx) :
    (∃ d, Ran s d (.sqRans c cum prob) ∧ exec (.sqRans c cum prob) s = commit (Instr.sqRans c cum prob).word c s (.ok d)) ∨
    (∃ e, Aborts s e (.sqRans c cum prob) ∧ exec (.sqRans c cum prob) s = commit (Instr.sqRans c cum prob).word c s (.error e)) := by
  refine ends_of_eq (i := .sqRans c cum prob) (runCommand_served (c := c) rfl hs hc) (fun d h => ?_) (fun e h => ?_)
  · obtain ⟨_, hl, h⟩ := bind_ok h
    obtain ⟨_, hp, h⟩ := bind_ok h
    obtain ⟨_, hr, h⟩ := bind_ok h
    obtain ⟨sq', hb, h⟩ := bind_ok h
    cases h
    exact ⟨require_ok hl, require_ok hp, require_ok hr, sq', hb, rfl⟩
  · rcases bind_error h with hl | ⟨_, hl, h⟩
    · exact .inl (require_error hl)
    rcases bind_error h with hp | ⟨_, hp, h⟩
    · obtain ⟨rfl, hn⟩ := require_error hp
      exact .inr (.inl ⟨require_ok hl, rfl, not_not.mp hn⟩)
    rcases bind_error h with hr | ⟨_, hr, h⟩
    · obtain ⟨rfl, hn⟩ := require_error hr
      exact .inr (.inr (.inl ⟨require_ok hl, require_ok hp, rfl, Nat.lt_of_not_le hn⟩))
    rcases bind_error h with hb | ⟨_, -, h⟩
    · exact .inr (.inr (.inr ⟨require_ok hl, require_ok hp, require_ok hr, sqAppend_error hb⟩))
    · cases h

theorem sqFlush_served {s : State} {c : BitVec 4} (hs : s.halted = false)
    (hc : c.toNat < s.cfg.nCtx) :
    (∃ d, Ran s d (.sqFlush c) ∧ exec (.sqFlush c) s = commit (Instr.sqFlush c).word c s (.ok d)) ∨
    (∃ e, Aborts s e (.sqFlush c) ∧ exec (.sqFlush c) s = commit (Instr.sqFlush c).word c s (.error e)) := by
  refine ends_of_eq (i := .sqFlush c) (runCommand_served (c := c) rfl hs hc) (fun d h => ?_) (fun e h => ?_)
  · obtain ⟨_, hl, h⟩ := bind_ok h
    obtain ⟨_, ha, h⟩ := bind_ok h
    obtain ⟨⟨ans', m'⟩, hb, h⟩ := bind_ok h
    cases h
    exact ⟨require_ok hl, require_ok ha, ans', m', hb, rfl⟩
  · rcases bind_error h with hl | ⟨_, hl, h⟩
    · obtain ⟨rfl, hn⟩ := require_error hl
      exact .inl ⟨rfl, .inl hn⟩
    rcases bind_error h with ha | ⟨_, ha, h⟩
    · obtain ⟨rfl, hn⟩ := require_error ha
      exact .inl ⟨rfl, .inr hn⟩
    rcases bind_error h with hb | ⟨_, -, h⟩
    · exact .inr ⟨require_ok hl, require_ok ha, hb⟩
    · cases h

theorem regRead_served {s : State} {c : BitVec 4} {n : BitVec 8} (hc : c.toNat < s.cfg.nCtx) :
    (∃ d, Ran s d (.regRead c n) ∧ exec (.regRead c n) s = commit (Instr.regRead c n).word c s (.ok d)) ∨
    (∃ e, Aborts s e (.regRead c n) ∧ exec (.regRead c n) s = commit (Instr.regRead c n).word c s (.error e)) := by
  have hx : exec (.regRead c n) s = commit (Instr.regRead c n).word c s (match regOf n with
      | some r => .ok ⟨s.ctx c, s.mem, regValue s (s.ctx c) r⟩
      | none   => .error (.raise .badRegister)) :=
    runAlways_served (i := .regRead c n) (c := c) (body := fun k m =>
      match regOf n with
      | some r => .ok ⟨k, m, regValue s k r⟩
      | none   => .error (.raise .badRegister)) rfl hc
  cases hr : regOf n with
  | none => exact .inr ⟨_, ⟨rfl, hr⟩, by rw [hx, hr]⟩
  | some r => exact .inl ⟨_, ⟨r, hr, rfl⟩, by rw [hx, hr]⟩

/-- The direct ANS command of a valid record is the record's step, committed (spec R165). -/
theorem exec_recordCommand {s : State} {c : BitVec 4} {r : SqRecord} (hs : s.ready c)
    (ha : (s.ctx c).ans.lc = .active) (hv : r.valid = true) :
    exec (recordCommand c r) s = commit (recordCommand c r).word c s
      ((recordStep s.cfg r (s.ctx c).ans s.mem).bind fun q => .ok ⟨{ s.ctx c with ans := q.1 }, q.2, 0⟩) := by
  obtain ⟨h1, -, hu, hr⟩ := SqRecord.valid_bounds hv
  obtain ⟨tag, vs, prob⟩ := r
  have hp : prob ≠ 0 := by
    rintro rfl
    simp at h1
  cases tag
  · have hvs : (bitOperand vs).toNat = vs.toNat :=
      (by decide : ∀ v : BitVec 8, v.toNat ≤ 1 → (bitOperand v).toNat = v.toNat) vs (hu rfl)
    rcases ansUabs_served (a := vs) (p0 := prob) hs.1 hs.2 with ⟨d, ⟨-, -, a, m, h, rfl⟩, hx⟩ | ⟨e, h, hx⟩
    · rw [hvs] at h
      simp only [recordCommand, recordStep, h]
      exact hx
    · rcases h with ⟨-, h⟩ | ⟨-, -, h⟩ | ⟨-, -, h⟩
      · exact absurd ha h
      · exact absurd h hp
      · rw [hvs] at h
        simp only [recordCommand, recordStep, h]
        exact hx
  · rcases ansRans_served (cum := vs) (prob := prob) hs.1 hs.2 with ⟨d, ⟨-, -, -, a, m, h, rfl⟩, hx⟩ | ⟨e, h, hx⟩
    · simp only [recordCommand, recordStep, h]
      exact hx
    · rcases h with ⟨-, h⟩ | ⟨-, -, h⟩ | ⟨-, -, -, h⟩ | ⟨-, -, -, h⟩
      · exact absurd ha h
      · exact absurd h hp
      · have := hr rfl
        dsimp only at this
        omega
      · simp only [recordCommand, recordStep, h]
        exact hx

/-- A served command of a context the block has finishes as `Ran` says or aborts as `Aborts` says. -/
theorem exec_served {i : Instr} {s : State} (h : served i s) (hc : i.ctx.toNat < s.cfg.nCtx) :
    (∃ d, Ran s d i ∧ exec i s = commit i.word i.ctx s (.ok d)) ∨
    (∃ e, Aborts s e i ∧ exec i s = commit i.word i.ctx s (.error e)) := by
  cases i with
  | regRead c n => exact regRead_served hc
  | beStart => exact beStart_served (h.resolve_right (by intro h; cases h)) hc
  | beWrite => exact beWrite_served (h.resolve_right (by intro h; cases h)) hc
  | beStop => exact beStop_served (h.resolve_right (by intro h; cases h)) hc
  | bdInit => exact bdInit_served (h.resolve_right (by intro h; cases h)) hc
  | bdRead => exact bdRead_served (h.resolve_right (by intro h; cases h)) hc
  | ansInit => exact ansInit_served (h.resolve_right (by intro h; cases h)) hc
  | ansUabs => exact ansUabs_served (h.resolve_right (by intro h; cases h)) hc
  | ansRans => exact ansRans_served (h.resolve_right (by intro h; cases h)) hc
  | ansEnd => exact ansEnd_served (h.resolve_right (by intro h; cases h)) hc
  | sqInit => exact sqInit_served (h.resolve_right (by intro h; cases h)) hc
  | sqUabs => exact sqUabs_served (h.resolve_right (by intro h; cases h)) hc
  | sqRans => exact sqRans_served (h.resolve_right (by intro h; cases h)) hc
  | sqFlush => exact sqFlush_served (h.resolve_right (by intro h; cases h)) hc

/-- Everything `exec` can do. -/
theorem exec_cases (i : Instr) (s : State) :
    (s.halted = true ∧ i.opcode ≠ 0xE ∧ exec i s = .next (refuseHalted s)) ∨
    (served i s ∧ s.cfg.nCtx ≤ i.ctx.toNat ∧ exec i s = .next (takeFault .badContext i.word s)) ∨
    (served i s ∧ i.ctx.toNat < s.cfg.nCtx ∧ ∃ d, Ran s d i ∧
      exec i s = .next (((s.setCtx i.ctx d.ctx).setMem d.mem).respond .ok d.value)) ∨
    (served i s ∧ i.ctx.toNat < s.cfg.nCtx ∧ ∃ f, Aborts s (.raise f) i ∧
      exec i s = .next (takeFault f i.word s)) ∨
    (served i s ∧ i.ctx.toNat < s.cfg.nCtx ∧ ∃ f, Aborts s (.stop f) i ∧ exec i s = .fault f) := by
  by_cases h : served i s
  · by_cases hc : i.ctx.toNat < s.cfg.nCtx
    · rcases exec_served h hc with ⟨d, hr, hx⟩ | ⟨e, ha, hx⟩
      · exact .inr (.inr (.inl ⟨h, hc, d, hr, hx⟩))
      · cases e with
        | raise f => exact .inr (.inr (.inr (.inl ⟨h, hc, f, ha, hx⟩)))
        | stop f => exact .inr (.inr (.inr (.inr ⟨h, hc, f, ha, hx⟩)))
    · exact .inr (.inl ⟨h, by omega, exec_badContext h (by omega)⟩)
  · rw [not_or] at h
    have hh : s.halted = true := by simpa using h.1
    exact .inl ⟨hh, h.2, exec_halted hh h.2⟩

/-- A next state is the state before with a FAULTED response and maybe the fault registers written, or what a command
that finished leaves. -/
theorem exec_next {i : Instr} {s t : State} (h : exec i s = .next t) :
    ((∀ c, t.ctx c = s.ctx c) ∧ t.mem = s.mem ∧ t.cfg = s.cfg ∧ ∃ v, t.response = some ⟨.faulted, v⟩) ∨
    (served i s ∧ i.ctx.toNat < s.cfg.nCtx ∧ ∃ d, Ran s d i ∧
      t = ((s.setCtx i.ctx d.ctx).setMem d.mem).respond .ok d.value) := by
  rcases exec_cases i s with ⟨-, -, h'⟩ | ⟨-, -, h'⟩ | ⟨hs, hc, d, hr, h'⟩ | ⟨-, -, f, -, h'⟩ | ⟨-, -, f, -, h'⟩
  · rw [h] at h'
    cases h'
    exact .inl ⟨fun _ => rfl, rfl, rfl, _, rfl⟩
  · rw [h] at h'
    cases h'
    exact .inl ⟨fun _ => by simp, by simp, by simp, _, rfl⟩
  · rw [h] at h'
    cases h'
    exact .inr ⟨hs, hc, d, hr, rfl⟩
  · rw [h] at h'
    cases h'
    exact .inl ⟨fun _ => by simp, by simp, by simp, _, rfl⟩
  · rw [h] at h'
    cases h'

/-- A ready command that cannot abort, and finishes in one way only, answers that next state. -/
theorem exec_finishes {i : Instr} {s : State} {d : Done} (hs : s.ready i.ctx) (hd : ∀ d', Ran s d' i → d' = d)
    (he : ∀ e, ¬ Aborts s e i) :
    exec i s = .next (((s.setCtx i.ctx d.ctx).setMem d.mem).respond .ok d.value) := by
  rcases exec_served (.inl hs.1) hs.2 with ⟨d', hr, hx⟩ | ⟨e, ha, hx⟩
  · rw [hx, hd d' hr]
    rfl
  · exact absurd ha (he e)

/-- A ready command that cannot finish, and aborts with one fault only, takes it. -/
theorem exec_raises {i : Instr} {s : State} {f : FaultCode} (hs : s.ready i.ctx) (hd : ∀ d, ¬ Ran s d i)
    (he : ∀ e, Aborts s e i → e = .raise f) : exec i s = .next (takeFault f i.word s) := by
  rcases exec_served (.inl hs.1) hs.2 with ⟨d, hr, hx⟩ | ⟨e, ha, hx⟩
  · exact absurd hr (hd d)
  · rw [hx, he e ha]
    rfl

end Sys2Proof.Machine
end

