-- ==== Sys2Proof/Laws/PerInstr.lean ====
section
/-! SUPPORT. Per command: a well-formed command is decoded from its own words, and the words after them are left
(spec R70 to R77). -/

namespace Sys2Proof.Laws.RoundTrip

open Sys2Proof.Machine (streamAfter)

/-- The words of the command decode to the command, whatever words follow, and exactly those words stay. -/
def Statement (i : Instr) : Prop :=
  i.wf = true → ∀ rest : List Word,
    decode i.word (i.ext ++ rest) = .ok i ∧ streamAfter i.word (i.ext ++ rest) = rest

/-- What a legal word decodes to, once its checks are read off its fields. -/
theorem decode_of_checks {w : Word} {ext : List Word} {i : Instr} (hop : opIllegal w = false)
    (hlen : commandLength w ≤ ext.length + 1) (hres : reservedOk w = true) (hi : decodeFields w ext = some i) :
    decode w ext = .ok i := by
  simp [decode, hop, hres, hi, Nat.not_lt.mpr hlen]

theorem beStart (ctx : BitVec 4) (base len : Word) : Statement (.beStart ctx base len) := by
  intro _ rest
  refine ⟨decode_of_checks ?_ ?_ ?_ ?_, ?_⟩
  · simp [Instr.word, opIllegal]
  · simp [Instr.word, Instr.ext, commandLength]
  · simp [Instr.word, reservedOk, aFieldOk, bFieldOk]
  · simp [Instr.word, Instr.ext, decodeFields]
  · simp [Instr.word, Instr.ext, streamAfter, commandLength]

theorem beWrite (ctx : BitVec 4) (a p : BitVec 8) : Statement (.beWrite ctx a p) := by
  intro hwf rest
  refine ⟨decode_of_checks ?_ ?_ ?_ ?_, ?_⟩
  · simp [Instr.word, opIllegal]
  · simp [Instr.word, Instr.ext, commandLength]
  · simpa [Instr.word, reservedOk, aFieldOk, bFieldOk, Instr.wf] using hwf
  · simp [Instr.word, decodeFields]
  · simp [Instr.word, Instr.ext, streamAfter, commandLength]

theorem beStop (ctx : BitVec 4) : Statement (.beStop ctx) := by
  intro _ rest
  refine ⟨decode_of_checks ?_ ?_ ?_ ?_, ?_⟩
  · simp [Instr.word, opIllegal]
  · simp [Instr.word, Instr.ext, commandLength]
  · simp [Instr.word, reservedOk, aFieldOk, bFieldOk]
  · simp [Instr.word, decodeFields]
  · simp [Instr.word, Instr.ext, streamAfter, commandLength]

theorem bdInit (ctx : BitVec 4) (base len : Word) : Statement (.bdInit ctx base len) := by
  intro _ rest
  refine ⟨decode_of_checks ?_ ?_ ?_ ?_, ?_⟩
  · simp [Instr.word, opIllegal]
  · simp [Instr.word, Instr.ext, commandLength]
  · simp [Instr.word, reservedOk, aFieldOk, bFieldOk]
  · simp [Instr.word, Instr.ext, decodeFields]
  · simp [Instr.word, Instr.ext, streamAfter, commandLength]

theorem bdRead (ctx : BitVec 4) (p : BitVec 8) : Statement (.bdRead ctx p) := by
  intro _ rest
  refine ⟨decode_of_checks ?_ ?_ ?_ ?_, ?_⟩
  · simp [Instr.word, opIllegal]
  · simp [Instr.word, Instr.ext, commandLength]
  · simp [Instr.word, reservedOk, aFieldOk, bFieldOk]
  · simp [Instr.word, decodeFields]
  · simp [Instr.word, Instr.ext, streamAfter, commandLength]

theorem ansInit (ctx : BitVec 4) (base len : Word) : Statement (.ansInit ctx base len) := by
  intro _ rest
  refine ⟨decode_of_checks ?_ ?_ ?_ ?_, ?_⟩
  · simp [Instr.word, opIllegal]
  · simp [Instr.word, Instr.ext, commandLength]
  · simp [Instr.word, reservedOk, aFieldOk, bFieldOk]
  · simp [Instr.word, Instr.ext, decodeFields]
  · simp [Instr.word, Instr.ext, streamAfter, commandLength]

theorem ansUabs (ctx : BitVec 4) (a p0 : BitVec 8) : Statement (.ansUabs ctx a p0) := by
  intro hwf rest
  refine ⟨decode_of_checks ?_ ?_ ?_ ?_, ?_⟩
  · simp [Instr.word, opIllegal]
  · simp [Instr.word, Instr.ext, commandLength]
  · simpa [Instr.word, reservedOk, aFieldOk, bFieldOk, Instr.wf] using hwf
  · simp [Instr.word, decodeFields]
  · simp [Instr.word, Instr.ext, streamAfter, commandLength]

theorem ansRans (ctx : BitVec 4) (cum prob : BitVec 8) : Statement (.ansRans ctx cum prob) := by
  intro _ rest
  refine ⟨decode_of_checks ?_ ?_ ?_ ?_, ?_⟩
  · simp [Instr.word, opIllegal]
  · simp [Instr.word, Instr.ext, commandLength]
  · simp [Instr.word, reservedOk, aFieldOk, bFieldOk]
  · simp [Instr.word, decodeFields]
  · simp [Instr.word, Instr.ext, streamAfter, commandLength]

theorem ansEnd (ctx : BitVec 4) : Statement (.ansEnd ctx) := by
  intro _ rest
  refine ⟨decode_of_checks ?_ ?_ ?_ ?_, ?_⟩
  · simp [Instr.word, opIllegal]
  · simp [Instr.word, Instr.ext, commandLength]
  · simp [Instr.word, reservedOk, aFieldOk, bFieldOk]
  · simp [Instr.word, decodeFields]
  · simp [Instr.word, Instr.ext, streamAfter, commandLength]

theorem sqInit (ctx : BitVec 4) (capacity : Word) : Statement (.sqInit ctx capacity) := by
  intro _ rest
  refine ⟨decode_of_checks ?_ ?_ ?_ ?_, ?_⟩
  · simp [Instr.word, opIllegal]
  · simp [Instr.word, Instr.ext, commandLength]
  · simp [Instr.word, reservedOk, aFieldOk, bFieldOk]
  · simp [Instr.word, Instr.ext, decodeFields]
  · simp [Instr.word, Instr.ext, streamAfter, commandLength]

theorem sqUabs (ctx : BitVec 4) (a p : BitVec 8) : Statement (.sqUabs ctx a p) := by
  intro hwf rest
  refine ⟨decode_of_checks ?_ ?_ ?_ ?_, ?_⟩
  · simp [Instr.word, opIllegal]
  · simp [Instr.word, Instr.ext, commandLength]
  · simpa [Instr.word, reservedOk, aFieldOk, bFieldOk, Instr.wf] using hwf
  · simp [Instr.word, decodeFields]
  · simp [Instr.word, Instr.ext, streamAfter, commandLength]

theorem sqRans (ctx : BitVec 4) (cum prob : BitVec 8) : Statement (.sqRans ctx cum prob) := by
  intro _ rest
  refine ⟨decode_of_checks ?_ ?_ ?_ ?_, ?_⟩
  · simp [Instr.word, opIllegal]
  · simp [Instr.word, Instr.ext, commandLength]
  · simp [Instr.word, reservedOk, aFieldOk, bFieldOk]
  · simp [Instr.word, decodeFields]
  · simp [Instr.word, Instr.ext, streamAfter, commandLength]

theorem sqFlush (ctx : BitVec 4) : Statement (.sqFlush ctx) := by
  intro _ rest
  refine ⟨decode_of_checks ?_ ?_ ?_ ?_, ?_⟩
  · simp [Instr.word, opIllegal]
  · simp [Instr.word, Instr.ext, commandLength]
  · simp [Instr.word, reservedOk, aFieldOk, bFieldOk]
  · simp [Instr.word, decodeFields]
  · simp [Instr.word, Instr.ext, streamAfter, commandLength]

theorem regRead (ctx : BitVec 4) (reg : BitVec 8) : Statement (.regRead ctx reg) := by
  intro _ rest
  refine ⟨decode_of_checks ?_ ?_ ?_ ?_, ?_⟩
  · simp [Instr.word, opIllegal]
  · simp [Instr.word, Instr.ext, commandLength]
  · simp [Instr.word, reservedOk, aFieldOk, bFieldOk]
  · simp [Instr.word, decodeFields]
  · simp [Instr.word, Instr.ext, streamAfter, commandLength]

end Sys2Proof.Laws.RoundTrip
end

