-- ==== Sys2Proof/Tests/Slice0.lean ====
section
/-! SUPPORT. The model's own tests: expected values come from the spec's vectors (95_test_vectors.md) and from its
encoding tables, and every statement with hypotheses has a witness that meets them. -/

namespace Sys2Proof.Tests

open Sys2Proof Sys2Proof.Machine

/-! ### Small states -/

/-- A running block with the parameters of the spec's vectors, the context 0 given and the memory given. -/
def block (k : Context) (m : Memory) : State := ((State.resetWith Config.vectors).setCtx 0 k).setMem m

/-- What a command answers: the response, the context 0 and the memory after it. -/
def after (i : Instr) (s : State) : Option (Response × Context × Memory) :=
  match exec i s with
  | .next t    => t.response.map fun r => (r, t.ctx 0, t.mem)
  | .fault _   => none
  | .refused _ => none

/-- What a step answers: the response, and the fault registers after it. -/
def stepFaults (s : State) : Option (Option Response × BitVec 8 × Word) :=
  match step s with
  | .next t    => some (t.response, t.faultCode, t.faultCmd)
  | .fault _   => none
  | .refused _ => none

def withBe (be : BeRegs) : Context := { Context.reset with be := be }
def withBd (bd : BdRegs) : Context := { Context.reset with bd := bd }
def withAns (ans : AnsRegs) : Context := { Context.reset with ans := ans }
def withSq (sq : SqRegs) : Context := { Context.reset with sq := sq }

/-- A bool-encoder unit right after `be.start c0, 0x100, 16`. -/
def beNew : BeRegs := ⟨.active, 0, 128, -24, 0, 0x100, 16⟩

/-- The unit of vector BE-9 after its 16 writes: `3F FF` emitted, a carry pending in bit 28 of `low`. -/
def beCarrying : BeRegs := ⟨.active, 0x10000000, 128, -4, 2, 0x300, 8⟩

def beCarryingMem : Memory := [(0x300, 0x3F), (0x301, 0xFF)]

/-! ### Well-formedness -/

theorem smoke_beWrite_reserved : (Instr.beWrite 0 3 128).wf = false := by decide
theorem smoke_ansUabs_reserved : (Instr.ansUabs 0 0x80 128).wf = false := by decide
theorem smoke_sqUabs_reserved : (Instr.sqUabs 0 2 128).wf = false := by decide
theorem smoke_beWrite_legal : (Instr.beWrite 15 1 0).wf = true := by decide

/-! ### Decoding: words written out from spec R71 and R76, OP CTX A B RSV -/

theorem test_decode_beStart :
    decode 0b0001_0000_00000000_00000000_00000000 [0x100, 0x10] = .ok (.beStart 0 0x100 16) := by decide
theorem test_decode_beWrite :
    decode 0b0010_0000_00000001_10000000_00000000 [] = .ok (.beWrite 0 1 128) := by decide
theorem test_decode_beStop : decode 0b0011_0000_00000000_00000000_00000000 [] = .ok (.beStop 0) := by decide
theorem test_decode_bdInit :
    decode 0b0100_0011_00000000_00000000_00000000 [0x100, 2, 7] = .ok (.bdInit 3 0x100 2) := by decide
theorem test_decode_bdRead :
    decode 0b0101_0000_00000000_10000000_00000000 [] = .ok (.bdRead 0 128) := by decide
theorem test_decode_ansInit :
    decode 0b0110_0000_00000000_00000000_00000000 [0x200, 8] = .ok (.ansInit 0 0x200 8) := by decide
theorem test_decode_ansUabs :
    decode 0b0111_0000_00000000_11111111_00000000 [] = .ok (.ansUabs 0 0 255) := by decide
theorem test_decode_ansRans :
    decode 0b1000_0000_01000000_11000000_00000000 [] = .ok (.ansRans 0 64 192) := by decide
theorem test_decode_ansEnd : decode 0b1001_1111_00000000_00000000_00000000 [] = .ok (.ansEnd 15) := by decide
theorem test_decode_sqInit : decode 0b1010_0001_00000000_00000000_00000000 [4] = .ok (.sqInit 1 4) := by decide
theorem test_decode_sqUabs :
    decode 0b1011_0000_00000001_10000000_00000000 [] = .ok (.sqUabs 0 1 128) := by decide
theorem test_decode_sqRans :
    decode 0b1100_0000_01000000_11000000_00000000 [] = .ok (.sqRans 0 64 192) := by decide
theorem test_decode_sqFlush : decode 0b1101_0000_00000000_00000000_00000000 [] = .ok (.sqFlush 0) := by decide
theorem test_decode_regRead :
    decode 0b1110_0000_11110000_00000000_00000000 [] = .ok (.regRead 0 0xF0) := by decide

/-- Vectors BE-F8, BE-F9, BD-F3 and spec R78: words that are no command. -/
theorem test_decode_rejects :
    decode 0x20018001 [] = .error .reservedNonzero ∧ decode 0x20038000 [] = .error .reservedNonzero ∧
    decode 0x40000000 [0x100] = .error .truncatedCommand ∧ decode 0 [] = .error .illegalOpcode ∧
    decode 0xF0000000 [] = .error .illegalOpcode ∧ decode 0x30000100 [] = .error .reservedNonzero := by decide

/-- The words of spec R80's examples, from the encoder. -/
theorem test_encode_examples :
    encode (.beStart 0 0x100 16) = [0x10000000, 0x100, 0x10] ∧ encode (.sqInit 1 4) = [0xA1000000, 4] ∧
    encode (.ansRans 0 64 192) = [0x8040C000] ∧ encode (.regRead 0 0xF0) = [0xE0F00000] := by decide

/-- The text of spec R80's examples, numbers in decimal. -/
theorem test_asmLine :
    asmLine (.beStart 0 0x100 16) = "be.start c0, 256, 16" ∧ asmLine (.ansRans 0 64 192) = "ans.rans c0, 64, 192" ∧
    asmLine (.beStop 0) = "be.stop c0" := by decide

/-! ### The table's words, as the first command after reset -/

theorem test_decodeTableWord :
    decodeTableWord 32 0x20018000 = some (.beWrite 0 1 128) ∧ decodeTableWord 32 0x10000000 = some (.beStart 0 0 0) ∧
    decodeTableWord 96 0x00000010_00000100_10000000 = some (.beStart 0 0x100 16) ∧
    decodeTableWord 32 0x20038000 = none := by decide

/-- A command that the host sends runs as the first one after reset: BE-F1, and `reg.read c0, 0xF2`. -/
theorem test_withFetchWord :
    stepFaults (State.reset.withFetchWord 32 0x20018000) = some (some ⟨.faulted, 4⟩, 0x4, 0x20018000) ∧
    stepFaults (State.reset.withFetchWord 32 0xE0F20000) = some (some ⟨.ok, 1⟩, 0, 0) := by decide

/-! ### Bool encoder -/

theorem test_beStart : after (.beStart 0 0x100 16) (block Context.reset []) =
    some (⟨.ok, 0⟩, withBe beNew, []) := by decide

/-- Vector BE-F6. -/
theorem test_beStart_region : after (.beStart 0 0xFFFFFFF0 0x11) (block Context.reset []) =
    some (⟨.faulted, 7⟩, Context.reset, []) := by decide

/-- Vector BE-4. -/
theorem test_beWrite : after (.beWrite 0 1 255) (block (withBe beNew) []) =
    some (⟨.ok, 0⟩, withBe ⟨.active, 0x3F80, 128, -17, 0, 0x100, 16⟩, []) := by decide

/-- Vector BE-10, write 28: a carry through four 0xFF bytes. -/
theorem test_beWrite_carry :
    after (.beWrite 0 1 127) (block (withBe ⟨.active, 0x7FFFFFC0, 128, -1, 5, 0x300, 16⟩)
      [(0x300, 0x3F), (0x301, 0xFF), (0x302, 0xFF), (0x303, 0xFF), (0x304, 0xFF)]) =
    some (⟨.ok, 0⟩, withBe ⟨.active, 0, 128, -8, 6, 0x300, 16⟩, [(0x300, 0x40)]) := by decide

/-- Vector BE-9: the carry pending in `low` reaches the emitted bytes. -/
theorem test_beStop_carry : after (.beStop 0) (block (withBe beCarrying) beCarryingMem) =
    some (⟨.ok, 6⟩, withBe ⟨.final, 0, 128, -4, 6, 0x300, 8⟩, [(0x300, 0x40)]) := by decide

/-- Vector BE-11 with STOP_GUARD = 1: the guard byte follows the final `C0`. -/
theorem test_beStop_guard :
    after (.beStop 0) (block (withBe ⟨.active, 0xEDE18, 200, -11, 0, 0x100, 16⟩) []) =
    some (⟨.ok, 4⟩, withBe ⟨.final, 0, 200, -3, 4, 0x100, 16⟩, [(0x100, 0x76), (0x101, 0xF0), (0x102, 0xC0)]) := by
  decide

/-! ### Bool decoder -/

/-- Vector BD-2. -/
theorem test_bdInit : after (.bdInit 0 0x100 1) (block Context.reset [(0x100, 0xFF)]) =
    some (⟨.ok, 1⟩, withBd ⟨.active, 254, 254, 9, 0x100, 1⟩, [(0x100, 0xFF)]) := by decide

/-- Vector X-6: the marker of `58 00`. -/
theorem test_bdInit_marker : after (.bdInit 0 0x100 2) (block Context.reset [(0x100, 0x58)]) =
    some (⟨.ok, 0⟩, withBd ⟨.active, 0x58, 128, 8, 0x100, 2⟩, [(0x100, 0x58)]) := by decide

/-- Vector BD-3, read 2: a shift of 7. -/
theorem test_bdRead : after (.bdRead 0 255) (block (withBd ⟨.active, 253, 253, 9, 0x100, 1⟩) [(0x100, 0xFF)]) =
    some (⟨.ok, 1⟩, withBd ⟨.active, 128, 128, 16, 0x100, 1⟩, [(0x100, 0xFF)]) := by decide

/-- Vector X-6, read 2. -/
theorem test_bdRead_zero : after (.bdRead 0 128) (block (withBd ⟨.active, 48, 128, 9, 0x100, 2⟩) [(0x100, 0x58)]) =
    some (⟨.ok, 0⟩, withBd ⟨.active, 96, 128, 10, 0x100, 2⟩, [(0x100, 0x58)]) := by decide

/-! ### ANS -/

theorem test_ansInit : after (.ansInit 0 0x200 8) (block Context.reset []) =
    some (⟨.ok, 0⟩, withAns ⟨.active, 1024, 0, 0x200, 8⟩, []) := by decide

/-- Vector ANS-16. -/
theorem test_ansUabs : after (.ansUabs 0 0 255) (block (withAns ⟨.active, 262143, 0, 0x200, 8⟩) []) =
    some (⟨.ok, 0⟩, withAns ⟨.active, 1027, 1, 0x200, 8⟩, [(0x200, 0xFF)]) := by decide

/-- Vector ANS-4. -/
theorem test_ansUabs_one : after (.ansUabs 0 1 1) (block (withAns ⟨.active, 1024, 0, 0x200, 8⟩) []) =
    some (⟨.ok, 0⟩, withAns ⟨.active, 1029, 0, 0x200, 8⟩, []) := by decide

/-- Vector ANS-17. -/
theorem test_ansRans : after (.ansRans 0 0 1) (block (withAns ⟨.active, 262143, 0, 0x200, 8⟩) []) =
    some (⟨.ok, 0⟩, withAns ⟨.active, 261888, 1, 0x200, 8⟩, [(0x200, 0xFF)]) := by decide

/-- Vector ANS-F2: `200 + 57 > 256`. -/
theorem test_ansRans_range : after (.ansRans 0 200 57) (block (withAns ⟨.active, 1024, 0, 0x200, 8⟩) []) =
    some (⟨.faulted, 6⟩, withAns ⟨.active, 1024, 0, 0x200, 8⟩, []) := by decide

/-- Vector ANS-E6. -/
theorem test_ansEnd : after (.ansEnd 0) (block (withAns ⟨.active, 262143, 0, 0x200, 8⟩) []) =
    some (⟨.ok, 3⟩, withAns ⟨.final, 262143, 3, 0x200, 8⟩, [(0x200, 0xFF), (0x201, 0xFB), (0x202, 0x83)]) := by decide

/-- Vector ANS-F6: two bytes needed, one left, none written. -/
theorem test_ansEnd_overrun : after (.ansEnd 0) (block (withAns ⟨.active, 2048, 0, 0x200, 1⟩) []) =
    some (⟨.faulted, 9⟩, withAns ⟨.active, 2048, 0, 0x200, 1⟩, []) := by decide

/-! ### Symbol queue -/

theorem test_sqInit : after (.sqInit 0 1024) (block (withSq ⟨.final, 2, 4, [(0, ⟨.uabs, 1, 128⟩)]⟩) []) =
    some (⟨.ok, 0⟩, withSq ⟨.active, 0, 1024, [(0, ⟨.uabs, 1, 128⟩)]⟩, []) := by decide

theorem test_sqInit_capacity : after (.sqInit 0 1025) (block Context.reset []) =
    some (⟨.faulted, 8⟩, Context.reset, []) := by decide

/-- Vector SQ-1: the record `0x0_0180`. -/
theorem test_sqUabs : after (.sqUabs 0 1 128) (block (withSq ⟨.active, 0, 4, []⟩) []) =
    some (⟨.ok, 0⟩, withSq ⟨.active, 1, 4, [(0, SqRecord.ofBits 0x00180)]⟩, []) := by decide

/-- Vector SQ-1: the record `0x1_40C0`. -/
theorem test_sqRans : after (.sqRans 0 64 192) (block (withSq ⟨.active, 1, 4, [(0, ⟨.uabs, 1, 128⟩)]⟩) []) =
    some (⟨.ok, 0⟩, withSq ⟨.active, 2, 4, [(0, ⟨.uabs, 1, 128⟩), (1, SqRecord.ofBits 0x140C0)]⟩, []) := by decide

/-- A full queue takes no record. -/
theorem test_sqRans_full : after (.sqRans 0 64 192) (block (withSq ⟨.active, 4, 4, []⟩) []) =
    some (⟨.faulted, 0xA⟩, withSq ⟨.active, 4, 4, []⟩, []) := by decide

/-- Vector SQ-R, k = 2: the records `sq.uabs 0, 1` and `sq.rans 7, 65`, last first. -/
theorem test_sqFlush :
    after (.sqFlush 0) (block { Context.reset with
      ans := ⟨.active, 1024, 0, 0x200, 200⟩
      sq := ⟨.active, 2, 100, [(0, ⟨.uabs, 0, 1⟩), (1, ⟨.rans, 7, 65⟩)]⟩ } []) =
    some (⟨.ok, 2⟩, { Context.reset with
      ans := ⟨.active, 3840, 1, 0x200, 200⟩
      sq := ⟨.final, 2, 100, [(0, ⟨.uabs, 0, 1⟩), (1, ⟨.rans, 7, 65⟩)]⟩ }, [(0x200, 0x38)]) := by decide

/-! ### REG_READ and the fault registers -/

/-- `BE.count` is sign-extended (spec R35): -24 reads as 0xFFFFFFE8. -/
theorem test_regRead : after (.regRead 0 3) (block (withBe beNew) []) =
    some (⟨.ok, 0xFFFFFFE8⟩, withBe beNew, []) := by decide

/-- A halted block refuses a command with the value 0 and keeps its first fault (spec R184). -/
theorem test_halted_refuses :
    stepFaults { block Context.reset [] with faultCode := 4, faultCmd := 0x20018000, stream := [0x30000000] } =
    some (some ⟨.faulted, 0⟩, 4, 0x20018000) := by decide

/-- The memory of the state after reset is in its canonical form. -/
theorem test_reset_memory : Memory.wf State.reset.mem := by decide

/-! ### Witnesses: concrete inputs that meet the hypotheses of each statement, clause by clause -/

theorem witness_EncodeDecodeRoundTrip :
    (Instr.beWrite 15 1 255).wf = true ∧ (Instr.sqInit 0 0xFFFFFFFF).wf = true := by decide

theorem witness_DecodedCommandReencodes :
    decode 0x10000000 [0, 0xFFFFFFFF, 7] = .ok (.beStart 0 0 0xFFFFFFFF) := by decide

/-- A word of each kind: reserved opcode, matching, matching no row. -/
theorem witness_DecoderFollowsMaskTable :
    commandLength 0xF0000000 ≤ ([] : List Word).length + 1 ∧ opField 0xF0000000 = 0xF ∧
    commandLength 0x2F01FF00 ≤ ([] : List Word).length + 1 ∧ (∃ row ∈ maskTable, 0x2F01FF00 &&& row.2.2 = row.2.1) ∧
    commandLength 0x2F02FF00 ≤ ([] : List Word).length + 1 ∧ ¬ (∃ row ∈ maskTable, 0x2F02FF00 &&& row.2.2 = row.2.1) := by decide

theorem witness_TruncationIsByOpcodeAlone :
    decode 0x1FFFFFFF [0] = .error .truncatedCommand ∧ decode 0x10000000 [0, 0] = .ok (.beStart 0 0 0) ∧
    decode 0xA0000000 [] = .error .truncatedCommand ∧ decode 0xA0000000 [0] = .ok (.sqInit 0 0) := by decide

theorem witness_StepRunsDecodedCommand :
    (∃ w ext, { State.reset with stream := [0xA0000000, 4, 9] }.stream = w :: ext ∧ decode w ext = .ok (.sqInit 0 4)) ∧
    (Instr.sqInit 0 4).wf = true ∧
    { State.reset with stream := [0xA0000000, 4, 9] }.stream = encode (.sqInit 0 4) ++ [9] :=
  ⟨⟨_, _, rfl, by decide⟩, by decide, by decide⟩

/-- One word for each code, in a running block and in a halted one. -/
theorem witness_StepAnswersRejectedWord :
    State.reset.faultCode = 0 ∧ { State.reset with faultCode := 4 }.faultCode ≠ 0 ∧
    decode 0 [] = .error .illegalOpcode ∧ opField 0 ≠ 0xE ∧
    decode 0xA0000000 [] = .error .truncatedCommand ∧
    decode 0xE0F00001 [] = .error .reservedNonzero ∧ opField 0xE0F00001 = 0xE := by decide

/-- The last address of the memory, and the first one that does not exist. -/
theorem witness_HostTurnsActBetweenCommands :
    State.reset.stream = [] ∧ 0xFFFFFFFF < 2 ^ State.reset.cfg.addrW ∧ 2 ^ State.reset.cfg.addrW ≤ 0x100000000 := by
  decide

/-- A halted block, a register of the table and a number next to one, an absent context, and the reset that ends it. -/
theorem witness_HaltedBlockRefusesCommands :
    { State.reset with faultCode := 4, inbox := [.reset] }.faultCode ≠ 0 ∧ (Instr.beStop 0).opcode ≠ 0xE ∧
    regOf 0x06 = some .beCap ∧ regOf 0x07 = none ∧ State.reset.cfg.nCtx ≤ (1 : BitVec 4).toNat ∧
    ∃ t, step { State.reset with faultCode := 4, inbox := [.reset] } = .next t ∧ t.faultCode = 0 :=
  ⟨by decide, by decide, by decide, by decide, by decide, ⟨_, rfl, by decide⟩⟩

/-- A halted block with a word waiting. -/
theorem witness_HaltedStateIsFrozen :
    { State.reset with faultCode := 4, stream := [0x30000000] }.faultCode ≠ 0 ∧
    { State.reset with faultCode := 4, stream := [0x30000000] }.stream ≠ [] := by decide

/-- A fault in a running block, one of REG_READ in a halted block, and a word that is no command. -/
theorem witness_FaultsArePreciseAndSticky :
    (∃ t, exec (.beWrite 0 1 128) (block Context.reset []) = .next t ∧ t.response = some ⟨.faulted, 4⟩) ∧
    (∃ t, exec (.regRead 0 7) { block Context.reset [] with faultCode := 4 } = .next t ∧
      t.response = some ⟨.faulted, 0xB⟩) ∧
    (∃ t, step { State.reset with stream := [0xF0000000] } = .next t ∧ t.response = some ⟨.faulted, 1⟩) :=
  ⟨⟨_, rfl, by decide⟩, ⟨_, rfl, by decide⟩, ⟨_, rfl, by decide⟩⟩

theorem witness_CommandsTouchOnlyTheirContext :
    ∃ t, exec (.sqInit 0 4) (block Context.reset []) = .next t ∧ t.response = some ⟨.ok, 0⟩ ∧ (1 : BitVec 4) ≠ 0 :=
  ⟨_, rfl, by decide, by decide⟩

theorem witness_TakeFaultRecordsTheFirst :
    State.reset.faultCode = 0 ∧ { State.reset with faultCode := 4 }.faultCode ≠ 0 := by decide

/-- `CTX = N_CTX`, the first context that the block does not have. -/
theorem witness_AbsentContextFaults :
    State.reset.cfg.nCtx ≤ (Instr.regRead 1 0xF0).ctx.toNat ∧ State.reset.faultCode = 0 ∧
    (Instr.regRead 1 0xF0).opcode = 0xE := by decide

theorem witness_InactiveEngineFaults :
    State.reset.ready 0 ∧ (State.reset.ctx 0).be.lc ≠ .active ∧ (State.reset.ctx 0).bd.lc ≠ .active ∧
    (State.reset.ctx 0).ans.lc ≠ .active ∧ (State.reset.ctx 0).sq.lc ≠ .active := by decide

/-- Every engine ACTIVE: a bool-encoder unit and a decoder just started, an ANS unit with room, a queue with a record. -/
def allActive : Context where
  be  := beNew
  bd  := ⟨.active, 0x58, 128, 8, 0x100, 2⟩
  ans := ⟨.active, 1024, 0, 0x200, 8⟩
  sq  := ⟨.active, 1, 4, [(0, ⟨.uabs, 1, 128⟩)]⟩

theorem witness_ZeroProbabilityFaults :
    (block allActive []).ready 0 ∧ ((block allActive []).ctx 0).be.lc = .active ∧
    ((block allActive []).ctx 0).bd.lc = .active ∧ ((block allActive []).ctx 0).ans.lc = .active ∧
    ((block allActive []).ctx 0).sq.lc = .active := by decide

/-- The smallest sum that is out of range. -/
theorem witness_SymbolPastSlotsFaults : 256 < (200 : BitVec 8).toNat + (57 : BitVec 8).toNat := by decide

/-- A region one byte past the end of a 32-bit memory, and a base at the end of a 16-bit one. -/
theorem witness_RegionPastMemoryFaults :
    State.reset.ready 0 ∧ 2 ^ State.reset.cfg.addrW < (0xFFFFFFF0 : Word).toNat + (0x11 : Word).toNat ∧
    (State.resetWith ⟨1, 4, 16, false⟩).ready 0 ∧
    2 ^ (State.resetWith ⟨1, 4, 16, false⟩).cfg.addrW ≤ (0x10000 : Word).toNat := by decide

/-- One past SQ_MAX, and a full queue with the largest legal symbol. -/
theorem witness_CapacityFaults :
    State.reset.ready 0 ∧ State.reset.cfg.sqMax < (1025 : Word).toNat ∧
    (block (withSq ⟨.active, 4, 4, []⟩) []).ready 0 ∧ (4 : Word).toNat ≤ (4 : Word).toNat ∧
    (56 : BitVec 8) ≠ 0 ∧ (200 : BitVec 8).toNat + (56 : BitVec 8).toNat ≤ 256 := by decide

/-- The numbers next to the table's ranges. -/
theorem witness_UnassignedRegisterFaults : ∀ n ∈ [0x07#8, 0x0F#8, 0x16#8, 0x1F#8, 0x25#8, 0x2F#8, 0x33#8, 0xEF#8, 0xF5#8, 0xFF#8],
    ¬ (n.toNat ≤ 0x06 ∨ (0x10 ≤ n.toNat ∧ n.toNat ≤ 0x15) ∨ (0x20 ≤ n.toNat ∧ n.toNat ≤ 0x24) ∨
      (0x30 ≤ n.toNat ∧ n.toNat ≤ 0x32) ∨ (0xF0 ≤ n.toNat ∧ n.toNat ≤ 0xF4)) := by decide

theorem beNew_ok : BeOk beNew := by refine ⟨?_, ?_, ?_, ?_, ?_, ?_⟩ <;> decide

theorem beCarrying_ok : BeOk beCarrying := by refine ⟨?_, ?_, ?_, ?_, ?_, ?_⟩ <;> decide

/-- A unit that completes a byte with the next bit, with no room left: `pos = cap`. -/
def beFull : BeRegs := ⟨.active, 0, 128, -1, 2, 0x300, 2⟩

theorem beFull_ok : BeOk beFull := by refine ⟨?_, ?_, ?_, ?_, ?_, ?_⟩ <;> decide

/-- A unit with a carry pending and one emitted byte (0xFF in the witnesses) to take it. -/
def beTop : BeRegs := ⟨.active, 0x80000000, 128, -1, 1, 0x300, 8⟩

theorem beTop_ok : BeOk beTop := by refine ⟨?_, ?_, ?_, ?_, ?_, ?_⟩ <;> decide

/-- No room; and room, a pending carry, and only 0xFF bytes below it. -/
theorem witness_BeWriteFaults :
    (BeOk beFull ∧ regionFits Config.vectors beFull.base beFull.cap ∧
      0 ≤ beFull.count.toInt + encShift true 128 beFull ∧ beFull.cap.toNat ≤ beFull.pos.toNat) ∧
    (BeOk beTop ∧ regionFits Config.vectors beTop.base beTop.cap ∧ 0 ≤ beTop.count.toInt + encShift true 128 beTop ∧
      beTop.pos.toNat < beTop.cap.toNat ∧ 2 ^ (beTop.count.toInt + 32).toNat ≤ (encLow true 128 beTop).toNat ∧
      ∀ j, j < beTop.pos.toNat → Memory.read [(0x300, 0xFF)] (beTop.base.toNat + j) = 0xFF) :=
  ⟨⟨beFull_ok, by decide, by decide, by decide⟩, ⟨beTop_ok, by decide, by decide, by decide, by decide, by decide⟩⟩

/-- ANS at its threshold with no room; outside the interval on both sides; and with one byte of room for two. -/
theorem witness_AnsFaults :
    (block (withAns ⟨.active, 131072, 8, 0x200, 8⟩) []).ready 0 ∧ (8 : Word).toNat ≤ (8 : Word).toNat ∧
    1024 * (128 : BitVec 8).toNat ≤ (131072 : Word).toNat ∧
    ¬ (1024 ≤ (1023 : Word).toNat ∧ (1023 : Word).toNat < 262144) ∧
    ¬ (1024 ≤ (262144 : Word).toNat ∧ (262144 : Word).toNat < 262144) ∧
    regionFits Config.vectors 0x200 1 ∧
    (1 : Word).toNat < (0 : Word).toNat + (if (2048 : Word).toNat - 1024 < 64 then 1 else
      if (2048 : Word).toNat - 1024 < 16384 then 2 else 3) := by decide

/-- A queue of two records that put a byte each, and an ANS with one byte of room. -/
def tightQueue : Context where
  be  := beNew
  bd  := ⟨.active, 0x58, 128, 8, 0x100, 2⟩
  ans := ⟨.active, 1024, 0, 0x200, 1⟩
  sq  := ⟨.active, 2, 4, [(0, ⟨.uabs, 1, 255⟩), (1, ⟨.rans, 10, 1⟩)]⟩

theorem tightQueue_ok : SqOk Config.vectors tightQueue.sq := by
  refine ⟨by decide, by decide, by decide, by decide, by decide, ?_⟩
  decide

/-- For AnsFaults, SQ_FLUSH: the direct command of the last record fills the region, and the first record, whose step
needs a byte, has no room. -/
theorem witness_AnsFaults_flush :
    (block tightQueue []).ready 0 ∧ SqOk Config.vectors tightQueue.sq ∧
    regionFits Config.vectors tightQueue.ans.base tightQueue.ans.cap ∧
    (queueRecords 0 tightQueue.sq).reverse = [⟨.rans, 10, 1⟩] ++ ⟨.uabs, 1, 255⟩ :: [] ∧
    ∃ u, runAll ([⟨.rans, 10, 1⟩].map (recordCommand 0)) (block tightQueue []) = some ([0], u) ∧
      (u.ctx 0).ans.cap.toNat ≤ (u.ctx 0).ans.off.toNat ∧ 1024 * (256 - (255 : BitVec 8).toNat) ≤ (u.ctx 0).ans.x.toNat :=
  ⟨by decide, tightQueue_ok, by decide, by decide, _, rfl, by decide, by decide⟩

theorem witness_SplitLeavesBothIntervals :
    (2 ≤ 255 ∧ 255 ≤ 255 ∧ 0 ≤ 255) ∧ (2 ≤ 2 ∧ 2 ≤ 255 ∧ 255 ≤ 255) ∧
    decBitOf 128 ⟨.active, 63, 128, 8, 0, 0⟩ = false ∧ decBitOf 128 ⟨.active, 64, 128, 8, 0, 0⟩ = true := by decide

theorem witness_NormBringsRangeIntoWindow : (1 ≤ 1 ∧ 1 ≤ 255) ∧ (1 ≤ 255 ∧ 255 ≤ 255) := by decide

/-- For BeStartResult, AnsInitResult and BdInitResult: the last region of the memory, as in vector BE-F7. -/
theorem witness_init_regions :
    State.reset.ready 0 ∧ (0xFFFFFFF0 : Word).toNat < 2 ^ State.reset.cfg.addrW ∧
    (0xFFFFFFF0 : Word).toNat + (0x10 : Word).toNat ≤ 2 ^ State.reset.cfg.addrW := by decide

/-- Vector BE-1: a shift of 7 that completes no byte. -/
theorem witness_BeWriteWithoutByte :
    (block (withBe beNew) []).ready 0 ∧ BeOk beNew ∧ (1 : BitVec 8) ≠ 0 ∧
    1 = 1 + (beNew.range.toNat - 1) * (1 : BitVec 8).toNat / 256 ∧ 7 = 7 - Nat.log2 1 ∧
    beNew.count.toInt + (7 : Nat) < 0 :=
  ⟨by decide, beNew_ok, by decide, by decide, by decide, by decide⟩

/-- The unit of vector BE-10 before its write 28, which carries. -/
def beCarries : BeRegs := ⟨.active, 0x7FFFFFC0, 128, -1, 5, 0x300, 16⟩

theorem witness_BeWriteWithByte :
    BeOk beCarries ∧ regionFits Config.vectors beCarries.base beCarries.cap ∧
    64 = 1 + (beCarries.range.toNat - 1) * (127 : BitVec 8).toNat / 256 ∧ 64 = beCarries.range.toNat - 64 ∧
    1 = 7 - Nat.log2 64 ∧ 0 ≤ beCarries.count.toInt + (1 : Nat) ∧ beCarries.pos.toNat < beCarries.cap.toNat ∧
    2 ^ (beCarries.count.toInt + 32).toNat ≤ beCarries.low.toNat + 64 ∧
    ∃ j, j < beCarries.pos.toNat ∧ Memory.read [(0x300, 0x3F)] (beCarries.base.toNat + j) ≠ 0xFF :=
  ⟨by refine ⟨?_, ?_, ?_, ?_, ?_, ?_⟩ <;> decide, by decide, by decide, by decide, by decide, by decide, by decide,
    by decide, 0, by decide, by decide⟩

/-- A carry that moves the cursor, below a byte that is not 0xFF; and a write that moves none. -/
theorem witness_BeStoresOnlyItsOutput :
    (∃ t, exec (.beStop 0) (block (withBe beCarrying) beCarryingMem) = .next t) ∧ BeOk beCarrying ∧
    (0 < beCarrying.pos.toNat ∧ Memory.read beCarryingMem (beCarrying.base.toNat + 0) ≠ 0xFF) ∧
    (∃ t, exec (.beWrite 0 0 1) (block (withBe beNew) []) = .next t ∧ (t.ctx 0).be.pos = beNew.pos) :=
  ⟨⟨_, rfl⟩, beCarrying_ok, by decide, ⟨_, rfl, by decide⟩⟩

/-- Vector BE-9, where the carry is taken (no guard byte), and vector BE-11, with the guard byte. -/
theorem witness_BeStopResult :
    (BeOk beCarrying ∧ regionFits Config.vectors beCarrying.base beCarrying.cap ∧
      4 = 1 + (32 + beCarrying.count.toInt).toNat / 8 ∧ beCarrying.pos.toNat + 4 + 0 ≤ beCarrying.cap.toNat ∧
      ∃ j, j < beCarrying.pos.toNat ∧ Memory.read beCarryingMem (beCarrying.base.toNat + j) ≠ 0xFF) ∧
    (3 = 1 + (32 + (-11 : BitVec 8).toInt).toNat / 8 ∧
      codeValue ⟨.active, 0xEDE18, 200, -11, 0, 0x100, 16⟩ [] * 2 ^ 32 /
        2 ^ ((-11 : BitVec 8).toInt + 64 - 8 * (3 : Nat)).toNat % 256 / 32 = 6 ∧
      (0 : Word).toNat + 3 + 1 ≤ (16 : Word).toNat) :=
  ⟨⟨beCarrying_ok, by decide, by decide, by decide, 0, by decide, by decide⟩, by decide⟩

/-- No room for the second byte of an empty unit (one byte of room); and a carry with only a 0xFF byte below it. -/
theorem witness_BeStopFaults :
    (BeOk ⟨.active, 0, 128, -24, 0, 0x100, 1⟩ ∧ 2 = 1 + (32 + (-24 : BitVec 8).toInt).toNat / 8 ∧
      (1 : Word).toNat < (0 : Word).toNat + 2 + 0) ∧
    (BeOk beTop ∧ beTop.pos.toNat < beTop.cap.toNat ∧ 2 ^ (beTop.count.toInt + 32).toNat ≤ beTop.low.toNat ∧
      ∀ j, j < beTop.pos.toNat → Memory.read [(0x300, 0xFF)] (beTop.base.toNat + j) = 0xFF) :=
  ⟨⟨by refine ⟨?_, ?_, ?_, ?_, ?_, ?_⟩ <;> decide, by decide, by decide⟩, ⟨beTop_ok, by decide, by decide, by decide⟩⟩

/-- A started unit; and the unit of vector BE-9 with its bytes. -/
theorem witness_SentinelHolds :
    (∃ t, exec (.beStart 0 0x100 16) (block Context.reset []) = .next t ∧ t.response = some ⟨.ok, 0⟩) ∧
    (BeOk beCarrying ∧ BeSentinel beCarrying beCarryingMem ∧ 0 < beCarrying.pos.toNat ∧
      ∃ t, exec (.beStop 0) (block (withBe beCarrying) beCarryingMem) = .next t ∧ t.response = some ⟨.ok, 6⟩) :=
  ⟨⟨_, rfl, by decide⟩, beCarrying_ok, by unfold BeSentinel; decide, by decide, ⟨_, rfl, by decide⟩⟩

/-- Vector BD-3, read 2, for the bit 1; vector X-6, read 2, for the bit 0. -/
theorem witness_BdReadResult :
    (block (withBd ⟨.active, 253, 253, 9, 0x100, 1⟩) []).ready 0 ∧ 128 ≤ (253 : BitVec 8).toNat ∧
    regionFits Config.vectors 0x100 1 ∧ 252 = 1 + ((253 : BitVec 8).toNat - 1) * (255 : BitVec 8).toNat / 256 ∧
    true = decide (252 ≤ (253 : BitVec 8).toNat) ∧ 7 = 7 - Nat.log2 (253 - 252) ∧
    64 = 1 + ((128 : BitVec 8).toNat - 1) * (128 : BitVec 8).toNat / 256 ∧
    false = decide (64 ≤ (48 : BitVec 8).toNat) ∧ 1 = 7 - Nat.log2 64 := by decide

/-- The largest first byte with marker 0, the smallest with marker 1, and an empty region. -/
theorem witness_BdInitResult :
    127 = (if 0 < (1 : Word).toNat then (Memory.read [(0x100, 0x7F)] (0x100 : Word).toNat).toNat else 0) ∧ 127 < 128 ∧
    128 = (if 0 < (1 : Word).toNat then (Memory.read [(0x100, 0x80)] (0x100 : Word).toNat).toNat else 0) ∧ 128 ≤ 128 ∧
    0 = (if 0 < (0 : Word).toNat then (Memory.read [(0x100, 0x80)] (0x100 : Word).toNat).toNat else 0) := by decide

/-- The five bits of vector X-6, in a region of exactly the size asked for. -/
theorem witness_CodersRoundTrip :
    State.reset.ready 0 ∧ (0x100 : Word).toNat + (7 : Word).toNat ≤ 2 ^ State.reset.cfg.addrW ∧
    (∀ x ∈ [(true, 128#8), (false, 128#8), (true, 128#8), (true, 128#8), (false, 128#8)], x.2 ≠ 0) ∧
    7 * 5 / 8 + 3 ≤ (7 : Word).toNat :=
  ⟨by decide, by decide, by simp, by decide⟩

/-- Vectors ANS-13 and ANS-14: the last state below the threshold and the first at it. -/
theorem witness_AnsUabsResult :
    (block (withAns ⟨.active, 131071, 0, 0x200, 8⟩) []).ready 0 ∧ regionFits Config.vectors 0x200 8 ∧
    131071 < 1024 * (128 : BitVec 8).toNat ∧ 1024 * (128 : BitVec 8).toNat ≤ 131072 ∧ 131072 < 262144 ∧
    (0 : Word).toNat < (8 : Word).toNat := by decide

/-- Vectors ANS-9 and ANS-F4: a symbol of one slot renormalizes from 1024, one of 56 does not. -/
theorem witness_AnsRansResult :
    (200 : BitVec 8).toNat + (56 : BitVec 8).toNat ≤ 256 ∧ 1024 < 1024 * (56 : BitVec 8).toNat ∧
    1024 * (1 : BitVec 8).toNat ≤ 1024 := by decide

/-- Vectors ANS-E1 to ANS-E6: the ends of the three ranges. -/
theorem witness_AnsEndResult : ∀ xn ∈ [(1024, 1), (1087, 1), (1088, 2), (17407, 2), (17408, 3), (262143, 3)],
    1024 ≤ xn.1 ∧ xn.1 < 262144 ∧ xn.2 = (if xn.1 - 1024 < 64 then 1 else if xn.1 - 1024 < 16384 then 2 else 3) ∧
    (0 : Word).toNat + xn.2 ≤ (8 : Word).toNat := by decide

theorem witness_SqInitResult : State.reset.ready 0 ∧ (1024 : Word).toNat ≤ State.reset.cfg.sqMax := by decide

theorem witness_AppendResult :
    (block allActive []).ready 0 ∧ ((block allActive []).ctx 0).sq.lc = .active ∧
    ((block allActive []).ctx 0).sq.len.toNat < ((block allActive []).ctx 0).sq.cap.toNat ∧
    (1 : BitVec 8) ≠ 0 ∧ (255 : BitVec 8).toNat + (1 : BitVec 8).toNat ≤ 256 := by decide

theorem allActive_queue : SqOk Config.vectors allActive.sq := by
  refine ⟨by decide, by decide, by decide, by decide, by decide, ?_⟩
  decide

/-- A queue of one valid record and an ANS with room; also for the equality with the reversed commands. -/
theorem witness_SqFlushCompletes :
    (block allActive []).ready 0 ∧ SqOk Config.vectors allActive.sq ∧ allActive.ans.lc = .active ∧
    1024 ≤ allActive.ans.x.toNat ∧ allActive.ans.x.toNat < 262144 ∧
    regionFits Config.vectors allActive.ans.base allActive.ans.cap ∧
    allActive.ans.off.toNat + allActive.sq.len.toNat ≤ allActive.ans.cap.toNat :=
  ⟨by decide, allActive_queue, by decide, by decide, by decide, by decide, by decide⟩

theorem witness_FlushEqualsReversedCommands :
    ((runAll ((queueRecords 0 allActive.sq).reverse.map (recordCommand 0)) (block allActive [])).map (·.1)) = some [0] ∧
    (∃ t, exec (.sqFlush 0) (block allActive []) = .next t ∧ t.response = some ⟨.ok, allActive.sq.len⟩) :=
  ⟨by decide, ⟨_, rfl, by decide⟩⟩

/-- A state with each lifecycle value in a register that REG_READ names. -/
theorem witness_RegReadReturnsRegister :
    (0 : BitVec 4).toNat < State.reset.cfg.nCtx ∧ (State.reset.ctx 0).be.lc = .uninit ∧
    ((block allActive []).ctx 0).be.lc = .active ∧
    ((block (withSq ⟨.final, 1, 4, [(0, ⟨.uabs, 1, 128⟩)]⟩) []).ctx 0).sq.lc = .final := by decide

/-- For EnginesKeepToThemselves, NonStoringCommandsKeepMemory, AnsStoresOnlyAtItsCursor and LifecycleMoves: a next
state of each kind they speak of. -/
theorem witness_frames :
    (∃ t, exec (.bdInit 0 0x100 2) (block allActive []) = .next t ∧ t.response = some ⟨.ok, 0⟩) ∧
    (∃ t, exec (.ansRans 0 10 1) (block allActive []) = .next t ∧ t.response = some ⟨.ok, 0⟩) ∧
    (∃ t, exec (.sqFlush 0) (block allActive []) = .next t ∧ t.response = some ⟨.ok, 1⟩) :=
  ⟨⟨_, rfl, by decide⟩, ⟨_, rfl, by decide⟩, ⟨_, rfl, by decide⟩⟩

/-- Also for MemoryIsDeterminedByReads. -/
theorem witness_MemoryIsPlainStorage : Memory.wf beCarryingMem ∧ 0x3F = beCarryingMem.read 0x300 := by decide

theorem witness_InvariantAtReset :
    Config.vectors.Legal ∧ (⟨16, 1, 16, false⟩ : Config).Legal ∧ (⟨1, 4294967295, 32, true⟩ : Config).Legal := by decide

/-- For StepKeepsInvariant and GoodStatesNeverStop: a state with the invariant in which every engine is ACTIVE and a
command word waits. -/
theorem witness_Inv : State.Inv { block allActive [] with stream := [0x20018000] } := by
  have habs : ∀ c : BitVec 4, c ≠ 0 → State.ctx { block allActive [] with stream := [0x20018000] } c = Context.reset := by
    decide
  have h0 : State.ctx { block allActive [] with stream := [0x20018000] } 0 = allActive := by decide
  refine ⟨by decide, by decide, (fun e he => by cases he), by decide, by decide, (fun v h => by cases h), fun c => ?_,
    fun c hc => habs c fun h => ?_, (fun a v h => by cases h)⟩
  · by_cases h : c = 0
    · rw [h, h0]
      exact ⟨by decide, fun _ => beNew_ok, by decide, fun _ => ⟨by decide, by decide⟩, by decide, by decide,
        fun _ => ⟨by decide, by decide⟩, allActive_queue⟩
    · rw [habs c h]
      refine ⟨by decide, (fun h => by cases h), by decide, (fun h => by cases h), by decide, by decide,
        (fun h => by cases h), ⟨by decide, by decide, by decide, by decide, by decide, ?_⟩⟩
      intro i hi
      cases hi
  · subst h
    exact absurd hc (by decide)

end Sys2Proof.Tests
end

section
/-! SUPPORT. The frames of `exec`: what a next state is made of, and which registers a finished command writes
(spec R23, R26, R203). -/

namespace Sys2Proof.Machine

/-! ### What a next state is -/

/-- A next state is a refusal's, a fault's, or what a command that finished leaves. -/
theorem exec_answers {i : Instr} {s t : State} (h : exec i s = .next t) :
    t = refuseHalted s ∧ s.halted = true ∨
    (∃ f, t = takeFault f i.word s) ∨
    (i.ctx.toNat < s.cfg.nCtx ∧ ∃ d, Ran s d i ∧ t = ((s.setCtx i.ctx d.ctx).setMem d.mem).respond .ok d.value) := by
  rcases exec_cases i s with ⟨hh, -, h'⟩ | ⟨-, -, h'⟩ | ⟨-, hc, d, hr, h'⟩ | ⟨-, -, f, -, h'⟩ | ⟨-, -, f, -, h'⟩ <;>
    rw [h] at h' <;> cases h'
  · exact .inl ⟨rfl, hh⟩
  · exact .inr (.inl ⟨_, rfl⟩)
  · exact .inr (.inr ⟨hc, d, hr, rfl⟩)
  · exact .inr (.inl ⟨f, rfl⟩)

@[simp] theorem refuseHalted_cfg (s : State) : (refuseHalted s).cfg = s.cfg := rfl
@[simp] theorem refuseHalted_stream (s : State) : (refuseHalted s).stream = s.stream := rfl
@[simp] theorem refuseHalted_inbox (s : State) : (refuseHalted s).inbox = s.inbox := rfl
@[simp] theorem refuseHalted_ctx (s : State) (c : BitVec 4) : (refuseHalted s).ctx c = s.ctx c := rfl
@[simp] theorem refuseHalted_response (s : State) : (refuseHalted s).response = some ⟨.faulted, 0⟩ := rfl

/-! ### Which engine a finished command writes -/

/-- A finished command writes the engine its opcode belongs to; SQ_FLUSH writes ANS and the queue's lifecycle, and
REG_READ writes nothing (spec R26, R164, R180). -/
theorem Ran.ctx_cases {s : State} {d : Done} {i : Instr} (h : Ran s d i) :
    i.opcode ∈ [0x1#4, 0x2#4, 0x3#4] ∧ d.ctx = { s.ctx i.ctx with be := d.ctx.be } ∨
    i.opcode ∈ [0x4#4, 0x5#4] ∧ d.ctx = { s.ctx i.ctx with bd := d.ctx.bd } ∨
    i.opcode ∈ [0x6#4, 0x7#4, 0x8#4, 0x9#4] ∧ d.ctx = { s.ctx i.ctx with ans := d.ctx.ans } ∨
    i.opcode ∈ [0xA#4, 0xB#4, 0xC#4] ∧ d.ctx = { s.ctx i.ctx with sq := d.ctx.sq } ∨
    i.opcode = 0xD#4 ∧
      d.ctx = { s.ctx i.ctx with ans := d.ctx.ans, sq := { (s.ctx i.ctx).sq with lc := .final } } ∨
    i.opcode = 0xE#4 ∧ d.ctx = s.ctx i.ctx := by
  cases i with
  | beStart c base len =>
    obtain ⟨-, rfl⟩ := h
    exact .inl ⟨by simp [Instr.opcode], rfl⟩
  | beWrite c a p =>
    obtain ⟨-, -, be', m', -, rfl⟩ := h
    exact .inl ⟨by simp [Instr.opcode], rfl⟩
  | beStop c =>
    obtain ⟨-, be1, m1, be2, m2, -, -, rfl⟩ := h
    exact .inl ⟨by simp [Instr.opcode], rfl⟩
  | bdInit c base len =>
    obtain ⟨-, v, b, bd', -, -, rfl⟩ := h
    exact .inr (.inl ⟨by simp [Instr.opcode], rfl⟩)
  | bdRead c p =>
    obtain ⟨-, -, b, bd', -, rfl⟩ := h
    exact .inr (.inl ⟨by simp [Instr.opcode], rfl⟩)
  | ansInit c base len =>
    obtain ⟨-, rfl⟩ := h
    exact .inr (.inr (.inl ⟨by simp [Instr.opcode], rfl⟩))
  | ansUabs c a p0 =>
    obtain ⟨-, -, ans', m', -, rfl⟩ := h
    exact .inr (.inr (.inl ⟨by simp [Instr.opcode], rfl⟩))
  | ansRans c cum prob =>
    obtain ⟨-, -, -, ans', m', -, rfl⟩ := h
    exact .inr (.inr (.inl ⟨by simp [Instr.opcode], rfl⟩))
  | ansEnd c =>
    obtain ⟨-, -, ans', m', -, rfl⟩ := h
    exact .inr (.inr (.inl ⟨by simp [Instr.opcode], rfl⟩))
  | sqInit c capacity =>
    obtain ⟨-, rfl⟩ := h
    exact .inr (.inr (.inr (.inl ⟨by simp [Instr.opcode], rfl⟩)))
  | sqUabs c a p =>
    obtain ⟨-, -, sq', -, rfl⟩ := h
    exact .inr (.inr (.inr (.inl ⟨by simp [Instr.opcode], rfl⟩)))
  | sqRans c cum prob =>
    obtain ⟨-, -, -, sq', -, rfl⟩ := h
    exact .inr (.inr (.inr (.inl ⟨by simp [Instr.opcode], rfl⟩)))
  | sqFlush c =>
    obtain ⟨-, -, ans', m', -, rfl⟩ := h
    exact .inr (.inr (.inr (.inr (.inl ⟨rfl, rfl⟩))))
  | regRead c n =>
    obtain ⟨r, -, rfl⟩ := h
    exact .inr (.inr (.inr (.inr (.inr ⟨rfl, rfl⟩))))

section
variable {s : State} {d : Done} {i : Instr}

theorem Ran.be_eq (h : Ran s d i) (hi : i.opcode ∉ [0x1#4, 0x2#4, 0x3#4]) : d.ctx.be = (s.ctx i.ctx).be := by
  rcases h.ctx_cases with ⟨ho, -⟩ | ⟨-, hd⟩ | ⟨-, hd⟩ | ⟨-, hd⟩ | ⟨-, hd⟩ | ⟨-, hd⟩
  · exact absurd ho hi
  all_goals rw [hd]

theorem Ran.bd_eq (h : Ran s d i) (hi : i.opcode ∉ [0x4#4, 0x5#4]) : d.ctx.bd = (s.ctx i.ctx).bd := by
  rcases h.ctx_cases with ⟨-, hd⟩ | ⟨ho, -⟩ | ⟨-, hd⟩ | ⟨-, hd⟩ | ⟨-, hd⟩ | ⟨-, hd⟩
  case inr.inl => exact absurd ho hi
  all_goals rw [hd]

theorem Ran.ans_eq (h : Ran s d i) (hi : i.opcode ∉ [0x6#4, 0x7#4, 0x8#4, 0x9#4, 0xD#4]) :
    d.ctx.ans = (s.ctx i.ctx).ans := by
  rcases h.ctx_cases with ⟨-, hd⟩ | ⟨-, hd⟩ | ⟨ho, -⟩ | ⟨-, hd⟩ | ⟨ho, -⟩ | ⟨-, hd⟩
  case inr.inr.inl => exact absurd (List.mem_append_left [0xD#4] ho) hi
  case inr.inr.inr.inr.inl => exact absurd (by simp [ho]) hi
  all_goals rw [hd]

theorem Ran.sq_eq (h : Ran s d i) (hi : i.opcode ∉ [0xA#4, 0xB#4, 0xC#4, 0xD#4]) : d.ctx.sq = (s.ctx i.ctx).sq := by
  rcases h.ctx_cases with ⟨-, hd⟩ | ⟨-, hd⟩ | ⟨-, hd⟩ | ⟨ho, -⟩ | ⟨ho, -⟩ | ⟨-, hd⟩
  case inr.inr.inr.inl => exact absurd (List.mem_append_left [0xD#4] ho) hi
  case inr.inr.inr.inr.inl => exact absurd (by simp [ho]) hi
  all_goals rw [hd]

end

/-! ### Which registers of an engine a command of each opcode keeps -/

/-- What a command of opcode `op` keeps of BE ("Registers written" of spec R102, R105, R106). -/
structure BeKept (op : BitVec 4) (be be' : BeRegs) : Prop where
  lc     : op ∉ [0x1#4, 0x3#4] → be'.lc = be.lc
  regs   : op ∉ [0x1#4, 0x2#4, 0x3#4] → be' = be
  region : op ∉ [0x1#4] → be'.base = be.base ∧ be'.cap = be.cap

/-- What a command of opcode `op` keeps of BD (spec R123, R124). -/
structure BdKept (op : BitVec 4) (bd bd' : BdRegs) : Prop where
  lc     : op ∉ [0x4#4] → bd'.lc = bd.lc
  regs   : op ∉ [0x4#4, 0x5#4] → bd' = bd
  region : op ∉ [0x4#4] → bd'.base = bd.base ∧ bd'.size = bd.size

/-- What a command of opcode `op` keeps of ANS (spec R142 to R145, R164). -/
structure AnsKept (op : BitVec 4) (ans ans' : AnsRegs) : Prop where
  lc     : op ∉ [0x6#4, 0x9#4] → ans'.lc = ans.lc
  state  : op ∉ [0x6#4, 0x7#4, 0x8#4, 0xD#4] → ans'.x = ans.x
  regs   : op ∉ [0x6#4, 0x7#4, 0x8#4, 0x9#4, 0xD#4] → ans' = ans
  region : op ∉ [0x6#4] → ans'.base = ans.base ∧ ans'.cap = ans.cap

/-- What a command of opcode `op` for context `c` keeps of SQ (spec R161 to R164). -/
structure SqKept (op c : BitVec 4) (sq sq' : SqRegs) : Prop where
  lc      : op ∉ [0xA#4, 0xD#4] → sq'.lc = sq.lc
  length  : op ∉ [0xA#4, 0xB#4, 0xC#4] → sq'.len = sq.len
  cap     : op ∉ [0xA#4] → sq'.cap = sq.cap
  recs    : op ∉ [0xB#4, 0xC#4] → sq'.recs = sq.recs
  records : ∀ k, k ≠ sq.len.toNat → readRecord c sq'.recs k = readRecord c sq.recs k

theorem BeKept.of_eq (op : BitVec 4) {be be' : BeRegs} (h : be' = be) : BeKept op be be' := by
  subst h
  exact ⟨fun _ => rfl, fun _ => rfl, fun _ => ⟨rfl, rfl⟩⟩

theorem BdKept.of_eq (op : BitVec 4) {bd bd' : BdRegs} (h : bd' = bd) : BdKept op bd bd' := by
  subst h
  exact ⟨fun _ => rfl, fun _ => rfl, fun _ => ⟨rfl, rfl⟩⟩

theorem AnsKept.of_eq (op : BitVec 4) {ans ans' : AnsRegs} (h : ans' = ans) : AnsKept op ans ans' := by
  subst h
  exact ⟨fun _ => rfl, fun _ => rfl, fun _ => rfl, fun _ => ⟨rfl, rfl⟩⟩

theorem SqKept.of_eq (op c : BitVec 4) {sq sq' : SqRegs} (h : sq' = sq) : SqKept op c sq sq' := by
  subst h
  exact ⟨fun _ => rfl, fun _ => rfl, fun _ => rfl, fun _ => rfl, fun _ _ => rfl⟩

/-- The ANS commands that put bytes from the state, and SQ_FLUSH, keep the lifecycle and the region. -/
theorem AnsGrows.kept {cfg : Config} {op : BitVec 4} {ans ans' : AnsRegs} {m m' : Memory}
    (h : AnsGrows cfg ans m ans' m') (hop : op ∈ [0x7#4, 0x8#4, 0xD#4]) : AnsKept op ans ans' := by
  refine ⟨fun _ => h.lc, fun hn => absurd ?_ hn, fun hn => absurd ?_ hn, fun _ => ⟨h.base, h.cap⟩⟩ <;>
    simp only [List.mem_cons, List.not_mem_nil] at hop ⊢ <;> tauto

/-- An append keeps the lifecycle, the capacity and every record but the one at `SQ.len`. -/
theorem sqAppend_kept {op : BitVec 4} (c : BitVec 4) {r : SqRecord} {sq sq' : SqRegs} (h : sqAppend r sq = .ok sq')
    (hop : op ∈ [0xB#4, 0xC#4]) : SqKept op c sq sq' := by
  obtain ⟨-, rfl⟩ := sqAppend_ok h
  exact ⟨fun _ => rfl, fun hn => absurd (List.mem_cons_of_mem _ hop) hn, fun _ => rfl, fun hn => absurd hop hn,
    fun k hk => readRecord_insertAt_ne c sq.recs r hk⟩

section
variable {s : State} {d : Done} {i : Instr}

theorem Ran.beKept (h : Ran s d i) : BeKept i.opcode (s.ctx i.ctx).be d.ctx.be := by
  cases i
  case beStart => constructor <;> simp [Instr.opcode]
  case beWrite =>
    obtain ⟨-, -, be', m', hb, rfl⟩ := h
    obtain ⟨hlc, hbase, hcap, -⟩ := encBit_frame hb
    exact ⟨fun _ => hlc, by simp [Instr.opcode], fun _ => ⟨hbase, hcap⟩⟩
  case beStop =>
    obtain ⟨-, be1, m1, be2, m2, hp, hg, rfl⟩ := h
    obtain ⟨-, hbase, hcap, -⟩ := encPadding_frame hp
    refine ⟨by simp [Instr.opcode], by simp [Instr.opcode], fun _ => ?_⟩
    rcases guardByte_ok hg with ⟨rfl, -⟩ | ⟨-, -, -, rfl, -⟩ <;> exact ⟨hbase, hcap⟩
  all_goals exact .of_eq _ (h.be_eq (by simp [Instr.opcode]))

theorem Ran.bdKept (h : Ran s d i) : BdKept i.opcode (s.ctx i.ctx).bd d.ctx.bd := by
  cases i
  case bdInit => constructor <;> simp [Instr.opcode]
  case bdRead =>
    obtain ⟨-, -, b, bd', hb, rfl⟩ := h
    obtain ⟨-, hlc, hbase, hsize, -⟩ := decBit_frame hb
    exact ⟨fun _ => hlc, by simp [Instr.opcode], fun _ => ⟨hbase, hsize⟩⟩
  all_goals exact .of_eq _ (h.bd_eq (by simp [Instr.opcode]))

theorem Ran.ansKept (h : Ran s d i) : AnsKept i.opcode (s.ctx i.ctx).ans d.ctx.ans := by
  cases i
  case ansInit => constructor <;> simp [Instr.opcode]
  case ansUabs =>
    obtain ⟨-, -, ans', m', ha, rfl⟩ := h
    exact (uabsStep_ok ha).kept (by simp [Instr.opcode])
  case ansRans =>
    obtain ⟨-, -, -, ans', m', ha, rfl⟩ := h
    exact (ransStep_ok ha).kept (by simp [Instr.opcode])
  case ansEnd =>
    obtain ⟨-, -, ans', m', ha, rfl⟩ := h
    obtain ⟨hg, hx, -⟩ := ansPutAll_ok ha
    exact ⟨by simp [Instr.opcode], fun _ => hx, by simp [Instr.opcode], fun _ => ⟨hg.base, hg.cap⟩⟩
  case sqFlush =>
    obtain ⟨-, -, ans', m', ha, rfl⟩ := h
    exact (flushFrom_ok ha).kept (by simp [Instr.opcode])
  all_goals exact .of_eq _ (h.ans_eq (by simp [Instr.opcode]))

theorem Ran.sqKept (h : Ran s d i) : SqKept i.opcode i.ctx (s.ctx i.ctx).sq d.ctx.sq := by
  cases i
  case sqInit =>
    obtain ⟨-, rfl⟩ := h
    exact ⟨by simp [Instr.opcode], by simp [Instr.opcode], by simp [Instr.opcode], fun _ => rfl, fun _ _ => rfl⟩
  case sqUabs c a p =>
    obtain ⟨-, -, sq', hs, rfl⟩ := h
    exact sqAppend_kept c hs (by simp [Instr.opcode])
  case sqRans c cum prob =>
    obtain ⟨-, -, -, sq', hs, rfl⟩ := h
    exact sqAppend_kept c hs (by simp [Instr.opcode])
  case sqFlush =>
    obtain ⟨-, -, ans', m', -, rfl⟩ := h
    exact ⟨by simp [Instr.opcode], fun _ => rfl, fun _ => rfl, fun _ => rfl, fun _ _ => rfl⟩
  all_goals exact .of_eq _ _ (h.sq_eq (by simp [Instr.opcode]))

end

/-! ### Which commands store -/

/-- Only BE_WRITE, BE_STOP, the ANS commands past ANS_INIT, and SQ_FLUSH store. -/
theorem Ran.mem_eq {s : State} {d : Done} {i : Instr} (h : Ran s d i)
    (hi : i.opcode ∉ [0x2#4, 0x3#4, 0x7#4, 0x8#4, 0x9#4, 0xD#4]) : d.mem = s.mem := by
  cases i with
  | beStart | ansInit | sqInit =>
    obtain ⟨-, rfl⟩ := h
    rfl
  | bdInit =>
    obtain ⟨-, v, b, bd', -, -, rfl⟩ := h
    rfl
  | bdRead =>
    obtain ⟨-, -, b, bd', -, rfl⟩ := h
    rfl
  | sqUabs =>
    obtain ⟨-, -, sq', -, rfl⟩ := h
    rfl
  | sqRans =>
    obtain ⟨-, -, -, sq', -, rfl⟩ := h
    rfl
  | regRead =>
    obtain ⟨r, -, rfl⟩ := h
    rfl
  | beWrite | beStop | ansUabs | ansRans | ansEnd | sqFlush => simp [Instr.opcode] at hi

/-! ### The named context after a command -/

/-- What the command `i` keeps of each engine of the context it names. -/
structure EnginesKept (i : Instr) (k k' : Context) : Prop where
  be  : BeKept i.opcode k.be k'.be
  bd  : BdKept i.opcode k.bd k'.bd
  ans : AnsKept i.opcode k.ans k'.ans
  sq  : SqKept i.opcode i.ctx k.sq k'.sq

theorem EnginesKept.of_eq (i : Instr) {k k' : Context} (h : k' = k) : EnginesKept i k k' := by
  subst h
  exact ⟨.of_eq _ rfl, .of_eq _ rfl, .of_eq _ rfl, .of_eq _ _ rfl⟩

/-- A refusal and a fault keep every engine, and a command that finished those its rule does not list. -/
theorem exec_enginesKept {i : Instr} {s t : State} (h : exec i s = .next t) :
    EnginesKept i (s.ctx i.ctx) (t.ctx i.ctx) := by
  rcases exec_answers h with ⟨rfl, -⟩ | ⟨f, rfl⟩ | ⟨-, d, hr, rfl⟩
  · exact .of_eq i rfl
  · exact .of_eq i (takeFault_ctx ..)
  · rw [State.respond_ctx, State.setMem_ctx, State.ctx_setCtx_self]
    exact ⟨hr.beKept, hr.bdKept, hr.ansKept, hr.sqKept⟩

/-- Settles O14: each of the three kinds of next state answers once and keeps all but the named context. -/
theorem commandsTouchOnlyTheirContext : Obligations.CommandsTouchOnlyTheirContext := by
  intro i s t h
  rcases exec_answers h with ⟨rfl, -⟩ | ⟨f, rfl⟩ | ⟨-, d, -, rfl⟩
  · simp
  · simp
  · refine ⟨⟨_, rfl⟩, rfl, rfl, rfl, fun c hc => ?_, fun _ _ => ⟨rfl, rfl⟩⟩
    simp [State.ctx_setCtx_ne s d.ctx hc]

/-- Settles O46, engine by engine. -/
theorem enginesKeepToThemselves : Obligations.EnginesKeepToThemselves := by
  intro i s t h
  obtain ⟨be, bd, ans, sq⟩ := exec_enginesKept h
  exact ⟨be.lc, be.regs, be.region, bd.lc, bd.regs, bd.region, ans.lc, ans.state, ans.regs, ans.region,
    sq.lc, sq.length, sq.cap, sq.recs, sq.records⟩

end Sys2Proof.Machine
end

section
/-! SUPPORT. The invariant of the machine: it holds at reset, and every step keeps it (spec R31, R32, R51, R200). -/

namespace Sys2Proof.Machine

/-! ### Contexts at and after reset -/

/-- A context with every register at its reset value is in its legal values if its records are. -/
theorem contextOk_cleared (cfg : Config) {recs : RecordStore} (hrise : keysRise recs)
    (hin : ∀ e ∈ recs, e.1 < cfg.sqMax) (hv : ∀ e ∈ recs, e.2.valid = true) :
    ContextOk cfg { Context.reset with sq := { SqRegs.reset with recs := recs } } := by
  have hfit : regionFits cfg 0 0 := ⟨Nat.two_pow_pos _, Nat.zero_le _⟩
  exact {
    beRegion := hfit
    beActive := fun h => by cases h
    bdRegion := hfit
    bdActive := fun h => by cases h
    bdNotFinal := fun h => by cases h
    ansRegion := hfit
    ansActive := fun h => by cases h
    queue := ⟨Nat.zero_le _, Nat.zero_le _, hrise, hin, hv, fun _ hi => absurd hi (Nat.not_lt_zero _)⟩ }

theorem contextOk_reset (cfg : Config) : ContextOk cfg Context.reset :=
  contextOk_cleared cfg (recs := []) .nil (fun _ h => by cases h) (fun _ h => by cases h)

theorem ContextOk.afterReset {cfg : Config} {k : Context} (h : ContextOk cfg k) : ContextOk cfg k.afterReset :=
  contextOk_cleared cfg h.queue.rising h.queue.inside h.queue.valid

/-- Settles O54: every register is at its reset value, and nothing is listed in memory. -/
theorem invariantAtReset : Obligations.InvariantAtReset := by
  intro cfg hcfg
  exact {
    legal := hcfg
    memForm := Memory.wf_nil
    memInside := fun _ h => by cases h
    codeKnown := Nat.zero_le _
    cmdClear := fun _ => rfl
    haltedBy := fun _ h => by cases h
    contexts := fun c => by rw [State.resetWith_ctx]; exact contextOk_reset cfg
    absent := fun c _ => State.resetWith_ctx cfg c
    hostInside := fun _ _ h => by cases h }

/-- Settles O52: every context of the reset state is `Context.reset`. -/
theorem resetState : Obligations.ResetState := by
  intro cfg c
  rw [State.resetWith_ctx]
  exact ⟨rfl, rfl, rfl, rfl, rfl, rfl, rfl, rfl, rfl, rfl⟩

/-! ### One engine of a context replaced -/

section
variable {cfg : Config} {k : Context}

theorem ContextOk.setBe (h : ContextOk cfg k) {be : BeRegs} (hfit : regionFits cfg be.base be.cap)
    (hok : be.lc = .active → BeOk be) : ContextOk cfg { k with be := be } :=
  { h with beRegion := hfit, beActive := hok }

theorem ContextOk.setBd (h : ContextOk cfg k) {bd : BdRegs} (hfit : regionFits cfg bd.base bd.size)
    (hlc : bd.lc = .active) (hok : BdOk bd) : ContextOk cfg { k with bd := bd } :=
  { h with bdRegion := hfit, bdActive := fun _ => hok, bdNotFinal := fun hf => by simp [hlc] at hf }

theorem ContextOk.setAns (h : ContextOk cfg k) {ans : AnsRegs} (hfit : regionFits cfg ans.base ans.cap)
    (hok : ans.lc = .active → AnsOk ans) : ContextOk cfg { k with ans := ans } :=
  { h with ansRegion := hfit, ansActive := hok }

theorem ContextOk.setSq (h : ContextOk cfg k) {sq : SqRegs} (hok : SqOk cfg sq) : ContextOk cfg { k with sq := sq } :=
  { h with queue := hok }

end

/-! ### Each engine's steps keep its legal values -/

theorem probability_le (p : BitVec 8) : p.toNat ≤ 255 := Nat.le_of_lt_succ p.isLt

theorem probability_pos {p : BitVec 8} (h : p ≠ 0) : 1 ≤ p.toNat :=
  Nat.pos_of_ne_zero fun h0 => h (BitVec.eq_of_toNat_eq h0)

/-- The registers BD_INIT decodes the marker from are legal (spec R123). -/
theorem bdOk_fresh (v : BitVec 8) (base len : Word) : BdOk ⟨.active, v, 255, 8, base, len⟩ := by
  constructor <;> simp

/-- The registers of a new ANS unit are legal (spec R142). -/
theorem ansOk_fresh (base len : Word) : AnsOk ⟨.active, 1024, 0, base, len⟩ := by
  constructor <;> simp [ansInRange]

/-- A decode step from a legal range leaves a legal range (spec R31, R121). -/
theorem decBit_bdOk {cfg : Config} {p : Nat} {bd bd' : BdRegs} {m : Memory} {b : Bool} (hok : BdOk bd) (hp : p ≤ 255)
    (hfit : regionFits cfg bd.base bd.size) (h : decBit cfg p bd m = .ok (b, bd')) : BdOk bd' := by
  have hr : 2 ≤ bd.range.toNat := Nat.le_trans (by decide) hok.rangeLow
  obtain ⟨-, hpos, h254, -⟩ := decNarrow_eq hr hp
  obtain ⟨bd1, h1, -, -, -, hrange, hbit, -⟩ := decBit_eq m hr hp hfit
  rw [h] at h1
  cases h1
  refine ⟨?_, ?_⟩
  · rw [hrange]
    exact (normShift_window hpos (by omega)).1
  · have := hok.bitpos
    omega

/-- An ANS step that keeps the state in its interval keeps the legal values, the region and the lifecycle. -/
theorem ContextOk.ansStep {cfg : Config} {k : Context} (h : ContextOk cfg k) {ans' : AnsRegs} {m m' : Memory}
    (hlc : k.ans.lc = .active) (hg : AnsGrows cfg k.ans m ans' m') (hx : ansInRange ans'.x.toNat) :
    ContextOk cfg { k with ans := ans' } :=
  h.setAns (by rw [hg.base, hg.cap]; exact h.ansRegion) fun _ => ⟨hx, hg.room (h.ansActive hlc).cursor⟩

/-- The lifecycle is no part of the queue's legal values. -/
theorem SqOk.setLc {cfg : Config} {sq : SqRegs} (h : SqOk cfg sq) (lc : Lifecycle) : SqOk cfg { sq with lc := lc } :=
  ⟨h.capacity, h.length, h.rising, h.inside, h.valid, h.written⟩

/-- Every command that finishes leaves its context in its legal values (spec R31, R32, R51, R160). -/
theorem Ran.contextOk {s : State} {d : Done} {i : Instr} (hk : ContextOk s.cfg (s.ctx i.ctx)) (h : Ran s d i) :
    ContextOk s.cfg d.ctx := by
  cases i with
  | beStart c base len =>
    obtain ⟨hfit, rfl⟩ := h
    exact hk.setBe hfit fun _ => beOk_fresh base len
  | beWrite c a p =>
    obtain ⟨hlc, -, be', m', hb, rfl⟩ := h
    have hst := encBit_ok (hk.beActive hlc) (probability_le p) hb
    exact hk.setBe (by rw [hst.base, hst.cap]; exact hk.beRegion) fun _ => hst.ok
  | beStop c =>
    obtain ⟨hbase, hcap⟩ := h.beKept.region (by simp [Instr.opcode])
    obtain ⟨-, be1, m1, be2, m2, -, -, rfl⟩ := h
    exact hk.setBe (by rw [hbase, hcap]; exact hk.beRegion) fun hf => by cases hf
  | bdInit c base len =>
    obtain ⟨hfit, v, b, bd', -, hb, rfl⟩ := h
    obtain ⟨-, hlc, hbase, hsize, -⟩ := decBit_frame hb
    exact hk.setBd (by rw [hbase, hsize]; exact hfit) hlc (decBit_bdOk (bdOk_fresh v base len) (by decide) hfit hb)
  | bdRead c p =>
    obtain ⟨hact, -, b, bd', hb, rfl⟩ := h
    obtain ⟨-, hlc, hbase, hsize, -⟩ := decBit_frame hb
    exact hk.setBd (by rw [hbase, hsize]; exact hk.bdRegion) (hlc.trans hact)
      (decBit_bdOk (hk.bdActive hact) (probability_le p) hk.bdRegion hb)
  | ansInit c base len =>
    obtain ⟨hfit, rfl⟩ := h
    exact hk.setAns hfit fun _ => ansOk_fresh base len
  | ansUabs c a p0 =>
    obtain ⟨hlc, hp, ans', m', ha, rfl⟩ := h
    exact hk.ansStep hlc (uabsStep_ok ha)
      (uabsStep_inRange (Bool.toNat_le _) (probability_pos hp) (probability_le p0) (hk.ansActive hlc).state ha).1
  | ansRans c cum prob =>
    obtain ⟨hlc, hp, hsum, ans', m', ha, rfl⟩ := h
    exact hk.ansStep hlc (ransStep_ok ha) (ransStep_inRange (probability_pos hp) hsum (hk.ansActive hlc).state ha).1
  | ansEnd c =>
    obtain ⟨-, -, ans', m', ha, rfl⟩ := h
    obtain ⟨hg, -⟩ := ansPutAll_ok ha
    exact hk.setAns (by rw [hg.base, hg.cap]; exact hk.ansRegion) fun hf => by cases hf
  | sqInit c capacity =>
    obtain ⟨hcap, rfl⟩ := h
    exact hk.setSq ⟨hcap, Nat.zero_le _, hk.queue.rising, hk.queue.inside, hk.queue.valid,
      fun _ hi => absurd hi (Nat.not_lt_zero _)⟩
  | sqUabs c a p =>
    obtain ⟨-, hp, sq', hs, rfl⟩ := h
    exact hk.setSq (hk.queue.append (uabsRecord_valid _ hp) hs)
  | sqRans c cum prob =>
    obtain ⟨-, hp, hsum, sq', hs, rfl⟩ := h
    exact hk.setSq (hk.queue.append (ransRecord_valid hp hsum) hs)
  | sqFlush c =>
    obtain ⟨-, hlc, ans', m', ha, rfl⟩ := h
    have hx := (flushFrom_inRange (fun _ hi => hk.queue.readRecord_valid c hi) (hk.ansActive hlc).state ha).1
    exact (hk.ansStep hlc (flushFrom_ok ha) hx).setSq (hk.queue.setLc .final)
  | regRead c n =>
    obtain ⟨r, -, rfl⟩ := h
    exact hk

/-! ### The memory -/

/-- The memory is in its canonical form and lists no byte outside it (spec R50). -/
abbrev MemOk (cfg : Config) (m : Memory) : Prop := Memory.wf m ∧ ∀ e ∈ m, e.1 < memSize cfg

theorem MemOk.write {cfg : Config} {m m' : Memory} {a : Nat} {v : Byte} (h : MemOk cfg m)
    (hw : memWrite cfg m a v = .ok m') : MemOk cfg m' := by
  obtain ⟨hin, rfl⟩ := memWrite_cases hw
  exact ⟨Memory.wf_write a v h.1, Memory.inside_write v hin h.2⟩

theorem AnsGrows.memOk {cfg : Config} {ans ans' : AnsRegs} {m m' : Memory} (h : AnsGrows cfg ans m ans' m')
    (hm : MemOk cfg m) : MemOk cfg m' := ⟨h.wf hm.1, h.inside hm.2⟩

theorem guardByte_memOk {cfg : Config} {be be' : BeRegs} {m m' : Memory} (h : guardByte cfg be m = .ok (be', m'))
    (hm : MemOk cfg m) : MemOk cfg m' := by
  rcases guardByte_ok h with ⟨-, rfl, -⟩ | ⟨-, -, hin, -, rfl⟩
  · exact hm
  · exact hm.write (memWrite_eq_ok hin)

/-- Every command that finishes keeps the form of the memory. -/
theorem Ran.memOk {s : State} {d : Done} {i : Instr} (hm : MemOk s.cfg s.mem) (h : Ran s d i) : MemOk s.cfg d.mem := by
  cases i
  case beWrite =>
    obtain ⟨-, -, be', m', hb, rfl⟩ := h
    obtain ⟨-, -, -, -, -, -, -, hwf, hins⟩ := encBit_frame hb
    exact ⟨hwf hm.1, hins hm.2⟩
  case beStop =>
    obtain ⟨-, be1, m1, be2, m2, hp, hg, rfl⟩ := h
    obtain ⟨-, -, -, -, -, -, hwf, hins⟩ := encPadding_frame hp
    exact guardByte_memOk hg ⟨hwf hm.1, hins hm.2⟩
  case ansUabs =>
    obtain ⟨-, -, ans', m', ha, rfl⟩ := h
    exact (uabsStep_ok ha).memOk hm
  case ansRans =>
    obtain ⟨-, -, -, ans', m', ha, rfl⟩ := h
    exact (ransStep_ok ha).memOk hm
  case ansEnd =>
    obtain ⟨-, -, ans', m', ha, rfl⟩ := h
    exact (ansPutAll_ok ha).1.memOk hm
  case sqFlush =>
    obtain ⟨-, -, ans', m', ha, rfl⟩ := h
    exact (flushFrom_ok ha).memOk hm
  all_goals
    rw [h.mem_eq (by simp [Instr.opcode])]
    exact hm

/-! ### Each kind of next state keeps the invariant -/

theorem takeFault_codeKnown {s : State} (f : FaultCode) (w : Word) (h : s.faultCode.toNat ≤ 0x0E) :
    (takeFault f w s).faultCode.toNat ≤ 0x0E := by
  unfold takeFault
  split
  · exact h
  · exact f.code_le

section
variable {s : State} (hs : s.Inv)
include hs

/-- The words the host has still to send are no part of the invariant. -/
theorem State.Inv.setStream (ws : List Word) : State.Inv { s with stream := ws } := { hs with }

/-- The host's turns after the first name only addresses that exist. -/
theorem State.Inv.popInbox {turn : HostAction} {rest : List HostAction} (h : s.inbox = turn :: rest) :
    State.Inv { s with inbox := rest } :=
  { hs with hostInside := fun a v hx => hs.hostInside a v (h ▸ List.mem_cons_of_mem turn hx) }

theorem State.Inv.setMem {m : Memory} (hm : MemOk s.cfg m) : (s.setMem m).Inv :=
  { hs with memForm := hm.1, memInside := hm.2 }

theorem State.Inv.refuseHalted (h : s.halted = true) : (refuseHalted s).Inv :=
  { hs with haltedBy := fun _ _ => h }

theorem State.Inv.respondOk (v : Word) : (s.respond .ok v).Inv :=
  { hs with haltedBy := fun _ h => by cases h }

theorem State.Inv.takeFault (f : FaultCode) (w : Word) : (takeFault f w s).Inv where
  legal := by simpa using hs.legal
  memForm := by simpa using hs.memForm
  memInside := by simpa using hs.memInside
  codeKnown := takeFault_codeKnown f w hs.codeKnown
  cmdClear := fun h => by simp at h
  haltedBy := fun _ _ => takeFault_isHalted f w s
  contexts := by simpa using hs.contexts
  absent := by simpa using hs.absent
  hostInside := by simpa using hs.hostInside

/-- A legal context in place of one the block has. -/
theorem State.Inv.setCtx {c : BitVec 4} {k : Context} (hc : c.toNat < s.cfg.nCtx) (hk : ContextOk s.cfg k) :
    (s.setCtx c k).Inv :=
  { hs with
    contexts := fun e => by
      by_cases he : e = c
      · subst he
        simpa using hk
      · simpa [State.ctx_setCtx_ne s k he] using hs.contexts e
    absent := fun e he => by
      have hne : e ≠ c := by
        rintro rfl
        exact absurd hc (Nat.not_lt.mpr he)
      rw [State.ctx_setCtx_ne s k hne]
      exact hs.absent e he }

/-- Reset (spec R230): every register takes its reset value, the records stay. -/
theorem State.Inv.resetBlock : (resetBlock s).Inv :=
  { hs with
    codeKnown := Nat.zero_le _
    cmdClear := fun _ => rfl
    haltedBy := fun _ h => by cases h
    contexts := fun c => by rw [resetBlock_ctx]; exact (hs.contexts c).afterReset
    absent := fun c hc => by rw [resetBlock_ctx, hs.absent c hc]; rfl }

/-- Every command keeps the invariant. -/
theorem State.Inv.exec {i : Instr} {t : State} (h : exec i s = .next t) : t.Inv := by
  rcases exec_answers h with ⟨rfl, hh⟩ | ⟨f, rfl⟩ | ⟨hc, d, hr, rfl⟩
  · exact hs.refuseHalted hh
  · exact hs.takeFault f i.word
  · have hmem : MemOk s.cfg d.mem := hr.memOk ⟨hs.memForm, hs.memInside⟩
    exact ((hs.setCtx hc (hr.contextOk (hs.contexts i.ctx))).setMem hmem).respondOk d.value

/-- A word that is no command keeps the invariant (spec R183). -/
theorem State.Inv.rejectWord (r : Reject) (w : Word) : (rejectWord r w s).Inv := by
  unfold Machine.rejectWord
  split
  · rename_i h
    exact hs.refuseHalted (Bool.and_eq_true_iff.mp h).1
  · exact hs.takeFault _ w

/-- Every turn of the host keeps the invariant. -/
theorem State.Inv.hostTurn {t : State} (h : hostTurn s = .next t) : t.Inv := by
  unfold Machine.hostTurn at h
  split at h
  · cases h
    exact hs
  · rename_i ws rest hbox
    cases h
    exact (hs.popInbox hbox).setStream ws
  · rename_i a v rest hbox
    split at h
    · rename_i m hw
      cases h
      exact (hs.popInbox hbox).setMem
        (MemOk.write ⟨hs.memForm, hs.memInside⟩ hw)
    · cases h
  · rename_i rest hbox
    cases h
    exact (hs.popInbox hbox).resetBlock

end

/-- Everything a step can do: a host turn with no word waiting, the command its words decode to, or the answer to a
word that is no command (spec R183). -/
theorem step_cases {s t : State} (h : step s = .next t) :
    s.stream = [] ∧ hostTurn s = .next t ∨
    ∃ w ext, s.stream = w :: ext ∧
      ((∃ i, decode w ext = .ok i ∧ exec i (s.consume w ext) = .next t) ∨
        ∃ r, decode w ext = .error r ∧ t = rejectWord r w (s.consume w ext)) := by
  unfold step at h
  split at h
  · exact .inl ⟨‹_›, h⟩
  · rename_i w ext hstream
    refine .inr ⟨w, ext, hstream, ?_⟩
    split at h
    · exact .inl ⟨_, ‹_›, h⟩
    · cases h
      exact .inr ⟨_, ‹_›, rfl⟩

/-- Settles O55: a host turn, a command and a rejected word each keep the invariant, and so does taking the words off
the stream. -/
theorem stepKeepsInvariant : Obligations.StepKeepsInvariant := by
  intro s t hs h
  rcases step_cases h with ⟨-, hturn⟩ | ⟨w, ext, -, ⟨i, -, hexec⟩ | ⟨r, -, rfl⟩⟩
  · exact hs.hostTurn hturn
  · exact (hs.setStream (streamAfter w ext)).exec hexec
  · exact (hs.setStream (streamAfter w ext)).rejectWord r w

end Sys2Proof.Machine
end

section
/-! SUPPORT. REG_READ (spec R35, R180): the register table and what a read of each number answers. -/

namespace Sys2Proof.Machine

/-- REG_READ of an assigned number answers with the register, halted or not, and changes nothing else. -/
theorem exec_regRead_assigned {s : State} {c : BitVec 4} {n : BitVec 8} {r : Reg} (hc : c.toNat < s.cfg.nCtx)
    (hn : regOf n = some r) : exec (.regRead c n) s = .next (s.respond .ok (regValue s (s.ctx c) r)) := by
  rcases regRead_served hc with ⟨d, ⟨r', hr, rfl⟩, hx⟩ | ⟨e, ⟨-, hr⟩, -⟩
  · obtain rfl : r = r' := Option.some.inj (hn.symm.trans hr)
    rw [hx, commit, State.setCtx_ctx, State.setMem_self]
  · cases hn.symm.trans hr

/-- REG_READ of an unassigned number raises BAD_REGISTER, halted or not. -/
theorem exec_regRead_unassigned {s : State} {c : BitVec 4} {n : BitVec 8} (hc : c.toNat < s.cfg.nCtx)
    (hn : regOf n = none) : exec (.regRead c n) s = .next (takeFault .badRegister (Instr.regRead c n).word s) := by
  rcases regRead_served hc with ⟨d, ⟨r, hr, -⟩, -⟩ | ⟨e, ⟨rfl, -⟩, hx⟩
  · cases hn.symm.trans hr
  · exact hx

/-- The numbers outside the ranges of spec R35 are unassigned. -/
theorem regOf_eq_none : ∀ n : BitVec 8,
    ¬ (n.toNat ≤ 0x06 ∨ (0x10 ≤ n.toNat ∧ n.toNat ≤ 0x15) ∨ (0x20 ≤ n.toNat ∧ n.toNat ≤ 0x24) ∨
      (0x30 ≤ n.toNat ∧ n.toNat ≤ 0x32) ∨ (0xF0 ≤ n.toNat ∧ n.toNat ≤ 0xF4)) → regOf n = none := by
  decide

/-- The register table of spec R35. -/
def regTable : List (BitVec 8 × Reg) :=
  [(0x00#8, .beLc), (0x01#8, .beLow), (0x02#8, .beRange), (0x03#8, .beCount), (0x04#8, .bePos), (0x05#8, .beBase),
    (0x06#8, .beCap),
    (0x10#8, .bdLc), (0x11#8, .bdValue), (0x12#8, .bdRange), (0x13#8, .bdBitpos), (0x14#8, .bdBase), (0x15#8, .bdSize),
    (0x20#8, .ansLc), (0x21#8, .ansX), (0x22#8, .ansOff), (0x23#8, .ansBase), (0x24#8, .ansCap),
    (0x30#8, .sqLc), (0x31#8, .sqLen), (0x32#8, .sqCap),
    (0xF0#8, .faultCode), (0xF1#8, .faultCmd), (0xF2#8, .cfgNctx), (0xF3#8, .cfgSqmax), (0xF4#8, .cfgFlags)]

theorem regOf_regTable : ∀ e ∈ regTable, regOf e.1 = some e.2 := by decide

theorem Lifecycle.toWord_eq (lc : Lifecycle) :
    lc.toWord = if lc = .uninit then 0 else if lc = .active then 1 else 2 := by
  cases lc <;> rfl

/-- Settles O22: a number outside the ranges names no register. -/
theorem unassignedRegisterFaults : Obligations.UnassignedRegisterFaults :=
  fun _ _ n hc hn => exec_regRead_unassigned hc (regOf_eq_none n hn)

/-- Settles O45: the listed values are the values of the registers in the table's order. -/
theorem regReadReturnsRegister : Obligations.RegReadReturnsRegister := by
  intro s c n v hc h
  obtain ⟨e, he, hv⟩ : ∃ e ∈ regTable, (e.1, regValue s (s.ctx c) e.2) = (n, v) := by
    rw [← List.mem_map]
    simpa only [regTable, List.map_cons, List.map_nil, regValue, Lifecycle.toWord_eq, BitVec.signExtend] using h
  cases hv
  exact exec_regRead_assigned hc (regOf_regTable e he)

end Sys2Proof.Machine
end

section
/-! SUPPORT. The shared memory as storage, and which bytes a command may store to (spec R50 to R54, R56, R104, R141). -/

namespace Sys2Proof.Machine

/-! ### A store is determined by what it lists -/

section
variable {β : Type} {m m' : List (Nat × β)}

theorem lookupAt_of_mem {a : Nat} {v : β} (hm : keysRise m) (h : (a, v) ∈ m) : lookupAt m a = some v := by
  induction m with
  | nil => cases h
  | cons e rest ih =>
    obtain ⟨k, w⟩ := e
    obtain ⟨hk, hrest⟩ := keysRise_cons.mp hm
    rcases List.mem_cons.mp h with he | he
    · cases he
      simp [lookupAt]
    · have hne : k ≠ a := Nat.ne_of_lt (hk _ he)
      rw [lookupAt, if_neg hne, ih hrest he]

theorem lookupAt_eq_some_iff {a : Nat} {v : β} (hm : keysRise m) : lookupAt m a = some v ↔ (a, v) ∈ m :=
  ⟨mem_of_lookupAt, lookupAt_of_mem hm⟩

/-- Stores with rising keys that list the same value at every key are equal. -/
theorem store_ext (hm : keysRise m) (hm' : keysRise m') (h : ∀ a, lookupAt m a = lookupAt m' a) : m = m' := by
  have : Std.Irrefl fun e f : Nat × β => e.1 < f.1 := ⟨fun e => Nat.lt_irrefl e.1⟩
  have : Std.Antisymm fun e f : Nat × β => e.1 < f.1 := ⟨fun _ _ h h' => absurd h (Nat.lt_asymm h')⟩
  refine List.Pairwise.eq_of_mem_iff (List.pairwise_map.mp hm) (List.pairwise_map.mp hm') fun e => ?_
  rw [← lookupAt_eq_some_iff hm, ← lookupAt_eq_some_iff hm', h]

end

/-! ### The memory is determined by its reads -/

/-- In the canonical form an address is listed exactly when it does not read as an unlisted one. -/
theorem Memory.lookupAt_eq_read {m : Memory} (h : Memory.wf m) (a : Nat) :
    lookupAt m a = if m.read a = Memory.unlistedByte then none else some (m.read a) := by
  unfold Memory.read
  cases hl : lookupAt m a with
  | none => simp
  | some v => simpa using h.2 _ (mem_of_lookupAt hl)

theorem Memory.ext_read {m m' : Memory} (hm : Memory.wf m) (hm' : Memory.wf m') (h : ∀ a, m.read a = m'.read a) :
    m = m' :=
  store_ext hm.1 hm'.1 fun a => by rw [Memory.lookupAt_eq_read hm, Memory.lookupAt_eq_read hm', h]

theorem Memory.read_write (m : Memory) (a : Nat) (v : Byte) (b : Nat) :
    (m.write a v).read b = if b = a then v else m.read b := by
  split
  · subst b
    exact Memory.read_write_self m a v
  · exact Memory.read_write_ne m v ‹_›

/-- Writing the byte that is there changes nothing. -/
theorem Memory.write_read_self {m : Memory} (h : Memory.wf m) (a : Nat) : m.write a (m.read a) = m := by
  refine Memory.ext_read (Memory.wf_write a _ h) h fun b => ?_
  rw [Memory.read_write]
  split
  · subst b
    rfl
  · rfl

/-- Settles O51: the reads of a memory in its canonical form say what it lists. -/
theorem memoryIsDeterminedByReads : Obligations.MemoryIsDeterminedByReads :=
  fun _ _ hm hm' h => Memory.ext_read hm hm' h

/-- Settles O50: the read-after-write laws, and the canonical form. -/
theorem memoryIsPlainStorage : Obligations.MemoryIsPlainStorage := by
  refine fun m a v => ⟨Memory.read_write_self m a v, fun _ hb => Memory.read_write_ne m v hb, Memory.wf_write a v, ?_⟩
  rintro hm rfl
  exact Memory.write_read_self hm a

/-! ### The commands that store nothing -/

/-- Settles O47: a refusal and a fault keep the memory, and so does each of these commands when it finishes. -/
theorem nonStoringCommandsKeepMemory : Obligations.NonStoringCommandsKeepMemory := by
  intro i s t hi h addr
  rcases exec_next h with ⟨-, hmem, -⟩ | ⟨-, -, d, hr, rfl⟩
  · rw [hmem]
  · have hkeep : d.mem = s.mem := hr.mem_eq (by cases i <;> simp [Instr.opcode] at hi ⊢)
    rw [State.respond_mem, State.setMem_mem, hkeep]

/-! ### The ANS commands and SQ_FLUSH -/

/-- A finished ANS command, or SQ_FLUSH, only grows the output up to the cursor it leaves. -/
theorem Ran.ansGrows {s : State} {d : Done} {i : Instr} (h : Ran s d i) (hi : i.opcode ∈ [0x7#4, 0x8#4, 0x9#4, 0xD#4]) :
    ∃ ans', AnsGrows s.cfg (s.ctx i.ctx).ans s.mem ans' d.mem ∧ d.ctx.ans.off = ans'.off := by
  cases i
  case ansUabs =>
    obtain ⟨-, -, ans', m', ha, rfl⟩ := h
    exact ⟨ans', uabsStep_ok ha, rfl⟩
  case ansRans =>
    obtain ⟨-, -, -, ans', m', ha, rfl⟩ := h
    exact ⟨ans', ransStep_ok ha, rfl⟩
  case ansEnd =>
    obtain ⟨-, -, ans', m', ha, rfl⟩ := h
    exact ⟨ans', (ansPutAll_ok ha).1, rfl⟩
  case sqFlush =>
    obtain ⟨-, -, ans', m', ha, rfl⟩ := h
    exact ⟨ans', flushFrom_ok ha, rfl⟩
  all_goals simp [Instr.opcode] at hi

/-- Settles O48: a refusal and a fault move no cursor and store nothing, and a command that finished grows the output. -/
theorem ansStoresOnlyAtItsCursor : Obligations.AnsStoresOnlyAtItsCursor := by
  intro i s t hi h
  rcases exec_next h with ⟨hctx, hmem, -⟩ | ⟨-, -, d, hr, rfl⟩
  · rw [hctx, hmem]
    exact ⟨Nat.le_refl _, fun _ _ => rfl⟩
  · obtain ⟨ans', hg, hoff⟩ := hr.ansGrows hi
    rw [State.respond_ctx, State.setMem_ctx, State.ctx_setCtx_self, hoff]
    exact ⟨hg.cursor, hg.frame⟩

/-! ### BE_WRITE and BE_STOP -/

/-- The output of a bool encoder is stored up to the cursor it ends with, and nothing is stored when no cursor moved
(spec R52, R103). -/
structure BeStores (be : BeRegs) (m : Memory) (be' : BeRegs) (m' : Memory) : Prop where
  output : ∀ a, ¬ (be.base.toNat ≤ a ∧ a < be.base.toNat + be'.pos.toNat) → m'.read a = m.read a
  quiet  : be'.pos = be.pos → m' = m

/-- A carry stops at an emitted byte that was not 0xFF: no byte below it changes (spec R104). -/
def CarryStops (be : BeRegs) (m m' : Memory) : Prop :=
  ∀ j, j < be.pos.toNat → m.read (be.base.toNat + j) ≠ 0xFF → ∀ a, a < be.base.toNat + j → m'.read a = m.read a

/-- The cursor after a byte does not wrap: it was below the capacity. -/
theorem bePos_succ {be : BeRegs} (h : be.pos.toNat < be.cap.toNat) : (be.pos + 1).toNat = be.pos.toNat + 1 := by
  have := be.cap.isLt
  rw [BitVec.toNat_add]
  simp
  omega

/-- The guard byte, if there is one, is stored at the cursor, which it moves (spec R106). -/
theorem guardByte_frame {cfg : Config} {be be' : BeRegs} {m m' : Memory} (h : guardByte cfg be m = .ok (be', m')) :
    be.pos.toNat ≤ be'.pos.toNat ∧
    (∀ a, ¬ (be.base.toNat + be.pos.toNat ≤ a ∧ a < be.base.toNat + be'.pos.toNat) → m'.read a = m.read a) ∧
    (be'.pos = be.pos → m' = m) := by
  rcases guardByte_ok h with ⟨rfl, rfl, -⟩ | ⟨-, hroom, -, rfl, rfl⟩
  · exact ⟨Nat.le_refl _, fun _ _ => rfl, fun _ => rfl⟩
  · have hpos := bePos_succ hroom
    refine ⟨by simp only [hpos]; omega, fun a ha => Memory.read_write_ne m 0 ?_, fun he => ?_⟩
    · simp only [hpos] at ha
      omega
    · have := congrArg BitVec.toNat he
      simp only [hpos] at this
      omega

section
variable {s : State} {d : Done} {c : BitVec 4}

theorem Ran.beWrite_stores {a p : BitVec 8} (h : Ran s d (.beWrite c a p)) :
    BeStores (s.ctx c).be s.mem d.ctx.be d.mem ∧ CarryStops (s.ctx c).be s.mem d.mem := by
  obtain ⟨-, -, be', m', hb, rfl⟩ := h
  obtain ⟨-, -, -, -, hout, hquiet, hcarry, -⟩ := encBit_frame hb
  exact ⟨⟨hout, hquiet⟩, hcarry⟩

theorem Ran.beStop_stores (h : Ran s d (.beStop c)) : BeStores (s.ctx c).be s.mem d.ctx.be d.mem := by
  obtain ⟨-, be1, m1, be2, m2, hp, hg, rfl⟩ := h
  obtain ⟨-, hbase, -, hle1, hout1, hquiet1, -⟩ := encPadding_frame hp
  obtain ⟨hle2, hout2, hquiet2⟩ := guardByte_frame hg
  rw [hbase] at hout2
  refine ⟨fun a ha => ?_, fun he => ?_⟩
  · dsimp only at ha
    rw [hout2 a (by omega), hout1 a (by omega)]
  · have hn : be2.pos.toNat = (s.ctx c).be.pos.toNat := congrArg BitVec.toNat he
    have h1 : be1.pos = (s.ctx c).be.pos := BitVec.eq_of_toNat_eq (by omega)
    exact (hquiet2 (he.trans h1.symm)).trans (hquiet1 h1)

theorem Ran.beStop_carryStops (hok : BeOk (s.ctx c).be) (h : Ran s d (.beStop c)) :
    CarryStops (s.ctx c).be s.mem d.mem := by
  obtain ⟨-, be1, m1, be2, m2, hp, hg, rfl⟩ := h
  obtain ⟨-, hbase, -, hle, -⟩ := encPadding_frame hp
  obtain ⟨-, hout, -⟩ := guardByte_frame hg
  rw [hbase] at hout
  intro j hj hne a ha
  rw [hout a (by omega), (encPadding_ok hok hp).below j hj hne a ha]

end

/-- Settles O30: a refusal and a fault store nothing, and BE_WRITE and BE_STOP store as their steps do. -/
theorem beStoresOnlyItsOutput : Obligations.BeStoresOnlyItsOutput := by
  intro i c s t hi h addr
  rcases exec_next h with ⟨-, hmem, -⟩ | ⟨-, -, d, hr, rfl⟩
  · rw [hmem]
    exact ⟨fun _ => rfl, fun _ _ _ _ _ => rfl, fun _ => rfl⟩
  · have hc : i.ctx = c := by rcases hi with rfl | ⟨a, p, rfl⟩ <;> rfl
    have hstores : BeStores (s.ctx c).be s.mem d.ctx.be d.mem ∧
        ((i = .beStop c → BeOk (s.ctx c).be) → CarryStops (s.ctx c).be s.mem d.mem) := by
      rcases hi with rfl | ⟨a, p, rfl⟩
      · exact ⟨hr.beStop_stores, fun hok => hr.beStop_carryStops (hok rfl)⟩
      · exact ⟨hr.beWrite_stores.1, fun _ => hr.beWrite_stores.2⟩
    obtain ⟨hst, hcarry⟩ := hstores
    rw [hc, State.respond_ctx, State.setMem_ctx, State.ctx_setCtx_self, State.respond_mem, State.setMem_mem]
    exact ⟨hst.output addr, fun hok j hj hne => hcarry hok j hj hne addr, fun he => by rw [hst.quiet he]⟩

/-! ### The host's turns -/

theorem memWrite_outside {cfg : Config} (m : Memory) {a : Nat} (v : Byte) (h : memSize cfg ≤ a) :
    memWrite cfg m a v = .error (.stop .addressOutsideMemory) := if_neg (Nat.not_lt.mpr h)

section
variable {s : State} {rest : List HostAction}

/-- With no word waiting a step is one host turn (spec R62). -/
theorem step_of_stream_nil (h : s.stream = []) : step s = hostTurn s := by
  simp only [step, h]

theorem hostTurn_wait (h : s.inbox = []) : hostTurn s = .next s := by
  simp only [hostTurn, h]

theorem hostTurn_send {ws : List Word} (h : s.inbox = .send ws :: rest) :
    hostTurn s = .next { s with stream := ws, inbox := rest } := by
  simp only [hostTurn, h]

theorem hostTurn_write {a : Nat} {v : Byte} (h : s.inbox = .write a v :: rest) (ha : a < memSize s.cfg) :
    hostTurn s = .next { s with mem := s.mem.write a v, inbox := rest } := by
  simp only [hostTurn, h, memWrite_eq_ok ha]

theorem hostTurn_write_outside {a : Nat} {v : Byte} (h : s.inbox = .write a v :: rest) (ha : memSize s.cfg ≤ a) :
    hostTurn s = .fault .addressOutsideMemory := by
  simp only [hostTurn, h, memWrite_outside s.mem v ha]

theorem hostTurn_reset (h : s.inbox = .reset :: rest) :
    hostTurn s = .next (resetBlock { s with inbox := rest }) := by
  simp only [hostTurn, h]

end

/-- Settles O10, turn by turn. -/
theorem hostTurnsActBetweenCommands : Obligations.HostTurnsActBetweenCommands := by
  intro s rest hs
  rw [step_of_stream_nil hs]
  exact ⟨hostTurn_wait, fun _ h => hostTurn_send h,
    fun a v h ha => ⟨_, hostTurn_write h ha, Memory.read_write s.mem a v⟩,
    fun _ _ h ha => hostTurn_write_outside h ha, hostTurn_reset⟩

/-! ### Regions outside the memory -/

theorem not_regionFits {cfg : Config} {base len : Word}
    (h : 2 ^ cfg.addrW ≤ base.toNat ∨ 2 ^ cfg.addrW < base.toNat + len.toNat) : ¬ regionFits cfg base len := by
  simp only [regionFits, memSize]
  omega

/-- Settles O20: with such a region an init command cannot finish, and BAD_REGION is its only fault. -/
theorem regionPastMemoryFaults : Obligations.RegionPastMemoryFaults := by
  intro s c base len hs h
  have hfit := not_regionFits h
  refine ⟨?_, ?_, ?_⟩ <;> exact exec_raises hs (fun _ ⟨hin, _⟩ => hfit hin) fun _ ⟨he, _⟩ => he

end Sys2Proof.Machine
end

section
/-! SUPPORT. The decoder: one equation for each of its answers, what a decoded command encodes to, and the rows of the
mask table (spec R71 to R78). -/

namespace Sys2Proof

/-! ### The answers of the decoder (spec R201 items 2 to 4) -/

theorem opIllegal_iff (w : Word) : opIllegal w = true ↔ opField w = 0x0 ∨ opField w = 0xF := by
  simp [opIllegal]

theorem opIllegal_eq_false_iff (w : Word) : opIllegal w = false ↔ ¬ (opField w = 0x0 ∨ opField w = 0xF) := by
  rw [← opIllegal_iff, Bool.not_eq_true]

/-- The opcodes that are not reserved (spec R76, R78). -/
theorem opField_cases {w : Word} (h : opIllegal w = false) :
    opField w = 0x1 ∨ opField w = 0x2 ∨ opField w = 0x3 ∨ opField w = 0x4 ∨ opField w = 0x5 ∨ opField w = 0x6 ∨
    opField w = 0x7 ∨ opField w = 0x8 ∨ opField w = 0x9 ∨ opField w = 0xA ∨ opField w = 0xB ∨ opField w = 0xC ∨
    opField w = 0xD ∨ opField w = 0xE := by
  rw [opIllegal_eq_false_iff] at h
  generalize opField w = op at h ⊢
  revert op
  decide

section
variable {w : Word} {ext : List Word}

theorem decode_of_opIllegal (h : opIllegal w = true) : decode w ext = .error .illegalOpcode := by
  simp [decode, h]

theorem decode_of_short (hop : opIllegal w = false) (hlen : ext.length + 1 < commandLength w) :
    decode w ext = .error .truncatedCommand := by
  simp [decode, hop, hlen]

theorem decode_of_not_reservedOk (hop : opIllegal w = false) (hlen : commandLength w ≤ ext.length + 1)
    (hres : reservedOk w = false) : decode w ext = .error .reservedNonzero := by
  simp [decode, hop, Nat.not_lt.mpr hlen, hres]

/-- Every opcode that is not reserved names a command of that opcode (spec R76). -/
theorem decodeFields_of_legal (ext : List Word) (hop : opIllegal w = false) :
    ∃ i, decodeFields w ext = some i ∧ i.opcode = opField w := by
  rcases opField_cases hop with h | h | h | h | h | h | h | h | h | h | h | h | h | h <;>
    simp [decodeFields, h, Instr.opcode]

theorem decode_of_legal (hop : opIllegal w = false) (hlen : commandLength w ≤ ext.length + 1)
    (hres : reservedOk w = true) : ∃ i, decodeFields w ext = some i ∧ decode w ext = .ok i := by
  obtain ⟨i, hi, -⟩ := decodeFields_of_legal ext hop
  exact ⟨i, hi, Laws.RoundTrip.decode_of_checks hop hlen hres hi⟩

/-- Everything the decoder can answer. -/
theorem decode_cases (w : Word) (ext : List Word) :
    (opIllegal w = true ∧ decode w ext = .error .illegalOpcode) ∨
    (opIllegal w = false ∧ ext.length + 1 < commandLength w ∧ decode w ext = .error .truncatedCommand) ∨
    (opIllegal w = false ∧ commandLength w ≤ ext.length + 1 ∧ reservedOk w = false ∧
      decode w ext = .error .reservedNonzero) ∨
    (opIllegal w = false ∧ commandLength w ≤ ext.length + 1 ∧ reservedOk w = true ∧
      ∃ i, decodeFields w ext = some i ∧ decode w ext = .ok i) := by
  cases hop : opIllegal w with
  | true => exact .inl ⟨rfl, decode_of_opIllegal hop⟩
  | false =>
    rcases Nat.lt_or_ge (ext.length + 1) (commandLength w) with hlen | hlen
    · exact .inr (.inl ⟨rfl, hlen, decode_of_short hop hlen⟩)
    · cases hres : reservedOk w with
      | false => exact .inr (.inr (.inl ⟨rfl, hlen, rfl, decode_of_not_reservedOk hop hlen hres⟩))
      | true => exact .inr (.inr (.inr ⟨rfl, hlen, rfl, decode_of_legal hop hlen hres⟩))

/-- A word that decodes has passed each check. -/
theorem decode_ok {i : Instr} (h : decode w ext = .ok i) :
    opIllegal w = false ∧ commandLength w ≤ ext.length + 1 ∧ reservedOk w = true ∧ decodeFields w ext = some i := by
  rcases decode_cases w ext with ⟨-, hd⟩ | ⟨-, -, hd⟩ | ⟨-, -, -, hd⟩ | ⟨hop, hlen, hres, j, hj, hd⟩ <;>
    cases h.symm.trans hd
  exact ⟨hop, hlen, hres, hj⟩

theorem decode_eq_truncated_iff (hop : opIllegal w = false) :
    decode w ext = .error .truncatedCommand ↔ ext.length + 1 < commandLength w := by
  refine ⟨fun h => ?_, decode_of_short hop⟩
  rcases decode_cases w ext with ⟨-, hd⟩ | ⟨-, hlen, -⟩ | ⟨-, -, -, hd⟩ | ⟨-, -, -, i, -, hd⟩
  case inr.inl => exact hlen
  all_goals cases h.symm.trans hd

end

/-- The words of a command: its extension words, fixed by the opcode, and the first one (spec R75). -/
theorem commandLength_eq (w : Word) :
    commandLength w =
      (if opField w ∈ [0x1#4, 0x4#4, 0x6#4] then 2 else if opField w = 0xA then 1 else 0) + 1 := by
  unfold commandLength
  generalize opField w = op
  revert op
  decide

/-! ### A decoded command encodes to the words it was read from -/

/-- Words that are there are those the decoder reads with `getD`. -/
theorem take_eq_map_getD {n : Nat} {ext : List Word} (h : n ≤ ext.length) :
    ext.take n = (List.range n).map fun k => ext.getD k 0 := by
  refine List.ext_getElem (by simpa using h) fun k hk _ => ?_
  have hk : k < n ∧ k < ext.length := by simpa using hk
  simp [hk.2]

section
variable {w : Word} {ext : List Word} {i : Instr} (hop : opIllegal w = false) (h : decodeFields w ext = some i)
include hop h

theorem decodeFields_opcode : i.opcode = opField w := by
  obtain ⟨j, hj, ho⟩ := decodeFields_of_legal ext hop
  cases h.symm.trans hj
  exact ho

/-- The fields that the opcode does not use are 0, and the A field of a bit operand is legal: so the first word of the
command is the word itself. -/
theorem decodeFields_word (hres : reservedOk w = true) : i.wf = true ∧ i.word = w := by
  obtain ⟨⟨ha, hb⟩, hr⟩ : (aFieldOk w = true ∧ bFieldOk w = true) ∧ rsvField w = 0#8 := by
    simpa [reservedOk] using hres
  suffices i.wf = true ∧ i.word = commandWord (opField w) (ctxField w) (aField w) (bField w) by
    rwa [word_eq_fields w hr] at this
  rcases opField_cases hop with ho | ho | ho | ho | ho | ho | ho | ho | ho | ho | ho | ho | ho | ho
  all_goals
    simp only [decodeFields, ho] at h
    cases h
    simp_all [aFieldOk, bFieldOk, Instr.wf, Instr.word]

/-- The extension words of the command are the first of those that follow its word. -/
theorem decodeFields_ext (hlen : commandLength w ≤ ext.length + 1) :
    i.ext = ext.take (commandLength w - 1) := by
  rw [take_eq_map_getD (Nat.sub_le_of_le_add hlen), commandLength_eq]
  rcases opField_cases hop with ho | ho | ho | ho | ho | ho | ho | ho | ho | ho | ho | ho | ho | ho
  all_goals
    simp only [decodeFields, ho] at h
    cases h
    simp [Instr.ext, ho, List.range_succ]

end

/-! ### The mask table (spec R77) -/

theorem opField_and (w v : Word) : opField (w &&& v) = opField w &&& opField v := BitVec.extractLsb'_and
theorem ctxField_and (w v : Word) : ctxField (w &&& v) = ctxField w &&& ctxField v := BitVec.extractLsb'_and
theorem aField_and (w v : Word) : aField (w &&& v) = aField w &&& aField v := BitVec.extractLsb'_and
theorem bField_and (w v : Word) : bField (w &&& v) = bField w &&& bField v := BitVec.extractLsb'_and
theorem rsvField_and (w v : Word) : rsvField (w &&& v) = rsvField w &&& rsvField v := BitVec.extractLsb'_and

/-- A word is the command word of given fields exactly when those are its fields (spec R71). -/
theorem eq_commandWord_iff {w : Word} {op ctx : BitVec 4} {a b : BitVec 8} :
    w = commandWord op ctx a b ↔
      opField w = op ∧ ctxField w = ctx ∧ aField w = a ∧ bField w = b ∧ rsvField w = 0 := by
  refine ⟨?_, ?_⟩
  · rintro rfl
    simp
  · rintro ⟨rfl, rfl, rfl, rfl, hr⟩
    exact (word_eq_fields w hr).symm

/-- The bits of the A field that must be 0: all where the field is unused, `A[7:1]` of a bit operand, else none
(spec R73, R76). -/
def aMask (op : BitVec 4) : BitVec 8 :=
  match op.toNat with
  | 0x2 | 0x7 | 0xB => 0xFE
  | 0x8 | 0xC | 0xE => 0
  | _ => 0xFF

/-- The bits of the B field that must be 0: all where the field is unused, else none (spec R73, R76). -/
def bMask (op : BitVec 4) : BitVec 8 :=
  match op.toNat with
  | 0x2 | 0x5 | 0x7 | 0x8 | 0xB | 0xC => 0
  | _ => 0xFF

/-- The row of an opcode: the mask covers OP, RSV and the bits of A and B that must be 0. -/
def maskRow (op : BitVec 4) : BitVec 4 × Word × Word :=
  (op, commandWord op 0 0 0, commandWord 0xF 0 (aMask op) (bMask op) ||| 0xFF)

theorem maskTable_eq :
    maskTable = [0x1, 0x2, 0x3, 0x4, 0x5, 0x6, 0x7, 0x8, 0x9, 0xA, 0xB, 0xC, 0xD, 0xE].map maskRow := by
  decide

/-- The rows of the table are those of the opcodes that are not reserved. -/
theorem mem_maskTable_iff {row : BitVec 4 × Word × Word} :
    row ∈ maskTable ↔ ∃ op, ¬ (op = 0x0 ∨ op = 0xF) ∧ maskRow op = row := by
  have hops : ∀ op : BitVec 4, op ∈ [0x1, 0x2, 0x3, 0x4, 0x5, 0x6, 0x7, 0x8, 0x9, 0xA, 0xB, 0xC, 0xD, 0xE] ↔
      ¬ (op = 0x0 ∨ op = 0xF) := by decide
  simp only [maskTable_eq, List.mem_map, ← hops]

theorem maskRow_mask_fields (op : BitVec 4) :
    opField (maskRow op).2.2 = 0xF ∧ ctxField (maskRow op).2.2 = 0 ∧ aField (maskRow op).2.2 = aMask op ∧
    bField (maskRow op).2.2 = bMask op ∧ rsvField (maskRow op).2.2 = 0xFF := by
  revert op
  decide

theorem aFieldOk_iff (w : Word) : aFieldOk w = true ↔ aField w &&& aMask (opField w) = 0 := by
  have hbit : ∀ a : BitVec 8, bitFieldOk a = true ↔ a &&& 0xFE = 0 := by decide
  have hall : aField w &&& 0xFF#8 = aField w := BitVec.and_allOnes
  unfold aFieldOk aMask
  split <;> simp [*]

theorem bFieldOk_iff (w : Word) : bFieldOk w = true ↔ bField w &&& bMask (opField w) = 0 := by
  have hall : bField w &&& 0xFF#8 = bField w := BitVec.and_allOnes
  unfold bFieldOk bMask
  split <;> simp [*]

theorem reservedOk_iff (w : Word) :
    reservedOk w = true ↔
      aField w &&& aMask (opField w) = 0 ∧ bField w &&& bMask (opField w) = 0 ∧ rsvField w = 0 := by
  simp [reservedOk, aFieldOk_iff, bFieldOk_iff, and_assoc]

/-- A word matches a row exactly when it has the row's opcode and no reserved or unused field is non-zero. -/
theorem and_maskRow_iff {w : Word} {op : BitVec 4} :
    w &&& (maskRow op).2.2 = (maskRow op).2.1 ↔ opField w = op ∧ reservedOk w = true := by
  obtain ⟨hop, hctx, ha, hb, hr⟩ := maskRow_mask_fields op
  have hmatch : (maskRow op).2.1 = commandWord op 0 0 0 := rfl
  have hop' : opField w &&& 0xF = opField w := BitVec.and_allOnes
  have hr' : rsvField w &&& 0xFF = rsvField w := BitVec.and_allOnes
  rw [hmatch, eq_commandWord_iff, opField_and, ctxField_and, aField_and, bField_and, rsvField_and, hop, hctx, ha, hb, hr,
    hop', hr', reservedOk_iff]
  constructor
  · rintro ⟨rfl, -, h⟩
    exact ⟨rfl, h⟩
  · rintro ⟨rfl, h⟩
    exact ⟨rfl, BitVec.and_zero, h⟩

/-- A word with a legal opcode matches a row of the mask table exactly when none of its reserved or unused fields is
non-zero. -/
theorem matches_maskTable_iff {w : Word} (hop : opIllegal w = false) :
    (∃ row ∈ maskTable, w &&& row.2.2 = row.2.1) ↔ reservedOk w = true := by
  constructor
  · rintro ⟨row, hrow, hw⟩
    obtain ⟨op, -, rfl⟩ := mem_maskTable_iff.mp hrow
    exact (and_maskRow_iff.mp hw).2
  · intro hres
    exact ⟨maskRow (opField w), mem_maskTable_iff.mpr ⟨_, (opIllegal_eq_false_iff w).mp hop, rfl⟩,
      and_maskRow_iff.mpr ⟨rfl, hres⟩⟩

/-- The rows that a word matches are the row of its opcode. -/
theorem maskTable_row_unique {w : Word} {r₁ r₂ : BitVec 4 × Word × Word} (h₁ : r₁ ∈ maskTable)
    (h₂ : r₂ ∈ maskTable) (hw₁ : w &&& r₁.2.2 = r₁.2.1) (hw₂ : w &&& r₂.2.2 = r₂.2.1) : r₁ = r₂ := by
  obtain ⟨op₁, -, rfl⟩ := mem_maskTable_iff.mp h₁
  obtain ⟨op₂, -, rfl⟩ := mem_maskTable_iff.mp h₂
  rw [← (and_maskRow_iff.mp hw₁).1, ← (and_maskRow_iff.mp hw₂).1]

/-! ### The statements -/

/-- Settles O2, command by command. -/
theorem encodeDecodeRoundTrip : Obligations.EncodeDecodeRoundTrip := by
  intro i rest hwf
  cases i with
  | beStart c base len => exact Laws.RoundTrip.beStart c base len hwf rest
  | beWrite c a p => exact Laws.RoundTrip.beWrite c a p hwf rest
  | beStop c => exact Laws.RoundTrip.beStop c hwf rest
  | bdInit c base len => exact Laws.RoundTrip.bdInit c base len hwf rest
  | bdRead c p => exact Laws.RoundTrip.bdRead c p hwf rest
  | ansInit c base len => exact Laws.RoundTrip.ansInit c base len hwf rest
  | ansUabs c a p0 => exact Laws.RoundTrip.ansUabs c a p0 hwf rest
  | ansRans c cum prob => exact Laws.RoundTrip.ansRans c cum prob hwf rest
  | ansEnd c => exact Laws.RoundTrip.ansEnd c hwf rest
  | sqInit c capacity => exact Laws.RoundTrip.sqInit c capacity hwf rest
  | sqUabs c a p => exact Laws.RoundTrip.sqUabs c a p hwf rest
  | sqRans c cum prob => exact Laws.RoundTrip.sqRans c cum prob hwf rest
  | sqFlush c => exact Laws.RoundTrip.sqFlush c hwf rest
  | regRead c n => exact Laws.RoundTrip.regRead c n hwf rest

/-- Settles O3: a decoded command has passed the checks that its fields and its words are read back from. -/
theorem decodedCommandReencodes : Obligations.DecodedCommandReencodes := by
  intro w ext i h
  obtain ⟨hop, hlen, hres, hi⟩ := decode_ok h
  obtain ⟨hwf, hword⟩ := decodeFields_word hop hi hres
  exact ⟨hwf, hword, decodeFields_ext hop hi hlen⟩

/-- Settles O4: with its extension words there, what is left of the decoder's checks is the match with a row. -/
theorem decoderFollowsMaskTable : Obligations.DecoderFollowsMaskTable := by
  intro w ext hlen
  refine ⟨fun hop => decode_of_opIllegal ((opIllegal_iff w).mpr hop), fun hop => ?_,
    fun _ h₁ _ h₂ hw₁ hw₂ => maskTable_row_unique h₁ h₂ hw₁ hw₂⟩
  have hlegal : opIllegal w = false := (opIllegal_eq_false_iff w).mpr hop
  rw [matches_maskTable_iff hlegal]
  refine ⟨fun i hi => ?_, fun hres => ?_, fun hres => ?_⟩
  · obtain ⟨-, -, hres, hfields⟩ := decode_ok hi
    exact ⟨maskRow (opField w), mem_maskTable_iff.mpr ⟨_, hop, rfl⟩, and_maskRow_iff.mpr ⟨rfl, hres⟩,
      (decodeFields_opcode hlegal hfields).symm⟩
  · obtain ⟨i, -, hi⟩ := decode_of_legal hlegal hlen hres
    exact ⟨i, hi⟩
  · exact decode_of_not_reservedOk hlegal hlen (eq_false_of_ne_true hres)

/-- Settles O1: each word is a closed input of the decoder. -/
theorem specExampleWordsDecode : Obligations.SpecExampleWordsDecode := by
  unfold Obligations.SpecExampleWordsDecode
  decide

/-- Settles O5: the length of a command is its opcode's. -/
theorem truncationIsByOpcodeAlone : Obligations.TruncationIsByOpcodeAlone := by
  intro w ext h0 hF
  have hop : opIllegal w = false := (opIllegal_eq_false_iff w).mpr (not_or.mpr ⟨h0, hF⟩)
  rw [decode_eq_truncated_iff hop, commandLength_eq, Nat.add_lt_add_iff_right]

end Sys2Proof
end

section
/-! SUPPORT. The literal pseudo-instructions (spec R81), and the operand faults that every command shares (spec R72,
R73). -/

namespace Sys2Proof.Machine

/-! ### The literal pseudo-instructions -/

/-- Bits `n` down to 0, most significant first: bit `n`, then bits `n - 1` down to 0. -/
theorem map_bits_succ {α : Type} (f : Nat → α) (n : Nat) :
    (List.range (n + 1)).map (fun k => f (n + 1 - 1 - k)) = f n :: (List.range n).map fun k => f (n - 1 - k) := by
  rw [List.range_succ_eq_map, List.map_cons, List.map_map]
  refine congrArg _ (List.map_congr_left fun k _ => ?_)
  exact congrArg f (by omega)

theorem beLiteral_eq_map (c : BitVec 4) (v : Word) (n : Nat) :
    beLiteral c v n =
      (List.range n).map fun k => .beWrite c ((BitVec.ofBool (v.getLsbD (n - 1 - k))).setWidth 8) 128 := by
  induction n with
  | zero => rfl
  | succ n ih =>
    rw [map_bits_succ fun k => Instr.beWrite c ((BitVec.ofBool (v.getLsbD k)).setWidth 8) 128, beLiteral, ih]
    rfl

theorem bitWord_toNat (b : Bool) : (bitWord b).toNat = b.toNat := by
  cases b <;> rfl

/-- The value the host has formed so far, `acc`, moves up by one place for each result that follows. -/
theorem foldl_literalValue (v : Word) (n acc : Nat) :
    ((List.range n).map fun k => bitWord (v.getLsbD (n - 1 - k))).foldl (fun x w => 2 * x + w.toNat) acc =
      acc * 2 ^ n + v.toNat % 2 ^ n := by
  induction n generalizing acc with
  | zero => simp [Nat.mod_one]
  | succ n ih =>
    have hbit : (v.getLsbD n).toNat = v.toNat / 2 ^ n % 2 := Nat.toNat_testBit _ _
    rw [map_bits_succ fun k => bitWord (v.getLsbD k), List.foldl_cons, ih, bitWord_toNat, hbit,
      Nat.mod_pow_succ, Nat.pow_succ]
    ring

/-- Settles O7: the expansions bit by bit, and the value from an empty start. -/
theorem literalExpansions : Obligations.LiteralExpansions := by
  intro c v n
  have hvalue := foldl_literalValue v n 0
  rw [Nat.zero_mul, Nat.zero_add] at hvalue
  exact ⟨beLiteral_eq_map c v n, rfl, hvalue⟩

/-! ### Operand faults -/

/-- Settles O16: the context check comes first in every command that is served. -/
theorem absentContextFaults : Obligations.AbsentContextFaults := by
  intro i s hc hserved
  exact exec_badContext (hserved.imp_left s.halted_eq_false_iff.mpr) hc

/-- Settles O18: with probability 0 none of the commands can finish, and with the engine ACTIVE BAD_PROBABILITY is the
only fault. -/
theorem zeroProbabilityFaults : Obligations.ZeroProbabilityFaults := by
  intro s c a hs
  refine ⟨fun hlc => ?_, fun hlc => ?_, fun hlc => ⟨?_, ?_⟩, fun hlc => ⟨?_, ?_⟩⟩
  all_goals
    refine exec_raises hs (fun d hran => ?_) fun e he => ?_
    · obtain ⟨-, hp, -⟩ := hran
      exact hp rfl
    · simpa [Aborts, hlc] using he

end Sys2Proof.Machine
end

section
/-! SUPPORT. The bool encoder's commands over the steps of Laws/BoolEncoder and Laws/BoolEncoderStop (spec R100 to
R109): what a finished BE_START, BE_WRITE and BE_STOP leave, why one aborts, and the sentinel. -/

namespace Sys2Proof.Machine

/-! ### Split and normalization -/

/-- Spec R101: the table of shifts is `7 - floor(log2 r)`. -/
theorem normShift_eq_log2 {r : Nat} (h : 1 ≤ r) (h' : r ≤ 255) : normShift r = 7 - Nat.log2 r := by
  obtain ⟨hlow, hhigh⟩ := normShift_window h h'
  have h7 := normShift_le r
  have hpow : (2 : Nat) ^ (7 - normShift r) * 2 ^ normShift r = 128 := by
    rw [← Nat.pow_add, Nat.sub_add_cancel h7]
  have hlog : Nat.log2 r = 7 - normShift r := by
    refine (Nat.log2_eq_iff (by omega)).mpr ⟨?_, ?_⟩
    · exact Nat.le_of_mul_le_mul_right (hpow ▸ hlow) (Nat.two_pow_pos _)
    · refine Nat.lt_of_mul_lt_mul_right (a := 2 ^ normShift r) ?_
      rw [Nat.pow_succ, Nat.mul_right_comm, hpow]
      omega
  omega

theorem decNarrow_range {p : Nat} {bd : BdRegs} (hr : 2 ≤ bd.range.toNat) (hp : p ≤ 255) :
    (decNarrow p bd).range.toNat = decRange p bd := by
  obtain ⟨hn, -, h254, -⟩ := decNarrow_eq hr hp
  rw [hn, BitVec.toNat_ofNat, Nat.mod_eq_of_lt (by omega)]

/-! ### What a command answers -/

/-- A ready command that cannot abort finishes. -/
theorem exec_ran {i : Instr} {s : State} (hs : s.ready i.ctx) (he : ∀ e, ¬ Aborts s e i) :
    ∃ d, Ran s d i ∧ exec i s = .next (((s.setCtx i.ctx d.ctx).setMem d.mem).respond .ok d.value) := by
  rcases exec_served (.inl hs.1) hs.2 with h | ⟨e, ha, -⟩
  · exact h
  · exact absurd ha (he e)

theorem takeFault_carryUnderflow {f : FaultCode} {w : Word} {s : State}
    (h : (takeFault f w s).response = some ⟨.faulted, 0x0C⟩) : f = .carryUnderflow := by
  cases f
  case carryUnderflow => rfl
  all_goals cases h

/-- A running command that cannot abort with CARRY_UNDERFLOW does not answer it, and what holds of whatever it finishes
with holds after an OK response. -/
theorem exec_noUnderflow {i : Instr} {s t : State} {P : Context → Memory → Prop} (hs : s.halted = false)
    (h : exec i s = .next t) (habort : ¬ Aborts s (.raise .carryUnderflow) i) (hran : ∀ d, Ran s d i → P d.ctx d.mem) :
    t.response ≠ some ⟨.faulted, 0x0C⟩ ∧ ((∃ v, t.response = some ⟨.ok, v⟩) → P (t.ctx i.ctx) t.mem) := by
  rcases exec_cases i s with ⟨hh, -⟩ | ⟨-, -, h'⟩ | ⟨-, -, d, hr, h'⟩ | ⟨-, -, f, ha, h'⟩ | ⟨-, -, f, -, h'⟩
  · rw [hs] at hh
    cases hh
  all_goals
    rw [h] at h'
    cases h'
  · exact ⟨fun hc => (by cases takeFault_carryUnderflow hc), fun ⟨v, hv⟩ => (by cases hv)⟩
  · refine ⟨fun hc => (by cases hc), fun _ => ?_⟩
    rw [State.respond_ctx, State.setMem_ctx, State.ctx_setCtx_self]
    exact hran d hr
  · refine ⟨fun hc => ?_, fun ⟨v, hv⟩ => (by cases hv)⟩
    rw [takeFault_carryUnderflow hc] at ha
    exact habort ha

/-! ### The sentinel (spec R107) -/

section
variable {cfg : Config} {be : BeRegs} {m : Memory}

/-- With the sentinel no encode step underflows: a carry that is pending has a byte to take it. -/
theorem BeSentinel.encBit_noUnderflow {bit : Bool} {p : Nat} (hs : BeSentinel be m) (hok : BeOk be) (hp : p ≤ 255) :
    encBit cfg bit p be m ≠ .error (.raise .carryUnderflow) := by
  intro h
  rcases encBit_raises hok hp h with ⟨he, -⟩ | ⟨-, -, hcarry, hff⟩ | ⟨he, -⟩
  · cases he
  · rw [encLow_toNat hok bit hp] at hcarry
    have hadd := (encRange_bounds hok bit hp).2.2
    obtain ⟨j, hj, hne⟩ := hs.takesCarry hok (by omega) hcarry
    exact hne (hff j hj)
  · cases he

theorem BeSentinel.encPadding_noUnderflow {n : Nat} (hs : BeSentinel be m) (hok : BeOk be) :
    encPadding cfg n be m ≠ .error (.raise .carryUnderflow) := by
  intro h
  rcases encPadding_raises hok h with ⟨he, -⟩ | ⟨-, -, hcarry⟩ | ⟨he, -⟩
  · cases he
  · exact hcarry (hs.takesCarry hok (Nat.zero_le _))
  · cases he

/-- Padding keeps the sentinel, bit by bit. -/
theorem BeSentinel.padded {n : Nat} {be' : BeRegs} {m' : Memory} (hs : BeSentinel be m) (hok : BeOk be)
    (h : encPadding cfg n be m = .ok (be', m')) : BeSentinel be' m' := by
  induction n generalizing be m with
  | zero =>
    cases h
    exact hs
  | succ n ih =>
    obtain ⟨⟨be1, m1⟩, hbit, h⟩ := bind_ok h
    have hst := encBit_ok hok (by decide) hbit
    exact ih (hs.step hok (by decide) hst) hst.ok h

/-- The 32 padding bits complete one byte at least (spec R106). -/
theorem padBytes_stop (hok : BeOk be) :
    padBytes (be.count.toInt + 32).toNat beStopPadding = 1 + (32 + be.count.toInt).toNat / 8 := by
  obtain ⟨k, -, -, hcount, hk, -⟩ := hok.exponent
  rw [hk, padBytes, beStopPadding, if_neg (by omega)]
  omega

end

section
variable {s : State} {d : Done} {c : BitVec 4}

theorem Ran.beStart_sentinel {base len : Word} (h : Ran s d (.beStart c base len)) : BeSentinel d.ctx.be d.mem := by
  obtain ⟨-, rfl⟩ := h
  exact beSentinel_fresh ..

theorem Ran.beWrite_sentinel {a p : BitVec 8} (hok : BeOk (s.ctx c).be) (hs : BeSentinel (s.ctx c).be s.mem)
    (h : Ran s d (.beWrite c a p)) : BeSentinel d.ctx.be d.mem := by
  obtain ⟨-, -, be', m', hbit, rfl⟩ := h
  exact hs.step hok (probability_le p) (encBit_ok hok (probability_le p) hbit)

/-- The finished output has bit 7 of byte 0 clear: the padding keeps the sentinel and completes a byte, and the guard
byte comes after it. -/
theorem Ran.beStop_firstByte (hok : BeOk (s.ctx c).be) (hs : BeSentinel (s.ctx c).be s.mem)
    (h : Ran s d (.beStop c)) : (d.mem.read d.ctx.be.base.toNat).toNat < 128 := by
  obtain ⟨-, be1, m1, be2, m2, hpad, hguard, rfl⟩ := h
  have hp := encPadding_ok hok hpad
  have hpos : 0 < be1.pos.toNat := by
    rw [hp.pos, padBytes_stop hok]
    omega
  have hbase : be2.base = be1.base := by rcases guardByte_ok hguard with ⟨rfl, -⟩ | ⟨-, -, -, rfl, -⟩ <;> rfl
  obtain ⟨-, hout, -⟩ := guardByte_frame hguard
  dsimp only
  rw [hbase, hout _ (by omega)]
  exact (hs.padded hok hpad).firstByte hp.ok hpos

end

theorem aborts_beWrite_noUnderflow {s : State} {c : BitVec 4} {a p : BitVec 8} (hok : BeOk (s.ctx c).be)
    (hs : BeSentinel (s.ctx c).be s.mem) : ¬ Aborts s (.raise .carryUnderflow) (.beWrite c a p) := by
  rintro (⟨he, -⟩ | ⟨-, he, -⟩ | ⟨-, -, he⟩)
  · cases he
  · cases he
  · exact hs.encBit_noUnderflow hok (probability_le p) he

theorem aborts_beStop_noUnderflow {s : State} {c : BitVec 4} (hok : BeOk (s.ctx c).be)
    (hs : BeSentinel (s.ctx c).be s.mem) : ¬ Aborts s (.raise .carryUnderflow) (.beStop c) := by
  rintro (⟨he, -⟩ | ⟨-, he | ⟨be1, m1, -, he⟩⟩)
  · cases he
  · exact hs.encPadding_noUnderflow hok he
  · rcases guardByte_raises he with ⟨he, -⟩ | ⟨he, -⟩ <;> cases he

/-- Settles O33: the sentinel holds after the marker, an encode step keeps it, and with it no carry runs past byte 0. -/
theorem sentinelHolds : Obligations.SentinelHolds := by
  refine ⟨fun s t c base len h ⟨v, hv⟩ => ?_, fun s t c a p hf hok hs h => ?_, fun s t c hf hok hs h => ?_,
    fun s c hok hs hpos => hs.firstByte hok hpos⟩
  · rcases exec_next h with ⟨-, -, -, w, hw⟩ | ⟨-, -, d, hr, rfl⟩
    · rw [hv] at hw
      cases hw
    · rw [State.respond_ctx, State.setMem_ctx, Instr.ctx, State.ctx_setCtx_self]
      exact hr.beStart_sentinel
  · exact exec_noUnderflow (i := .beWrite c a p) (P := fun k m => BeSentinel k.be m) (s.halted_eq_false_iff.mpr hf) h
      (aborts_beWrite_noUnderflow hok hs) fun d hr => hr.beWrite_sentinel hok hs
  · exact exec_noUnderflow (i := .beStop c) (P := fun k m => (m.read k.be.base.toNat).toNat < 128)
      (s.halted_eq_false_iff.mpr hf) h (aborts_beStop_noUnderflow hok hs) fun d hr => hr.beStop_firstByte hok hs

/-! ### BE_START and the arithmetic of a step (spec R100 to R102) -/

/-- Settles O25: the encoder's sub-intervals are the definitions of its step, the decoder's those of `decRange`. -/
theorem splitLeavesBothIntervals : Obligations.SplitLeavesBothIntervals := by
  refine ⟨fun r p hr _ hp => ⟨splitPoint_eq r p, splitPoint_pos r p, Nat.le_sub_one_of_lt (splitPoint_lt hr hp)⟩,
    fun be p => ⟨rfl, rfl, rfl, rfl⟩, fun bd p hr hp => ?_⟩
  rw [decNarrow_range hr hp]
  refine ⟨fun h => ?_, fun h => ?_, decide_eq_true_iff⟩ <;> simp [decRange, h]

/-- Settles O26. -/
theorem normBringsRangeIntoWindow : Obligations.NormBringsRangeIntoWindow :=
  ⟨fun _ h h' => ⟨normShift_eq_log2 h h', normShift_window h h'⟩, rfl⟩

/-- Settles O27: with a region in the memory BE_START cannot abort, and the marker completes no byte. -/
theorem beStartResult : Obligations.BeStartResult := by
  intro s c base len hs hbase hlen
  exact exec_finishes (d := ⟨{ s.ctx c with be := ⟨.active, 0, 128, -24, 0, base, len⟩ }, s.mem, 0⟩) hs
    (fun _ ⟨_, hd⟩ => hd) fun _ ⟨_, hfit⟩ => hfit ⟨hbase, hlen⟩

/-! ### BE_WRITE (spec R103 to R105) -/

/-- The spec's names for the operands of an encode step: the move of the low end, the new width and the shift. -/
theorem encode_operands {bit : Bool} {p sp r n : Nat} {be : BeRegs} (hok : BeOk be) (hp : p ≤ 255)
    (hsp : sp = 1 + (be.range.toNat - 1) * p / 256) (hr : r = if bit then be.range.toNat - sp else sp)
    (hn : n = 7 - Nat.log2 r) :
    (if bit then sp else 0) = encAdd bit p be ∧ r = encRange bit p be ∧ n = encShift bit p be := by
  rw [← splitPoint_eq] at hsp
  subst hsp
  have hr' : r = encRange bit p be := hr
  obtain ⟨h1, h253, -⟩ := encRange_bounds hok bit hp
  refine ⟨rfl, hr', ?_⟩
  rw [hn, hr', encShift, normShift_eq_log2 h1 (by omega)]

section
variable {s : State} {c : BitVec 4} {a p : BitVec 8}

/-- BE_WRITE of an ACTIVE unit whose encode step finishes does that step. -/
theorem exec_beWrite_step (hs : s.ready c) (hlc : (s.ctx c).be.lc = .active) (hp : p ≠ 0) (hok : BeOk (s.ctx c).be)
    (h : ∃ r, encBit s.cfg (bitOperand a) p.toNat (s.ctx c).be s.mem = .ok r) :
    ∃ be' m', EncodeStep (bitOperand a) p.toNat (s.ctx c).be s.mem be' m' ∧
      exec (.beWrite c a p) s = .next (((s.setCtx c { s.ctx c with be := be' }).setMem m').respond .ok 0) := by
  have habort : ∀ e, ¬ Aborts s e (.beWrite c a p) := by
    obtain ⟨r, h⟩ := h
    rintro e (⟨-, hn⟩ | ⟨-, -, h0⟩ | ⟨-, -, he⟩)
    · exact hn hlc
    · exact hp h0
    · rw [h] at he
      cases he
  obtain ⟨d, ⟨-, -, be', m', hbit, rfl⟩, hx⟩ := exec_ran hs habort
  exact ⟨be', m', encBit_ok hok (probability_le p) hbit, hx⟩

/-- BE_WRITE of an ACTIVE unit takes the fault that its encode step raises. -/
theorem exec_beWrite_raises {f : FaultCode} (hs : s.ready c) (hlc : (s.ctx c).be.lc = .active) (hp : p ≠ 0)
    (h : encBit s.cfg (bitOperand a) p.toNat (s.ctx c).be s.mem = .error (.raise f)) :
    exec (.beWrite c a p) s = .next (takeFault f (Instr.beWrite c a p).word s) := by
  refine exec_raises hs (fun d hr => ?_) fun e he => ?_
  · obtain ⟨-, -, be', m', hbit, -⟩ := hr
    rw [h] at hbit
    cases hbit
  · rcases he with ⟨-, hn⟩ | ⟨-, -, h0⟩ | ⟨-, -, he⟩
    · exact absurd hlc hn
    · exact absurd h0 hp
    · rw [h] at he
      cases he
      rfl

end

/-- Settles O23: the capacity check comes before the carry. -/
theorem beWriteFaults : Obligations.BeWriteFaults := by
  intro s c a p hs hlc hp hok hfit hc
  exact ⟨fun hfull => exec_beWrite_raises hs hlc hp (encBit_overruns s.cfg s.mem hc hfull),
    fun hroom hcarry hff =>
      exec_beWrite_raises hs hlc hp (encBit_underflows hok (probability_le p) hfit hc hroom hcarry hff)⟩

/-- Settles O28: a step that completes no byte finishes. -/
theorem beWriteWithoutByte : Obligations.BeWriteWithoutByte := by
  intro s c a p sp r n hs hlc hp hok hsp hr hn hc
  obtain ⟨hadd, rfl, rfl⟩ := encode_operands hok (probability_le p) hsp hr hn
  obtain ⟨be1, hbit⟩ := encBit_quiet s.cfg s.mem hc
  obtain ⟨be', m', hst, hx⟩ := exec_beWrite_step hs hlc hp hok ⟨_, hbit⟩
  obtain ⟨hpos, rfl, hcount, hlow⟩ := hst.quiet hc
  rw [hadd]
  exact ⟨be', hx, hst.lc.trans hlc, hst.base, hst.cap, hpos, hst.range, hcount, hlow⟩

/-- Settles O29: a step with room for its byte, and a byte to take its carry, finishes. -/
theorem beWriteWithByte : Obligations.BeWriteWithByte := by
  intro s c a p sp r n lo hs hlc hp hok hfit hsp hr hn hlo hc hroom hcarry
  obtain ⟨hadd, rfl, rfl⟩ := encode_operands hok (probability_le p) hsp hr hn
  rw [hadd, ← encLow_toNat hok _ (probability_le p)] at hlo
  rw [hlo] at hcarry
  have hbit := encBit_finishes (cfg := s.cfg) (m := s.mem) hok (probability_le p) hfit fun _ => ⟨hroom, hcarry⟩
  obtain ⟨be', m', hst, hx⟩ := exec_beWrite_step hs hlc hp hok hbit
  obtain ⟨hpos, hcount, hlow⟩ := hst.emits hc
  rw [hadd]
  exact ⟨be', m', hx, hst.lc.trans hlc, hst.base, hst.cap, hpos, hst.range, hcount, hlow, hst.value⟩

/-! ### BE_STOP (spec R106, R109) -/

/-- The last byte of a region stands at the bottom of its value. -/
theorem regionValue_last (m : Memory) (base : Nat) {n : Nat} (h : 0 < n) :
    (m.read (base + n - 1)).toNat = regionValue m base n % 256 := by
  obtain ⟨k, rfl⟩ : ∃ k, n = k + 1 := ⟨n - 1, by omega⟩
  have hb := (m.read (base + k)).isLt
  rw [regionValue, ← Nat.add_assoc, Nat.add_sub_cancel]
  omega

/-- Whether BE_STOP adds a guard byte after `n` padding bytes, 1 or 0, read off the code value (spec R106): the last of
them is `110xxxxx`. -/
def guardBytes (cfg : Config) (n : Nat) (be : BeRegs) (m : Memory) : Nat :=
  if cfg.stopGuard = true ∧ codeValue be m * 2 ^ 32 / 2 ^ (be.count.toInt + 64 - 8 * n).toNat % 256 / 32 = 6
  then 1 else 0

section
variable {cfg : Config} {be be1 : BeRegs} {m m1 : Memory} {n : Nat}

/-- What the padding of BE_STOP leaves: `n` more bytes, and a last byte that the code value gives. -/
structure StopPadded (cfg : Config) (n : Nat) (be : BeRegs) (m : Memory) (be1 : BeRegs) (m1 : Memory) : Prop where
  base  : be1.base = be.base
  cap   : be1.cap = be.cap
  room  : be1.pos.toNat ≤ be1.cap.toNat
  low   : be1.low = 0
  pos   : be1.pos.toNat = be.pos.toNat + n
  count : be1.count.toInt = be.count.toInt + 32 - 8 * n
  range : be1.range.toNat = be.range.toNat + be.range.toNat % 2
  value : regionValue m1 be.base.toNat (be.pos.toNat + n) * 2 ^ (be1.count.toInt + 32).toNat = codeValue be m * 2 ^ 32
  guard : (guardCalled cfg be1 m1).toNat = guardBytes cfg n be m

theorem encPadding_stop (hok : BeOk be) (hn : n = 1 + (32 + be.count.toInt).toNat / 8)
    (h : encPadding cfg beStopPadding be m = .ok (be1, m1)) : StopPadded cfg n be m be1 m1 := by
  have hp := encPadding_ok hok h
  obtain ⟨hlow, hvalue⟩ := encPadding_flushes hok h
  have hpos := hp.pos
  have hcount := hp.count
  rw [padBytes_stop hok, ← hn] at hpos hcount
  have hcount' : be1.count.toInt = be.count.toInt + 32 - 8 * n := by
    rw [beStopPadding] at hcount
    omega
  have hlast : (m1.read (be1.base.toNat + be1.pos.toNat - 1)).toNat =
      codeValue be m * 2 ^ 32 / 2 ^ (be.count.toInt + 64 - 8 * n).toNat % 256 := by
    rw [regionValue_last m1 _ (by omega), ← hvalue,
      show (be.count.toInt + 64 - 8 * n).toNat = (be1.count.toInt + 32).toNat by omega,
      Nat.mul_div_cancel _ (Nat.two_pow_pos _)]
  rw [hp.base, hpos] at hvalue
  refine ⟨hp.base, hp.cap, hp.ok.cursor, hlow, hpos, hcount', hp.range, hvalue, ?_⟩
  rw [guardCalled, guardMask, hlast, guardBytes]
  cases cfg.stopGuard <;> simp [Bool.toNat]

/-- The guard byte's step moves the cursor by one if the byte is called for, and keeps what was there. -/
theorem guardByte_appends {be2 : BeRegs} {m2 : Memory} (h : guardByte cfg be1 m1 = .ok (be2, m2)) :
    be2 = { be1 with pos := be2.pos } ∧ be2.pos.toNat = be1.pos.toNat + (guardCalled cfg be1 m1).toNat ∧
    (be1.pos.toNat ≤ be1.cap.toNat → be2.pos.toNat ≤ be1.cap.toNat) ∧
    regionValue m2 be1.base.toNat be1.pos.toNat = regionValue m1 be1.base.toNat be1.pos.toNat ∧
    ((guardCalled cfg be1 m1).toNat = 1 → m2.read (be1.base.toNat + be1.pos.toNat) = 0) := by
  rcases guardByte_ok h with ⟨rfl, rfl, hg⟩ | ⟨hg, hroom, -, rfl, rfl⟩
  · rw [hg]
    exact ⟨rfl, rfl, id, rfl, fun h1 => (by cases h1)⟩
  · rw [hg]
    exact ⟨rfl, bePos_succ hroom, fun _ => (bePos_succ hroom).trans_le hroom,
      regionValue_congr fun j hj => Memory.read_write_ne m1 0 (by omega), fun _ => Memory.read_write_self ..⟩

end

/-- BE_STOP of an ACTIVE unit in its legal values has two faults: OUTPUT_OVERRUN for want of room for a padding byte
or the guard byte, and CARRY_UNDERFLOW in the first padding byte. -/
theorem Aborts.beStop_cases {s : State} {c : BitVec 4} {n : Nat} {e : Abort}
    (hlc : (s.ctx c).be.lc = .active) (hok : BeOk (s.ctx c).be)
    (hfit : regionFits s.cfg (s.ctx c).be.base (s.ctx c).be.cap)
    (hn : n = 1 + (32 + (s.ctx c).be.count.toInt).toNat / 8) (h : Aborts s e (.beStop c)) :
    (e = .raise .outputOverrun ∧
      (s.ctx c).be.cap.toNat < (s.ctx c).be.pos.toNat + n + guardBytes s.cfg n (s.ctx c).be s.mem) ∨
    (e = .raise .carryUnderflow ∧ (s.ctx c).be.pos.toNat < (s.ctx c).be.cap.toNat ∧
      ¬ padCarryOk (s.ctx c).be s.mem) := by
  rcases h with ⟨-, hne⟩ | ⟨-, hpad | ⟨be1, m1, hpad, hguard⟩⟩
  · exact absurd hlc hne
  · rcases encPadding_raises hok hpad with ⟨he, hroom⟩ | hcarry | ⟨-, hout⟩
    · rw [padBytes_stop hok, ← hn] at hroom
      exact .inl ⟨he, by omega⟩
    · exact .inr hcarry
    · have hin := hfit.2
      omega
  · have hst := encPadding_stop hok hn hpad
    rcases guardByte_raises hguard with ⟨he, hcall, hfull⟩ | ⟨-, hout⟩
    · have hg1 : guardBytes s.cfg n (s.ctx c).be s.mem = 1 := by rw [← hst.guard, hcall, Bool.toNat_true]
      rw [hst.cap, hst.pos] at hfull
      exact .inl ⟨he, by omega⟩
    · rw [hst.base] at hout
      exact absurd ⟨hst.cap ▸ hfit, hst.room⟩ hout

/-- BE_STOP of an ACTIVE unit takes the fault that its padding raises. -/
theorem exec_beStop_raises {s : State} {c : BitVec 4} {f : FaultCode} (hs : s.ready c) (hlc : (s.ctx c).be.lc = .active)
    (hpad : encPadding s.cfg beStopPadding (s.ctx c).be s.mem = .error (.raise f)) :
    exec (.beStop c) s = .next (takeFault f (Instr.beStop c).word s) := by
  refine exec_raises hs (fun d hr => ?_) fun e he => ?_
  · obtain ⟨-, be1, m1, be2, m2, h, -⟩ := hr
    rw [hpad] at h
    cases h
  · rcases he with ⟨-, hne⟩ | ⟨-, h | ⟨be1, m1, h, -⟩⟩
    · exact absurd hlc hne
    · rw [hpad] at h
      cases h
      rfl
    · rw [hpad] at h
      cases h

/-- Settles O31: with room for its bytes and a byte to take the carry BE_STOP cannot abort; the padding flushes the code
value and the guard byte comes after it. -/
theorem beStopResult : Obligations.BeStopResult := by
  intro s c n g hs hlc hok hfit hn hg hroom hcarry
  obtain rfl : g = guardBytes s.cfg n (s.ctx c).be s.mem := hg
  have habort : ∀ e, ¬ Aborts s e (.beStop c) := by
    intro e he
    rcases he.beStop_cases hlc hok hfit hn with ⟨-, hfull⟩ | ⟨-, -, hstuck⟩
    · omega
    · exact hstuck hcarry
  obtain ⟨d, ⟨-, be1, m1, be2, m2, hpad, hguard, rfl⟩, hx⟩ := exec_ran hs habort
  have hst := encPadding_stop hok hn hpad
  obtain ⟨hbe2, hpos, -, hvalue, hzero⟩ := guardByte_appends hguard
  rw [hst.guard] at hpos hzero
  rw [hst.pos] at hpos hvalue hzero
  rw [hst.base] at hvalue hzero
  refine ⟨_, m2, hx, rfl, ?_⟩
  rw [hbe2]
  refine ⟨hst.low, hst.base, hst.cap, hpos, hst.count, hst.range, ?_, fun h1 => ?_⟩
  · dsimp only
    rw [hst.base, hvalue, hst.value]
  · dsimp only
    rw [hst.base, Nat.add_assoc, hzero h1]

/-- Settles O32: without room BE_STOP cannot finish, and the carry comes after the capacity check of its byte. -/
theorem beStopFaults : Obligations.BeStopFaults := by
  intro s c n g hs hlc hok hfit hn hg
  obtain rfl : g = guardBytes s.cfg n (s.ctx c).be s.mem := hg
  refine ⟨fun hfull hcarry => ?_, fun hroom hpending hff => ?_⟩
  · refine exec_raises hs (fun d hr => ?_) fun e he => ?_
    · obtain ⟨-, be1, m1, be2, m2, hpad, hguard, -⟩ := hr
      have hst := encPadding_stop hok hn hpad
      obtain ⟨-, hpos, hroom, -⟩ := guardByte_appends hguard
      have hend := hroom hst.room
      rw [hpos, hst.guard, hst.pos, hst.cap] at hend
      omega
    · rcases he.beStop_cases hlc hok hfit hn with ⟨he, -⟩ | ⟨-, hroom, hstuck⟩
      · exact he
      · exact absurd (fun hpending => hcarry hpending hroom) hstuck
  · have hbyte : 0 < padBytes ((s.ctx c).be.count.toInt + 32).toNat beStopPadding := by
      rw [padBytes_stop hok]
      omega
    exact exec_beStop_raises hs hlc (encPadding_underflows hok hfit hbyte hroom hpending hff)

end Sys2Proof.Machine
end

section
/-! SUPPORT. The bool decoder's commands over the decode step of Laws/BoolDecoder (spec R120 to R124): the input bits as
bytes, and what a finished BD_READ and BD_INIT leave. -/

namespace Sys2Proof.Machine

/-! ### The input bits as bytes (spec R53, R120) -/

section
variable {bd : BdRegs} {m : Memory}

/-- The eight input bits from a byte boundary on are the stream byte there. -/
theorem inputBits_byte (bd : BdRegs) (m : Memory) (k : Nat) :
    inputBits bd m (8 * k) 8 = (if k < bd.size.toNat then m.read (bd.base.toNat + k) else 0).toNat := by
  have hbit (j : Nat) (hj : j < 8) : inputBit bd m (8 * k + j) =
      (if k < bd.size.toNat then m.read (bd.base.toNat + k) else 0).getLsbD (7 - j) := by
    rw [inputBit, show (8 * k + j) / 8 = k by omega, show (8 * k + j) % 8 = j by omega]
    split <;> simp
  simp only [inputBits, hbit, Nat.reduceLT]
  generalize (if k < bd.size.toNat then m.read (bd.base.toNat + k) else 0) = b
  revert b
  decide

/-- The bits of the first `n` bytes of the input are the value of those bytes. -/
theorem inputBits_region {n : Nat} (h : n ≤ bd.size.toNat) :
    inputBits bd m 0 (8 * n) = regionValue m bd.base.toNat n := by
  induction n with
  | zero => rfl
  | succ n ih =>
    rw [Nat.mul_succ, inputBits_add, Nat.zero_add, inputBits_byte, if_pos (by omega), ih (by omega)]
    rfl

theorem inputBits_eq_zero {i : Nat} (h : ∀ j, i ≤ j → inputBit bd m j = false) (n : Nat) : inputBits bd m i n = 0 := by
  induction n with
  | zero => rfl
  | succ n ih => rw [inputBits, ih, h _ (Nat.le_add_right i n)]; rfl

end

/-! ### BD_READ (spec R121, R124) -/

section
variable {s : State} {c : BitVec 4} {b : Bool} {bd' : BdRegs}

/-- BD_READ of an ACTIVE unit answers what its decode step gives. -/
theorem exec_bdRead_step {p : BitVec 8} (hs : s.ready c) (hlc : (s.ctx c).bd.lc = .active) (hp : p ≠ 0)
    (h : decBit s.cfg p.toNat (s.ctx c).bd s.mem = .ok (b, bd')) :
    exec (.bdRead c p) s = .next ((s.setCtx c { s.ctx c with bd := bd' }).respond .ok (bitWord b)) := by
  refine exec_finishes (i := .bdRead c p) (d := ⟨{ s.ctx c with bd := bd' }, s.mem, bitWord b⟩) hs ?_ ?_
  · rintro d ⟨-, -, b1, bd1, h1, rfl⟩
    rw [h] at h1
    cases h1
    rfl
  · rintro e (⟨-, hn⟩ | ⟨-, -, h0⟩ | ⟨-, -, he⟩)
    · exact hn hlc
    · exact hp h0
    · rw [h] at he
      cases he

/-- BD_INIT with a region in the memory answers what the decode step of the marker gives. -/
theorem exec_bdInit_step {base len : Word} {v : Byte} (hs : s.ready c) (hfit : regionFits s.cfg base len)
    (hv : v = if 0 < len.toNat then s.mem.read base.toNat else 0)
    (h : decBit s.cfg fairProb ⟨.active, v, 255, 8, base, len⟩ s.mem = .ok (b, bd')) :
    exec (.bdInit c base len) s = .next ((s.setCtx c { s.ctx c with bd := bd' }).respond .ok (bitWord b)) := by
  refine exec_finishes (i := .bdInit c base len) (d := ⟨{ s.ctx c with bd := bd' }, s.mem, bitWord b⟩) hs ?_
    fun e ⟨_, hn⟩ => hn hfit
  rintro d ⟨-, v1, b1, bd1, hv1, h1, rfl⟩
  rw [streamByte_eq hfit] at hv1
  cases hv1
  rw [Nat.add_zero, ← hv, h] at h1
  cases h1
  rfl

end

theorem bitWord_eq (b : Bool) : bitWord b = if b then 1 else 0 := by
  cases b <;> rfl

/-- Settles O34: the spec's names are the numbers of the decode step. -/
theorem bdReadResult : Obligations.BdReadResult := by
  intro s c p sp r v n b hs hlc hp hr hfit hsp hb hw hv hn
  rw [← splitPoint_eq] at hsp
  subst hsp
  obtain rfl : b = decBitOf p.toNat (s.ctx c).bd := hb
  obtain rfl : r = decRange p.toNat (s.ctx c).bd := hw
  obtain rfl : v = decValue p.toNat (s.ctx c).bd := hv
  have hr2 : 2 ≤ (s.ctx c).bd.range.toNat := by omega
  obtain ⟨-, h1, h254, -⟩ := decNarrow_eq hr2 (probability_le p)
  rw [← normShift_eq_log2 h1 (by omega)] at hn
  subst hn
  obtain ⟨bd', hbit, hlc', hbase, hsize, hrange, hpos, hvalue⟩ := decBit_eq s.mem hr2 (probability_le p) hfit
  rw [← bitWord_eq]
  exact ⟨bd', exec_bdRead_step hs hlc hp hbit, hlc'.trans hlc, hbase, hsize, hrange, hpos, hvalue⟩

/-! ### BD_INIT (spec R123) -/

/-- The first bit of the second byte. -/
theorem inputBit_eight (bd : BdRegs) (m : Memory) : (inputBit bd m 8).toNat =
    if 1 < bd.size.toNat then (m.read (bd.base.toNat + 1)).toNat / 128 else 0 := by
  have htop : ∀ b : Byte, (b.getLsbD 7).toNat = b.toNat / 128 := by decide
  rw [inputBit, ← htop]
  split <;> rfl

/-- The marker splits the initial range of 255 at 128. -/
theorem splitPoint_marker : splitPoint (255 : BitVec 8).toNat fairProb = 128 := rfl

section
variable {cfg : Config} {v : Byte} {base len : Word}

/-- A marker 0 takes the lower 128 of the 255 and needs no shift. -/
theorem decBit_marker_zero (h : v.toNat < 128) (m : Memory) :
    decBit cfg fairProb ⟨.active, v, 255, 8, base, len⟩ m = .ok (false, ⟨.active, v, 128, 8, base, len⟩) := by
  have hbit : decBitOf fairProb ⟨.active, v, 255, 8, base, len⟩ = false := by
    simpa [decBitOf, splitPoint] using h
  have hnarrow : decNarrow fairProb ⟨.active, v, 255, 8, base, len⟩ = ⟨.active, v, 128, 8, base, len⟩ := by
    rw [decNarrow, hbit, if_neg Bool.false_ne_true]
    dsimp only
    rw [splitPoint_marker]
    rfl
  rw [decBit, hnarrow, hbit]
  rfl

/-- A marker 1 takes the upper 127 and shifts one input bit in. -/
theorem decBit_marker_one (h : 128 ≤ v.toNat) (hfit : regionFits cfg base len) (m : Memory) :
    decBit cfg fairProb ⟨.active, v, 255, 8, base, len⟩ m = .ok (true, ⟨.active,
      BitVec.ofNat 8 ((v.toNat - 128) * 2 + if 1 < len.toNat then (m.read (base.toNat + 1)).toNat / 128 else 0),
      254, 9, base, len⟩) := by
  have hv := v.isLt
  have hbit : decBitOf fairProb ⟨.active, v, 255, 8, base, len⟩ = true := by
    simpa [decBitOf, splitPoint] using h
  have hnarrow : decNarrow fairProb ⟨.active, v, 255, 8, base, len⟩ =
      ⟨.active, BitVec.ofNat 8 (v.toNat - 128), 127, 8, base, len⟩ := by
    rw [decNarrow, hbit, if_pos rfl]
    dsimp only
    rw [splitPoint_marker]
    rfl
  rw [decBit, hnarrow, hbit]
  dsimp only
  rw [show normShift (127 : BitVec 8).toNat = 1 from rfl, decShift_eq m 1 hfit, ok_bind, inputBits_one,
    inputBit_eight, BitVec.toNat_ofNat, Nat.mod_eq_of_lt (by omega), Nat.pow_one]
  dsimp only
  rw [show (127 : BitVec 8) <<< 1 = 254 from rfl]

end

/-- Settles O35: the marker is decoded from the first byte, which is below the split 128 or not. -/
theorem bdInitResult : Obligations.BdInitResult := by
  intro s c base len first hs hbase hlen hfirst
  have hfit : regionFits s.cfg base len := ⟨hbase, hlen⟩
  obtain ⟨v, hv, rfl⟩ : ∃ v : Byte, (v = if 0 < len.toNat then s.mem.read base.toNat else 0) ∧ v.toNat = first :=
    ⟨_, rfl, by rw [hfirst]; split <;> rfl⟩
  rw [BitVec.ofNat_toNat, BitVec.setWidth_eq]
  exact ⟨fun h => exec_bdInit_step hs hfit hv (decBit_marker_zero h s.mem),
    fun h => exec_bdInit_step hs hfit hv (decBit_marker_one h hfit s.mem)⟩

end Sys2Proof.Machine
end

section
/-! SUPPORT. The coders against each other (spec R109, R125, R126). A list of bits and probabilities walks an interval,
as numbers alone. The encoder holds that interval as its code value and range; the decoder holds the distance of its
input from the interval's low end. An input inside the last interval is inside every one before it, so each decode step
finds the bit that the encode step was given. -/

namespace Sys2Proof.Machine

/-! ### The walk of the interval -/

/-- The numbers of `bits` bits in `[low, low + width)`. -/
structure CodeInterval where
  low   : Nat
  bits  : Nat
  width : Nat

namespace CodeInterval

/-- Before the marker (spec R102, R123). -/
def initial : CodeInterval := ⟨0, 8, bdInitialRange⟩

/-- The width of the bit's sub-interval (spec R100). -/
def part (I : CodeInterval) (bit : Bool) (p : Nat) : Nat :=
  if bit then I.width - splitPoint I.width p else splitPoint I.width p

/-- How far the bit's sub-interval stands above the low end (spec R100). -/
def offset (I : CodeInterval) (bit : Bool) (p : Nat) : Nat := if bit then splitPoint I.width p else 0

/-- The bit's sub-interval, scaled by its normalization shift (spec R103, R121). -/
def step (I : CodeInterval) (bit : Bool) (p : Nat) : CodeInterval where
  low   := (I.low + I.offset bit p) * 2 ^ normShift (I.part bit p)
  bits  := I.bits + normShift (I.part bit p)
  width := I.part bit p * 2 ^ normShift (I.part bit p)

/-- The walk that a list of bits with their probabilities takes. -/
def steps (I : CodeInterval) : List (Bool × BitVec 8) → CodeInterval
  | []      => I
  | x :: xs => (I.step x.1 x.2.toNat).steps xs

/-- The widths that both coders can split (spec R31). -/
abbrev Legal (I : CodeInterval) : Prop := 2 ≤ I.width ∧ I.width ≤ 255

variable {I : CodeInterval} {bit : Bool} {p : Nat}

theorem steps_append (I : CodeInterval) (xs ys : List (Bool × BitVec 8)) :
    I.steps (xs ++ ys) = (I.steps xs).steps ys := by
  induction xs generalizing I with
  | nil => rfl
  | cons x xs ih => exact ih _

theorem steps_bits_le (I : CodeInterval) (xs : List (Bool × BitVec 8)) :
    (I.steps xs).bits ≤ I.bits + 7 * xs.length := by
  induction xs generalizing I with
  | nil => exact Nat.le_refl _
  | cons x xs ih =>
    have hrest := ih (I.step x.1 x.2.toNat)
    have hbits : (I.step x.1 x.2.toNat).bits ≤ I.bits + 7 := Nat.add_le_add_left (normShift_le _) _
    rw [steps, List.length_cons]
    omega

/-- The sub-interval is non-empty, narrower than the interval, and lies in it. -/
theorem part_bounds (hI : I.Legal) (bit : Bool) (hp : p ≤ 255) :
    1 ≤ I.part bit p ∧ I.part bit p ≤ 254 ∧ I.offset bit p + I.part bit p ≤ I.width := by
  obtain ⟨h2, h255⟩ := hI
  have hlt := splitPoint_lt h2 hp
  have hpos := splitPoint_pos I.width p
  cases bit <;> simp only [part, offset, if_true, Bool.false_eq_true, if_false] <;> omega

theorem Legal.step (hI : I.Legal) (bit : Bool) (hp : p ≤ 255) : (I.step bit p).Legal := by
  obtain ⟨h1, h254, -⟩ := part_bounds hI bit hp
  obtain ⟨h128, h255⟩ := normShift_window h1 (by omega)
  exact ⟨Nat.le_trans (by decide) h128, h255⟩

/-- The marker takes the lower 128 of the 255 (spec R102). -/
theorem initial_step : initial.step false fairProb = ⟨0, 8, 128⟩ := rfl

theorem legal_initial_step : (initial.step false fairProb).Legal :=
  Legal.step ⟨by decide, by decide⟩ false (by decide)

/-- The first bits of the input lie in the interval. -/
def Holds (I : CodeInterval) (bd : BdRegs) (m : Memory) : Prop :=
  I.low ≤ inputBits bd m 0 I.bits ∧ inputBits bd m 0 I.bits < I.low + I.width

theorem Holds.congr {bd bd' : BdRegs} {m : Memory} (h : I.Holds bd m) (hb : bd'.base = bd.base)
    (hs : bd'.size = bd.size) : I.Holds bd' m := by
  unfold Holds at *
  rwa [inputBits_congr hb hs]

/-- An input in the scaled sub-interval is, cut to the interval's bits, in the sub-interval. -/
theorem Holds.part {bd : BdRegs} {m : Memory} (h : (I.step bit p).Holds bd m) :
    I.low + I.offset bit p ≤ inputBits bd m 0 I.bits ∧
    inputBits bd m 0 I.bits < I.low + I.offset bit p + I.part bit p := by
  unfold Holds CodeInterval.step at h
  dsimp only at h
  rw [inputBits_add, Nat.zero_add, ← Nat.add_mul] at h
  have hlt := inputBits_lt bd m I.bits (normShift (I.part bit p))
  obtain ⟨hlow, hhigh⟩ := h
  refine ⟨Nat.le_of_lt_succ ?_, ?_⟩ <;> refine Nat.lt_of_mul_lt_mul_right (a := 2 ^ normShift (I.part bit p)) ?_
  · rw [Nat.succ_mul]
    omega
  · omega

/-- An input in the last interval is in each one before it. -/
theorem Holds.of_steps {bd : BdRegs} {m : Memory} {xs : List (Bool × BitVec 8)} (hI : I.Legal)
    (h : (I.steps xs).Holds bd m) : I.Holds bd m := by
  induction xs generalizing I with
  | nil => exact h
  | cons x xs ih =>
    have hp := probability_le x.2
    obtain ⟨hlow, hhigh⟩ := (ih (hI.step x.1 hp) h).part
    have hin := (part_bounds hI x.1 hp).2.2
    exact ⟨by omega, by omega⟩

end CodeInterval

/-! ### The encoder's side -/

/-- The interval of a bool-encoder unit (spec R25, R103). -/
def beInterval (be : BeRegs) (m : Memory) : CodeInterval := ⟨codeValue be m, codeBits be, be.range.toNat⟩

theorem EncodeStep.interval {bit : Bool} {p : Nat} {be be' : BeRegs} {m m' : Memory}
    (h : EncodeStep bit p be m be' m') : beInterval be' m' = (beInterval be m).step bit p := by
  rw [beInterval, h.value, h.bits, h.range]
  rfl

/-- The bits that BE_STOP pads with (spec R106), as operands. -/
abbrev paddingBits (n : Nat) : List (Bool × BitVec 8) := List.replicate n (false, 128)

theorem encPadding_interval {cfg : Config} {n : Nat} {be be' : BeRegs} {m m' : Memory} (hok : BeOk be)
    (h : encPadding cfg n be m = .ok (be', m')) : beInterval be' m' = (beInterval be m).steps (paddingBits n) := by
  induction n generalizing be m with
  | zero =>
    cases h
    rfl
  | succ n ih =>
    obtain ⟨⟨be1, m1⟩, hbit, h⟩ := bind_ok h
    have hst := encBit_ok hok (by decide) hbit
    rw [ih hst.ok h, hst.interval]
    rfl

/-- After the padding has left nothing in `low`, the bytes counted, with the guard byte and the 0 bits past the end
(spec R120), read as the code value. -/
theorem holds_of_stopped {cfg : Config} {be be1 : BeRegs} {m m1 : Memory} {bd : BdRegs} (hlow : be.low = 0)
    (hrange : 0 < be.range.toNat) (hguard : guardByte cfg be m = .ok (be1, m1)) (hbase : bd.base = be.base)
    (hsize : bd.size = be1.pos) : (beInterval be m).Holds bd m1 := by
  obtain ⟨-, hpos, -, hvalue, hzero⟩ := guardByte_appends hguard
  have hg := Bool.toNat_le (guardCalled cfg be m)
  have htail : ∀ j, 8 * be.pos.toNat ≤ j → inputBit bd m1 j = false := by
    intro j hj
    rw [inputBit, hsize]
    split
    · rw [hbase, show j / 8 = be.pos.toNat by omega, hzero (by omega)]
      exact BitVec.getLsbD_zero
    · rfl
  have hbits : inputBits bd m1 0 (codeBits be) = codeValue be m := by
    rw [codeBits, inputBits_add, Nat.zero_add, inputBits_eq_zero htail, inputBits_region (by rw [hsize]; omega), hbase,
      hvalue, codeValue, hlow]
    rfl
  exact ⟨hbits.ge, hbits.trans_lt (Nat.lt_add_of_pos_right hrange)⟩

/-- An ACTIVE unit that writes to the region `[base, base + cap)` and whose interval is `I`. -/
structure EncoderUnit (base cap : Word) (I : CodeInterval) (be : BeRegs) (m : Memory) : Prop where
  lc       : be.lc = .active
  base     : be.base = base
  cap      : be.cap = cap
  ok       : BeOk be
  sentinel : BeSentinel be m
  interval : beInterval be m = I

theorem EncoderUnit.bits {base cap : Word} {I : CodeInterval} {be : BeRegs} {m : Memory}
    (h : EncoderUnit base cap I be m) : I.bits = 8 * be.pos.toNat + (be.count.toInt + 32).toNat := by
  rw [← h.interval]
  rfl

/-- The machine can run the commands of context `c`, whose encoder has such a unit in a region inside the memory. -/
structure Encoding (c : BitVec 4) (base cap : Word) (I : CodeInterval) (s : State) : Prop where
  ready : s.ready c
  fits  : regionFits s.cfg base cap
  unit  : EncoderUnit base cap I (s.ctx c).be s.mem

section
variable {s : State} {c : BitVec 4} {base cap : Word} {I : CodeInterval}

theorem beInterval_fresh (base len : Word) (m : Memory) :
    beInterval ⟨.active, 0, 128, -24, 0, base, len⟩ m = CodeInterval.initial.step false fairProb := by
  rw [CodeInterval.initial_step]
  simp [beInterval, codeValue, codeBits, regionValue]

/-- With its region in the memory BE_START finishes, and the marker is encoded (spec R102). -/
theorem encoding_start (hs : s.ready c) (hfit : regionFits s.cfg base cap) :
    ∃ t, exec (.beStart c base cap) s = .next t ∧ t.response = some ⟨.ok, 0⟩ ∧
      Encoding c base cap (CodeInterval.initial.step false fairProb) t := by
  refine ⟨_, beStartResult s c base cap hs hfit.1 hfit.2, rfl, hs, hfit, ?_⟩
  rw [State.respond_ctx, State.ctx_setCtx_self]
  exact ⟨rfl, rfl, rfl, beOk_fresh base cap, beSentinel_fresh .active base cap _, beInterval_fresh ..⟩

/-- A bit operand holds its bit (spec R73). -/
theorem bitOperand_ofBool (b : Bool) : bitOperand ((BitVec.ofBool b).setWidth 8) = b := by
  cases b <;> rfl

/-- With room a write cannot abort: the sentinel keeps its carry in the output (spec R107). -/
theorem Encoding.write (h : Encoding c base cap I s) (b : Bool) {p : BitVec 8} (hp : p ≠ 0)
    (hroom : I.bits / 8 < cap.toNat) :
    ∃ t, exec (.beWrite c ((BitVec.ofBool b).setWidth 8) p) s = .next t ∧ t.response = some ⟨.ok, 0⟩ ∧
      Encoding c base cap (I.step b p.toNat) t := by
  obtain ⟨hs, hfit, hu⟩ := h
  have hpl := probability_le p
  have hbit := encBit_finishes (cfg := s.cfg) (bit := b) (m := s.mem) hu.ok hpl (by rwa [hu.base, hu.cap]) fun _ => by
    refine ⟨by rw [hu.cap]; have := hu.bits; omega, fun hcarry => ?_⟩
    rw [encLow_toNat hu.ok b hpl] at hcarry
    have hin := (encRange_bounds hu.ok b hpl).2.2
    exact hu.sentinel.takesCarry hu.ok (by omega) hcarry
  rw [← bitOperand_ofBool b] at hbit
  obtain ⟨be', m', hst, hx⟩ := exec_beWrite_step hs hu.lc hp hu.ok hbit
  rw [bitOperand_ofBool] at hst
  refine ⟨_, hx, rfl, hs, hfit, ?_⟩
  rw [State.respond_ctx, State.setMem_ctx, State.ctx_setCtx_self]
  exact ⟨hst.lc.trans hu.lc, hst.base.trans hu.base, hst.cap.trans hu.cap, hst.ok, hu.sentinel.step hu.ok hpl hst,
    by rw [← hu.interval]; exact hst.interval⟩

/-- With room BE_STOP finishes, and the bytes it counts hold the padded interval (spec R106, R109). -/
theorem Encoding.stop (h : Encoding c base cap I s) (hroom : I.bits / 8 + 2 ≤ cap.toNat) :
    ∃ t count, exec (.beStop c) s = .next t ∧ t.response = some ⟨.ok, count⟩ ∧ t.ready c ∧
      regionFits t.cfg base count ∧ count.toNat ≤ I.bits / 8 + 2 ∧
      ∀ bd : BdRegs, bd.base = base → bd.size = count → (I.steps (paddingBits beStopPadding)).Holds bd t.mem := by
  obtain ⟨hs, hfit, hu⟩ := h
  have hbits := hu.bits
  have hcap : (s.ctx c).be.cap.toNat = cap.toNat := by rw [hu.cap]
  have habort : ∀ e, ¬ Aborts s e (.beStop c) := by
    intro e he
    rcases he.beStop_cases hu.lc hu.ok (by rwa [hu.base, hu.cap]) rfl with ⟨-, hfull⟩ | ⟨-, -, hstuck⟩
    · rw [guardBytes] at hfull
      split at hfull <;> omega
    · exact hstuck (hu.sentinel.takesCarry hu.ok (Nat.zero_le _))
  obtain ⟨d, ⟨-, be1, m1, be2, m2, hpad, hguard, rfl⟩, hx⟩ := exec_ran (i := .beStop c) hs habort
  have hst := encPadding_stop hu.ok rfl hpad
  obtain ⟨-, hpos, -⟩ := guardByte_appends hguard
  rw [hst.pos] at hpos
  have hg := Bool.toNat_le (guardCalled s.cfg be1 m1)
  have hcount : be2.pos.toNat ≤ I.bits / 8 + 2 := by omega
  refine ⟨_, be2.pos, hx, rfl, hs, ⟨hfit.1, ?_⟩, hcount, fun bd hbase hsize => ?_⟩
  · exact Nat.le_trans (by omega) hfit.2
  · rw [← hu.interval, ← encPadding_interval hu.ok hpad]
    have hrange := (encPadding_ok hu.ok hpad).ok.rangeLow
    exact holds_of_stopped hst.low (by omega) hguard (by rw [hbase, hst.base, hu.base]) hsize

end

/-! ### The decoder's side -/

/-- The decoder stands at the interval `I`: it has read `I`'s bits of its input, and `value` is their distance from the
low end. -/
structure InStep (I : CodeInterval) (bd : BdRegs) (m : Memory) : Prop where
  range  : bd.range.toNat = I.width
  bitpos : bd.bitpos = I.bits
  value  : inputBits bd m 0 I.bits = I.low + bd.value.toNat

/-- A decoder about to decode the marker stands at the initial interval (spec R123). -/
theorem inStep_initial {v : Byte} {base len : Word} {m : Memory}
    (hv : v = if 0 < len.toNat then m.read base.toNat else 0) :
    InStep .initial ⟨.active, v, 255, 8, base, len⟩ m := by
  refine ⟨rfl, rfl, ?_⟩
  rw [hv, CodeInterval.initial, Nat.zero_add]
  exact inputBits_byte ⟨.active, _, 255, 8, base, len⟩ m 0

/-- If the input lies in the sub-interval of a bit, the decode step finds that bit and stands at that sub-interval. -/
theorem InStep.decode {cfg : Config} {I : CodeInterval} {bit : Bool} {p : Nat} {bd : BdRegs} {m : Memory}
    (h : InStep I bd m) (hI : I.Legal) (hp : p ≤ 255) (hfit : regionFits cfg bd.base bd.size)
    (hin : (I.step bit p).Holds bd m) :
    ∃ bd', decBit cfg p bd m = .ok (bit, bd') ∧ bd'.lc = bd.lc ∧ bd'.base = bd.base ∧ bd'.size = bd.size ∧
      InStep (I.step bit p) bd' m := by
  obtain ⟨hr, hb, hv⟩ := h
  have hpart := hin.part
  rw [hv] at hpart
  have hbit : decBitOf p bd = bit := by
    rw [decBitOf, hr]
    cases bit <;> simp only [CodeInterval.offset, CodeInterval.part, if_true, Bool.false_eq_true, if_false] at hpart
    · exact decide_eq_false (by omega)
    · exact decide_eq_true (by omega)
  have hwidth : decRange p bd = I.part bit p := by rw [decRange, hbit, hr]; rfl
  have hdist : bd.value.toNat = I.offset bit p + decValue p bd := by
    rw [decValue, hbit, hr]
    cases bit
    · exact (Nat.zero_add _).symm
    · exact (Nat.add_sub_cancel' (by simpa [CodeInterval.offset] using hpart.1)).symm
  obtain ⟨bd', hdec, hlc, hbase, hsize, hrange, hpos, hvalue⟩ := decBit_eq m (hr ▸ hI.1) hp hfit
  rw [hbit] at hdec
  rw [hwidth, hb] at hpos hvalue
  rw [hwidth] at hrange
  have hread : inputBits bd m 0 (I.step bit p).bits = (I.step bit p).low +
      (decValue p bd * 2 ^ normShift (I.part bit p) + inputBits bd m I.bits (normShift (I.part bit p))) := by
    rw [CodeInterval.step, inputBits_add, Nat.zero_add, hv, hdist]
    ring
  refine ⟨bd', hdec, hlc, hbase, hsize, hrange, hpos, ?_⟩
  have hsmall := hin.2
  rw [hread] at hsmall
  have hw : (I.step bit p).width < 256 := Nat.lt_succ_of_le (hI.step bit hp).2
  rw [inputBits_congr hbase hsize, hread, hvalue, Nat.mod_eq_of_lt (by omega)]

/-- The machine decodes in context `c`, and its unit stands at the interval `I`. -/
structure Decoding (c : BitVec 4) (I : CodeInterval) (s : State) : Prop where
  ready  : s.ready c
  fits   : regionFits s.cfg (s.ctx c).bd.base (s.ctx c).bd.size
  lc     : (s.ctx c).bd.lc = .active
  inStep : InStep I (s.ctx c).bd s.mem

section
variable {s : State} {c : BitVec 4} {I : CodeInterval}

/-- A decode step committed to a ready machine. -/
theorem decoding_setCtx {bd' : BdRegs} {v : Word} (hs : s.ready c) (hfit : regionFits s.cfg bd'.base bd'.size)
    (hlc : bd'.lc = .active) (h : InStep I bd' s.mem) :
    Decoding c I ((s.setCtx c { s.ctx c with bd := bd' }).respond .ok v) := by
  refine ⟨hs, ?_, ?_, ?_⟩ <;> rw [State.respond_ctx, State.ctx_setCtx_self]
  · exact hfit
  · exact hlc
  · exact h

/-- BD_INIT on an input that holds the marker 0 finds it. -/
theorem decoding_init {base len : Word} (hs : s.ready c) (hfit : regionFits s.cfg base len)
    (hin : ∀ bd : BdRegs, bd.base = base → bd.size = len →
      (CodeInterval.initial.step false fairProb).Holds bd s.mem) :
    ∃ t, exec (.bdInit c base len) s = .next t ∧ t.response = some ⟨.ok, 0⟩ ∧ t.mem = s.mem ∧
      (t.ctx c).bd.base = base ∧ (t.ctx c).bd.size = len ∧ Decoding c (CodeInterval.initial.step false fairProb) t := by
  obtain ⟨bd', hdec, hlc, hbase, hsize, hst⟩ := (inStep_initial (len := len) rfl).decode (cfg := s.cfg)
    ⟨by decide, by decide⟩ (by decide) hfit (hin ⟨.active, _, 255, 8, base, len⟩ rfl rfl)
  refine ⟨_, exec_bdInit_step hs hfit rfl hdec, rfl, rfl, ?_, ?_,
    decoding_setCtx hs (by rw [hbase, hsize]; exact hfit) hlc hst⟩ <;>
    rw [State.respond_ctx, State.ctx_setCtx_self]
  · exact hbase
  · exact hsize

/-- BD_READ of an input in the sub-interval of a bit answers the bit. -/
theorem Decoding.read (h : Decoding c I s) (hI : I.Legal) {b : Bool} {p : BitVec 8} (hp : p ≠ 0)
    (hin : (I.step b p.toNat).Holds (s.ctx c).bd s.mem) :
    ∃ t, exec (.bdRead c p) s = .next t ∧ t.response = some ⟨.ok, bitWord b⟩ ∧ t.mem = s.mem ∧
      (t.ctx c).bd.base = (s.ctx c).bd.base ∧ (t.ctx c).bd.size = (s.ctx c).bd.size ∧
      Decoding c (I.step b p.toNat) t := by
  obtain ⟨bd', hdec, hlc, hbase, hsize, hst⟩ := h.inStep.decode hI (probability_le p) h.fits hin
  refine ⟨_, exec_bdRead_step h.ready h.lc hp hdec, rfl, rfl, ?_, ?_,
    decoding_setCtx h.ready (by rw [hbase, hsize]; exact h.fits) (hlc.trans h.lc) hst⟩ <;>
    rw [State.respond_ctx, State.ctx_setCtx_self]
  · exact hbase
  · exact hsize

end

/-! ### Running the commands -/

section
variable {s t u : State} {v : Word} {vs ws : List Word}

theorem runAll_cons {i : Instr} {is : List Instr} (hx : exec i s = .next t) (hv : t.response = some ⟨.ok, v⟩)
    (h : runAll is t = some (vs, u)) : runAll (i :: is) s = some (v :: vs, u) := by
  simp [runAll, hx, hv, h]

/-- A list that runs begins with a command that answers OK. -/
theorem runAll_cons_some {i : Instr} {is : List Instr} {r : List Word × State} (h : runAll (i :: is) s = some r) :
    ∃ t v q, exec i s = .next t ∧ t.response = some ⟨.ok, v⟩ ∧ runAll is t = some q ∧ r = (v :: q.1, q.2) := by
  rw [runAll] at h
  split at h
  · split at h
    · obtain ⟨q, hq, rfl⟩ := Option.map_eq_some_iff.mp h
      exact ⟨_, _, q, ‹_›, ‹_›, hq, rfl⟩
    · cases h
    · cases h
  · cases h
  · cases h

theorem runAll_append {is js : List Instr} (h : runAll is s = some (vs, t)) (h' : runAll js t = some (ws, u)) :
    runAll (is ++ js) s = some (vs ++ ws, u) := by
  induction is generalizing s vs with
  | nil =>
    cases h
    exact h'
  | cons i is ih =>
    obtain ⟨s1, v, q, hx, hv, hq, hr⟩ := runAll_cons_some h
    cases hr
    exact runAll_cons hx hv (ih hq)

end

section
variable {s : State} {c : BitVec 4} {I : CodeInterval} {xs : List (Bool × BitVec 8)}

/-- With room for their bytes (spec R109) the writes walk the interval. -/
theorem Encoding.writes {base cap : Word} (h : Encoding c base cap I s) (hp : ∀ x ∈ xs, x.2 ≠ 0)
    (hroom : (I.bits + 7 * xs.length) / 8 < cap.toNat) :
    ∃ t, runAll (writeCommands c xs) s = some (List.replicate xs.length 0, t) ∧ Encoding c base cap (I.steps xs) t := by
  induction xs generalizing I s with
  | nil => exact ⟨s, rfl, h⟩
  | cons x xs ih =>
    rw [List.length_cons] at hroom
    obtain ⟨hpx, hpxs⟩ := List.forall_mem_cons.mp hp
    obtain ⟨t, hx, hv, ht⟩ := h.write x.1 hpx (by omega)
    have h7 := I.steps_bits_le [x]
    rw [List.length_singleton, CodeInterval.steps, CodeInterval.steps] at h7
    obtain ⟨u, hrun, hu⟩ := ih ht hpxs (by omega)
    exact ⟨u, runAll_cons hx hv hrun, hu⟩

/-- Reads of an input in the last interval of a walk answer the bits of the walk. -/
theorem Decoding.reads (h : Decoding c I s) (hI : I.Legal) (hp : ∀ x ∈ xs, x.2 ≠ 0)
    (hin : (I.steps xs).Holds (s.ctx c).bd s.mem) :
    ∃ u, runAll (readCommands c xs) s = some (xs.map fun x => bitWord x.1, u) := by
  induction xs generalizing I s with
  | nil => exact ⟨s, rfl⟩
  | cons x xs ih =>
    obtain ⟨hpx, hpxs⟩ := List.forall_mem_cons.mp hp
    have hI' := hI.step x.1 (probability_le x.2)
    obtain ⟨t, hx, hv, hmem, hbase, hsize, ht⟩ := h.read hI hpx (hin.of_steps hI')
    obtain ⟨u, hrun⟩ := ih ht hI' hpxs (by rw [hmem]; exact hin.congr hbase hsize)
    exact ⟨u, runAll_cons hx hv hrun⟩

end

/-- Settles O36: the padding bits of BE_STOP are encoded like any others, so the decoder's reads follow the encoder's
whole walk, marker and padding included. -/
theorem codersRoundTrip : Obligations.CodersRoundTrip := by
  intro s c base cap xs hs hbase hcap hp hroom
  obtain ⟨s1, hx1, hv1, h1⟩ := encoding_start hs ⟨hbase, hcap⟩
  have hbits : (CodeInterval.initial.step false fairProb).bits = 8 := rfl
  obtain ⟨s2, hrun2, h2⟩ := h1.writes hp (by rw [hbits]; omega)
  have hlen := CodeInterval.steps_bits_le (CodeInterval.initial.step false fairProb) xs
  rw [hbits] at hlen
  obtain ⟨t, count, hx3, hv3, ht, hfit, hcount, hin⟩ := h2.stop (by omega)
  rw [← CodeInterval.steps_append] at hin
  have hI := CodeInterval.legal_initial_step
  obtain ⟨t1, hx4, hv4, hmem, hb4, hs4, h4⟩ := decoding_init ht hfit fun bd hb hs => (hin bd hb hs).of_steps hI
  have hpad : ∀ x ∈ xs ++ paddingBits beStopPadding, x.2 ≠ 0 := by
    intro x hx
    rcases List.mem_append.mp hx with h | h
    · exact hp x h
    · rw [List.eq_of_mem_replicate h]
      decide
  obtain ⟨u, hrun5⟩ := h4.reads hI hpad (by rw [hmem]; exact hin _ hb4 hs4)
  refine ⟨t, u, count, ?_, by omega, ?_⟩
  · exact runAll_append (runAll_cons hx1 hv1 hrun2) (runAll_cons hx3 hv3 rfl)
  · have hreads : readCommands c (xs ++ paddingBits beStopPadding) =
        readCommands c xs ++ List.replicate 32 (.bdRead c 128) := by
      simp [readCommands, beStopPadding]
    rw [hreads, List.map_append, List.map_replicate] at hrun5
    exact runAll_cons hx4 hv4 hrun5

end Sys2Proof.Machine
end

section
/-! SUPPORT. The ANS commands over the steps of Laws/Ans (spec R140 to R146). The step of a symbol is one step in two
parameters, the width of the symbol and its map of the state, so its effect and its overrun are said once for ANS_UABS
and ANS_RANS; the loop of SQ_FLUSH is the steps of a list of records (spec R164, R165). -/

namespace Sys2Proof.Machine

/-! ### The step of a symbol (spec R141, R143, R144) -/

/-- Renormalization for a symbol of width `ls`, then the map `next` of the state. -/
def symbolStep (cfg : Config) (ls : Nat) (next : Nat → Nat) (ans : AnsRegs) (m : Memory) :
    Except Abort (AnsRegs × Memory) := do
  let r ← ansRenorm cfg ls ans m
  .ok ({ r.1 with x := BitVec.ofNat 32 (next r.1.x.toNat) }, r.2)

theorem uabsStep_eq_symbolStep (cfg : Config) (bit p0 : Nat) :
    uabsStep cfg bit p0 = symbolStep cfg (uabsLs bit p0) (uabsNext bit p0) := rfl

theorem ransStep_eq_symbolStep (cfg : Config) (cum prob : Nat) :
    ransStep cfg cum prob = symbolStep cfg prob (ransNext cum prob) := rfl

theorem uabsLs_bitOperand (a p0 : BitVec 8) :
    uabsLs (bitOperand a).toNat p0.toNat = if a.getLsbD 0 then 256 - p0.toNat else p0.toNat := by
  unfold bitOperand
  cases a.getLsbD 0 <;> rfl

theorem uabsNext_bitOperand (a p0 : BitVec 8) :
    uabsNext (bitOperand a).toNat p0.toNat = fun y =>
      if a.getLsbD 0 then ((y + 1) * 256 + (256 - p0.toNat) - 1) / (256 - p0.toNat) - 1 else y * 256 / p0.toNat := by
  unfold bitOperand
  cases a.getLsbD 0 <;> rfl

theorem requireActive_ok {lc : Lifecycle} (h : lc = .active) : requireActive lc = .ok () := require_true h

/-- The end of a symbol's command for context `c`, whose first word is `w`: its step on the ANS engine, committed. -/
def commitSymbol (w : Word) (c : BitVec 4) (s : State) (ls : Nat) (next : Nat → Nat) :
    Host.Outcome State Fault Refusal :=
  commit w c s do
    let r ← symbolStep s.cfg ls next (s.ctx c).ans s.mem
    .ok ⟨{ s.ctx c with ans := r.1 }, r.2, 0⟩

section
variable {s : State} {c : BitVec 4}

theorem exec_ansUabs_eq {a p0 : BitVec 8} (hs : s.ready c) (hlc : (s.ctx c).ans.lc = .active) (hp : p0 ≠ 0) :
    exec (.ansUabs c a p0) s = commitSymbol (Instr.ansUabs c a p0).word c s
      (uabsLs (bitOperand a).toNat p0.toNat) (uabsNext (bitOperand a).toNat p0.toNat) := by
  refine (runCommand_served (c := c) rfl hs.1 hs.2).trans ?_
  rw [requireActive_ok hlc, ok_bind, checkProbability, require_true hp, ok_bind, uabsStep_eq_symbolStep]
  rfl

theorem exec_ansRans_eq {cum prob : BitVec 8} (hs : s.ready c) (hlc : (s.ctx c).ans.lc = .active) (hp : prob ≠ 0)
    (hsum : cum.toNat + prob.toNat ≤ 256) :
    exec (.ansRans c cum prob) s = commitSymbol (Instr.ansRans c cum prob).word c s
      prob.toNat (ransNext cum.toNat prob.toNat) := by
  refine (runCommand_served (c := c) rfl hs.1 hs.2).trans ?_
  rw [requireActive_ok hlc, ok_bind, checkProbability, require_true hp, ok_bind, checkSymbolRange, probScale,
    require_true hsum, ok_bind, ransStep_eq_symbolStep]
  rfl

end

section
variable {s : State} {c : BitVec 4} {w : Word} {ls : Nat} {next : Nat → Nat}

theorem commitSymbol_full (hroom : (s.ctx c).ans.cap.toNat ≤ (s.ctx c).ans.off.toNat)
    (hx : 1024 * ls ≤ (s.ctx c).ans.x.toNat) :
    commitSymbol w c s ls next = .next (takeFault .outputOverrun w s) := by
  rw [commitSymbol, symbolStep, ansRenorm_full s.cfg s.mem hx hroom]
  rfl

theorem commitSymbol_below (hx : (s.ctx c).ans.x.toNat < 1024 * ls) :
    commitSymbol w c s ls next = .next ((s.setCtx c { s.ctx c with
      ans := { (s.ctx c).ans with x := BitVec.ofNat 32 (next (s.ctx c).ans.x.toNat) } }).respond .ok 0) := by
  rw [commitSymbol, symbolStep, ansRenorm_below s.cfg s.mem hx]
  rfl

theorem commitSymbol_above (h1 : 1 ≤ ls) (hx : 1024 * ls ≤ (s.ctx c).ans.x.toNat)
    (hhi : (s.ctx c).ans.x.toNat < 262144) (hfit : regionFits s.cfg (s.ctx c).ans.base (s.ctx c).ans.cap)
    (hroom : (s.ctx c).ans.off.toNat < (s.ctx c).ans.cap.toNat) :
    commitSymbol w c s ls next = .next (((s.setCtx c { s.ctx c with
      ans := { (s.ctx c).ans with
        x := BitVec.ofNat 32 (next ((s.ctx c).ans.x.toNat / 256)), off := (s.ctx c).ans.off + 1 } }).setMem
          (s.mem.write ((s.ctx c).ans.base.toNat + (s.ctx c).ans.off.toNat)
            (BitVec.ofNat 8 (s.ctx c).ans.x.toNat))).respond .ok 0) := by
  obtain ⟨-, hend⟩ := hfit
  have hdiv : (BitVec.ofNat 32 ((s.ctx c).ans.x.toNat / 256)).toNat = (s.ctx c).ans.x.toNat / 256 := by
    rw [BitVec.toNat_ofNat]
    omega
  rw [commitSymbol, symbolStep, ansRenorm_above s.mem h1 hx hhi hroom (by omega), ok_bind, hdiv]
  rfl

/-- A map that takes the window `[4 * ls, 1024 * ls)` into the interval keeps the state there, with a byte put and
without one (spec R146). -/
theorem symbol_inRange {x : Nat} (h1 : 1 ≤ ls) (h256 : ls ≤ 256) (hlo : 1024 ≤ x) (hhi : x < 262144)
    (hnext : ∀ y, 4 * ls ≤ y → y < 1024 * ls → ansInRange (next y)) :
    (x < 1024 * ls → ansInRange (next x)) ∧ (1024 * ls ≤ x → ansInRange (next (x / 256))) :=
  ⟨fun hx => hnext x (by omega) hx, fun hx => hnext (x / 256) (by omega) (by omega)⟩

end

/-- Settles O38: the step of a symbol of the bit's width, whose map keeps the state in its interval. -/
theorem ansUabsResult : Obligations.AnsUabsResult := by
  intro s c a p0 ls x next hs hlc hp hx hlo hhi hfit hls hnext
  rw [← uabsLs_bitOperand] at hls
  rw [← uabsNext_bitOperand] at hnext
  subst hls hnext hx
  obtain ⟨h1, h255⟩ := uabsLs_bounds (bit := (bitOperand a).toNat) (probability_pos hp) (probability_le p0)
  obtain ⟨hbelow, habove⟩ := symbol_inRange h1 (by omega) hlo hhi fun y =>
    uabsNext_inRange (Bool.toNat_le _) (probability_pos hp) (probability_le p0)
  rw [exec_ansUabs_eq hs hlc hp]
  exact ⟨fun hx => ⟨commitSymbol_below hx, hbelow hx⟩,
    fun hx hroom => ⟨commitSymbol_above h1 hx hhi hfit hroom, habove hx⟩⟩

/-- Settles O39: the step of a symbol of width `prob`, whose map keeps the state in its interval. -/
theorem ansRansResult : Obligations.AnsRansResult := by
  intro s c cum prob x next hs hlc hp hsum hx hlo hhi hfit hnext
  subst hx
  obtain rfl : next = ransNext cum.toNat prob.toNat := hnext
  have h1 := probability_pos hp
  obtain ⟨hbelow, habove⟩ := symbol_inRange h1 (by omega) hlo hhi fun y => ransNext_inRange h1 hsum
  rw [exec_ansRans_eq hs hlc hp hsum]
  exact ⟨fun hx => ⟨commitSymbol_below hx, hbelow hx⟩,
    fun hx hroom => ⟨commitSymbol_above h1 hx hhi hfit hroom, habove hx⟩⟩

/-! ### ANS_INIT and ANS_END (spec R142, R145) -/

/-- Settles O37: with a region in the memory ANS_INIT cannot abort. -/
theorem ansInitResult : Obligations.AnsInitResult := by
  intro s c base len hs hbase hlen
  exact exec_finishes (d := ⟨{ s.ctx c with ans := ⟨.active, 1024, 0, base, len⟩ }, s.mem, 0⟩) hs
    (fun _ ⟨_, hd⟩ => hd) fun _ ⟨_, hfit⟩ => hfit ⟨hbase, hlen⟩

/-- ANS_END from a state in its interval puts the bytes of the final state, committed. -/
theorem exec_ansEnd_eq {s : State} {c : BitVec 4} (hs : s.ready c) (hlc : (s.ctx c).ans.lc = .active)
    (hx : ansInRange (s.ctx c).ans.x.toNat) :
    exec (.ansEnd c) s = commit (Instr.ansEnd c).word c s (do
      let r ← ansPutAll s.cfg (ansEndBytes ((s.ctx c).ans.x.toNat - 1024)) (s.ctx c).ans s.mem
      .ok ⟨{ s.ctx c with ans := { r.1 with lc := .final } }, r.2, r.1.off⟩) := by
  refine (runCommand_served (c := c) rfl hs.1 hs.2).trans ?_
  rw [requireActive_ok hlc, ok_bind, require_true hx, ok_bind]
  rfl

/-- Settles O40: with room for the bytes of the final state each is put in its place, and the cursor's growth is the
frame. -/
theorem ansEndResult : Obligations.AnsEndResult := by
  intro s c st n v at_ hs hlc hlo hhi hfit hst hn hv hat hroom
  rw [← ansEndBytes_length] at hn
  subst hn hat
  obtain ⟨m', hput, hread⟩ := ansPutAll_finishes s.mem hfit.2 hroom
  obtain ⟨hgrows, -, hoff⟩ := ansPutAll_ok hput
  refine ⟨m', ?_, fun j hj => ?_, fun b hb => hgrows.frame b fun h => hb ?_⟩
  · rw [exec_ansEnd_eq hs hlc ⟨hlo, hhi⟩, ← hst, hput]
    rfl
  · rw [hread j hj, ansEndBytes_byte, hv]
  · omega

/-! ### The steps of a list of records (spec R164, R165) -/

/-- The steps of the records of a list, first one first. -/
def recordSteps (cfg : Config) : List SqRecord → AnsRegs → Memory → Except Abort (AnsRegs × Memory)
  | [], ans, m => .ok (ans, m)
  | r :: rs, ans, m => do
    let q ← recordStep cfg r ans m
    recordSteps cfg rs q.1 q.2

theorem recordSteps_append {cfg : Config} {rs : List SqRecord} (rs' : List SqRecord) {ans ans' : AnsRegs}
    {m m' : Memory} (h : recordSteps cfg rs ans m = .ok (ans', m')) :
    recordSteps cfg (rs ++ rs') ans m = recordSteps cfg rs' ans' m' := by
  induction rs generalizing ans m with
  | nil =>
    cases h
    rfl
  | cons r rs ih =>
    obtain ⟨q, hq, h⟩ := bind_ok h
    rw [List.cons_append, recordSteps, hq, ok_bind, ih h]

/-- The loop of SQ_FLUSH over `n` records steps through them, last one first. -/
theorem flushFrom_eq_recordSteps (cfg : Config) (c : BitVec 4) (recs : RecordStore) (n : Nat) (ans : AnsRegs)
    (m : Memory) :
    flushFrom cfg c recs n ans m = recordSteps cfg ((List.range n).map (readRecord c recs)).reverse ans m := by
  induction n generalizing ans m with
  | zero => rfl
  | succ n ih => simp [flushFrom, recordSteps, List.range_succ, ih]

theorem SqOk.queueRecords_valid {cfg : Config} {sq : SqRegs} (h : SqOk cfg sq) (c : BitVec 4) :
    ∀ r ∈ queueRecords c sq, r.valid = true := by
  simp only [queueRecords, List.forall_mem_map, List.mem_range]
  exact fun i hi => h.readRecord_valid c hi

/-- SQ_FLUSH of an ACTIVE queue into an ACTIVE ANS steps through the queue's records, last one first, committed. -/
theorem exec_sqFlush_eq {s : State} {c : BitVec 4} (hs : s.ready c) (hq : (s.ctx c).sq.lc = .active)
    (hlc : (s.ctx c).ans.lc = .active) :
    exec (.sqFlush c) s = commit (Instr.sqFlush c).word c s (do
      let r ← recordSteps s.cfg (queueRecords c (s.ctx c).sq).reverse (s.ctx c).ans s.mem
      .ok ⟨{ s.ctx c with ans := r.1, sq := { (s.ctx c).sq with lc := .final } }, r.2, (s.ctx c).sq.len⟩) := by
  refine (runCommand_served (c := c) rfl hs.1 hs.2).trans ?_
  rw [requireActive_ok hq, ok_bind, requireActive_ok hlc, ok_bind, flushFrom_eq_recordSteps]
  rfl

section
variable {s t : State} {c : BitVec 4}

/-- The direct ANS command of a valid record answers OK only when the record's step finishes, and leaves the ANS
registers and the memory of the step. -/
theorem recordStep_of_exec {r : SqRecord} {v : Word} (hs : s.ready c) (hlc : (s.ctx c).ans.lc = .active)
    (hv : r.valid = true) (hx : exec (recordCommand c r) s = .next t) (hok : t.response = some ⟨.ok, v⟩) :
    recordStep s.cfg r (s.ctx c).ans s.mem = .ok ((t.ctx c).ans, t.mem) ∧ t.cfg = s.cfg ∧ t.ready c := by
  rw [exec_recordCommand hs hlc hv] at hx
  rcases hstep : recordStep s.cfg r (s.ctx c).ans s.mem with (f | f) | ⟨ans', m'⟩
  all_goals
    rw [hstep] at hx
    cases hx
  · cases hok
  · rw [State.respond_ctx, State.setMem_ctx, State.ctx_setCtx_self]
    exact ⟨rfl, rfl, hs⟩

/-- The direct ANS commands of valid records run only when the records' steps finish, and leave what they leave. -/
theorem recordSteps_of_runAll {rs : List SqRecord} {vs : List Word} (hs : s.ready c)
    (hlc : (s.ctx c).ans.lc = .active) (hv : ∀ r ∈ rs, r.valid = true)
    (h : runAll (rs.map (recordCommand c)) s = some (vs, t)) :
    recordSteps s.cfg rs (s.ctx c).ans s.mem = .ok ((t.ctx c).ans, t.mem) := by
  induction rs generalizing s vs with
  | nil =>
    cases h
    rfl
  | cons r rs ih =>
    obtain ⟨hr, hrs⟩ := List.forall_mem_cons.mp hv
    obtain ⟨s1, v, q, hx, hok, hrun, hq⟩ := runAll_cons_some h
    cases hq
    obtain ⟨hstep, hcfg, hs1⟩ := recordStep_of_exec hs hlc hr hx hok
    rw [recordSteps, hstep, ok_bind, ← hcfg]
    exact ih hs1 ((recordStep_ok hstep).lc.trans hlc) hrs hrun

end

/-! ### Faults (spec R141, R144, R145, R163, R164) -/

section
variable {s : State} {c : BitVec 4}

/-- SQ_FLUSH takes the overrun of a record's step after the steps of the records before it in the flush. -/
theorem exec_sqFlush_overruns {done rest : List SqRecord} {r : SqRecord} {ans' : AnsRegs} {m' : Memory} (hs : s.ready c)
    (hq : (s.ctx c).sq.lc = .active) (hlc : (s.ctx c).ans.lc = .active)
    (hrecs : (queueRecords c (s.ctx c).sq).reverse = done ++ r :: rest)
    (hdone : recordSteps s.cfg done (s.ctx c).ans s.mem = .ok (ans', m'))
    (hr : recordStep s.cfg r ans' m' = .error (.raise .outputOverrun)) :
    exec (.sqFlush c) s = .next (takeFault .outputOverrun (Instr.sqFlush c).word s) := by
  rw [exec_sqFlush_eq hs hq hlc, hrecs, recordSteps_append _ hdone, recordSteps, hr]
  rfl

/-- With the region in the memory, SQ_FLUSH of an ACTIVE queue into an ACTIVE ANS completes or overruns. -/
theorem exec_sqFlush_completes_or_overruns (hs : s.ready c) (hq : (s.ctx c).sq.lc = .active)
    (hlc : (s.ctx c).ans.lc = .active) (hfit : regionFits s.cfg (s.ctx c).ans.base (s.ctx c).ans.cap) :
    ∃ t, exec (.sqFlush c) s = .next t ∧
      (t.response = some ⟨.ok, (s.ctx c).sq.len⟩ ∨ t = takeFault .outputOverrun (Instr.sqFlush c).word s) := by
  rcases exec_served (i := .sqFlush c) (.inl hs.1) hs.2 with ⟨d, ⟨-, -, ans', m', -, rfl⟩, hx⟩ | ⟨e, ha, hx⟩
  · exact ⟨_, hx, .inl rfl⟩
  · rcases ha with ⟨-, hn⟩ | ⟨-, -, he⟩
    · exact absurd hn (by simp [hq, hlc])
    · rcases flushFrom_error he with rfl | ⟨-, hout⟩
      · exact ⟨_, hx, .inr rfl⟩
      · exact absurd hfit.2 (by omega)

theorem exec_ansEnd_outOfRange (hs : s.ready c) (hlc : (s.ctx c).ans.lc = .active)
    (hx : ¬ ansInRange (s.ctx c).ans.x.toNat) :
    exec (.ansEnd c) s = .next (takeFault .ansStateInvariant (Instr.ansEnd c).word s) := by
  refine (runCommand_served (c := c) rfl hs.1 hs.2).trans ?_
  rw [requireActive_ok hlc, ok_bind, require_false hx]
  rfl

theorem exec_ansEnd_overruns (hs : s.ready c) (hlc : (s.ctx c).ans.lc = .active)
    (hx : ansInRange (s.ctx c).ans.x.toNat) (hfit : regionFits s.cfg (s.ctx c).ans.base (s.ctx c).ans.cap)
    (hroom : (s.ctx c).ans.cap.toNat <
      (s.ctx c).ans.off.toNat + (ansEndBytes ((s.ctx c).ans.x.toNat - 1024)).length) :
    exec (.ansEnd c) s = .next (takeFault .outputOverrun (Instr.ansEnd c).word s) := by
  rcases ansPutAll_overruns s.mem hfit.2 hroom with h | h
  · rw [exec_ansEnd_eq hs hlc hx, h]
    rfl
  · have hlen := ansEndBytes_length ((s.ctx c).ans.x.toNat - 1024)
    rw [h, List.length_nil] at hlen
    split_ifs at hlen

end

/-- Settles O24: the symbol commands and ANS_END overrun when their bytes have no room; the direct commands for the
records before `r` in the flush leave what SQ_FLUSH has done when it comes to `r`. -/
theorem ansFaults : Obligations.AnsFaults := by
  intro s c hs hlc
  refine ⟨fun a p0 hp hroom hx => ?_, fun cum prob hp hsum hroom hx => ?_, exec_ansEnd_outOfRange hs hlc,
    fun hlo hhi hfit hroom => ?_, fun hq hok => ⟨fun done rest r vs u hrecs hrun hroom hx => ?_,
      exec_sqFlush_completes_or_overruns hs hq hlc⟩⟩
  · rw [← uabsLs_bitOperand] at hx
    rw [exec_ansUabs_eq hs hlc hp, commitSymbol_full hroom hx]
  · rw [exec_ansRans_eq hs hlc hp hsum, commitSymbol_full hroom hx]
  · rw [← ansEndBytes_length] at hroom
    exact exec_ansEnd_overruns hs hlc ⟨hlo, hhi⟩ hfit hroom
  · have hvalid : ∀ x ∈ done ++ r :: rest, x.valid = true := fun x hx =>
      hok.queueRecords_valid c x (List.mem_reverse.mp (hrecs ▸ hx))
    have hdone := recordSteps_of_runAll hs hlc (fun x hx => hvalid x (List.mem_append_left _ hx)) hrun
    exact exec_sqFlush_overruns hs hq hlc hrecs hdone (recordStep_full s.cfg u.mem (hvalid r (by simp)) hroom hx)

/-- Settles O19: a symbol past slot 255 cannot be of width 0, so the symbol range is the check that fails. -/
theorem symbolPastSlotsFaults : Obligations.SymbolPastSlotsFaults := by
  intro s c cum prob hs hsum
  have hp : prob ≠ 0 := by
    rintro rfl
    have := cum.isLt
    simp at hsum
    omega
  refine ⟨fun hlc => ?_, fun hlc => ?_⟩
  all_goals
    refine exec_raises hs (fun d hran => ?_) fun e he => ?_
    · obtain ⟨-, -, hle, -⟩ := hran
      omega
    · rcases he with ⟨-, hn⟩ | ⟨-, -, h0⟩ | ⟨-, -, he, -⟩ | ⟨-, -, hle, -⟩
      · exact absurd hlc hn
      · exact absurd h0 hp
      · exact he
      · omega

end Sys2Proof.Machine
end

section
/-! SUPPORT. The symbol queue's commands over the steps of Laws/SymbolQueue (spec R160 to R166): the layout of a record,
the appends as one, and SQ_FLUSH against the direct ANS commands. -/

namespace Sys2Proof.Machine

/-! ### The layout of a record (spec R160) -/

/-- A bit and two bytes, most significant first, as the digits of one number. -/
theorem toNat_append_bytes (t : BitVec 1) (u v : BitVec 8) :
    (t ++ u ++ v).toNat = 65536 * t.toNat + 256 * u.toNat + v.toNat := by
  rw [BitVec.toNat_append, BitVec.toNat_append, ← Nat.shiftLeft_add_eq_or_of_lt u.isLt,
    ← Nat.shiftLeft_add_eq_or_of_lt v.isLt, Nat.shiftLeft_eq, Nat.shiftLeft_eq]
  omega

theorem SqRecord.toBits_toNat (r : SqRecord) :
    r.toBits.toNat = (if r.tag = .rans then 65536 else 0) + 256 * r.vs.toNat + r.prob.toNat := by
  obtain ⟨tag, vs, prob⟩ := r
  cases tag
  · exact toNat_append_bytes 0#1 vs prob
  · exact toNat_append_bytes 1#1 vs prob

/-- No two records have the same bits: the fields are the digits of their number. -/
theorem SqRecord.toBits_injective : Function.Injective SqRecord.toBits := by
  intro r r' h
  have hnum := congrArg BitVec.toNat h
  rw [r.toBits_toNat, r'.toBits_toNat] at hnum
  obtain ⟨tag, vs, prob⟩ := r
  obtain ⟨tag', vs', prob'⟩ := r'
  have hvs := vs.isLt
  have hprob := prob.isLt
  have hvs' := vs'.isLt
  have hprob' := prob'.isLt
  simp only [SqRecord.mk.injEq, ← BitVec.toNat_inj]
  cases tag <;> cases tag' <;> simp only [reduceCtorEq, if_true, if_false, true_and, false_and] at hnum ⊢ <;> omega

theorem SqRecord.toBits_ofBits (b : BitVec 17) : (SqRecord.ofBits b).toBits = b := by
  have hb := b.isLt
  have htag : ((SqRecord.ofBits b).tag = .rans) = (65536 ≤ b.toNat) := by
    have hbit : b.getLsbD 16 = decide (65536 ≤ b.toNat) := by
      rw [BitVec.getLsbD, Nat.testBit_eq_decide_div_mod_eq, decide_eq_decide]
      omega
    rw [SqRecord.ofBits, hbit]
    simp
  have hvs : (SqRecord.ofBits b).vs.toNat = b.toNat / 256 % 256 := by
    simp [SqRecord.ofBits, Nat.shiftRight_eq_div_pow]
  have hprob : (SqRecord.ofBits b).prob.toNat = b.toNat % 256 := by simp [SqRecord.ofBits]
  apply BitVec.eq_of_toNat_eq
  simp only [SqRecord.toBits_toNat, hvs, hprob, htag]
  split_ifs <;> omega

/-- Settles O6: the bits of a record are the digits of one number. -/
theorem recordLayout : Obligations.RecordLayout :=
  ⟨fun r => ⟨SqRecord.toBits_injective (SqRecord.toBits_ofBits _), r.toBits_toNat⟩, SqRecord.toBits_ofBits⟩

/-! ### SQ_INIT (spec R161) -/

/-- Settles O41: with a capacity in range SQ_INIT cannot abort. -/
theorem sqInitResult : Obligations.SqInitResult := by
  intro s c capacity hs hcap
  exact exec_finishes
    (d := ⟨{ s.ctx c with sq := { (s.ctx c).sq with lc := .active, len := 0, cap := capacity } }, s.mem, 0⟩) hs
    (fun _ ⟨_, hd⟩ => hd) fun _ ⟨_, hn⟩ => absurd hcap (Nat.not_le.mpr hn)

/-! ### The appends (spec R162, R163) -/

/-- The end of an append whose operands are legal: the record joins the queue, and the copy is committed. -/
def commitAppend (w : Word) (c : BitVec 4) (s : State) (r : SqRecord) : Host.Outcome State Fault Refusal :=
  commit w c s do
    let sq ← sqAppend r (s.ctx c).sq
    .ok ⟨{ s.ctx c with sq := sq }, s.mem, 0⟩

section
variable {s : State} {c : BitVec 4}

theorem exec_sqUabs_eq {a p : BitVec 8} (hs : s.ready c) (hq : (s.ctx c).sq.lc = .active) (hp : p ≠ 0) :
    exec (.sqUabs c a p) s = commitAppend (Instr.sqUabs c a p).word c s (uabsRecord (bitOperand a) p) := by
  refine (runCommand_served (c := c) rfl hs.1 hs.2).trans ?_
  rw [requireActive_ok hq, ok_bind, checkProbability, require_true hp, ok_bind]
  rfl

theorem exec_sqRans_eq {cum prob : BitVec 8} (hs : s.ready c) (hq : (s.ctx c).sq.lc = .active) (hp : prob ≠ 0)
    (hsum : cum.toNat + prob.toNat ≤ 256) :
    exec (.sqRans c cum prob) s = commitAppend (Instr.sqRans c cum prob).word c s (ransRecord cum prob) := by
  refine (runCommand_served (c := c) rfl hs.1 hs.2).trans ?_
  rw [requireActive_ok hq, ok_bind, checkProbability, require_true hp, ok_bind, checkSymbolRange,
    require_true (p := _ ≤ probScale) hsum, ok_bind]
  rfl

theorem commitAppend_full (w : Word) (r : SqRecord) (h : (s.ctx c).sq.cap.toNat ≤ (s.ctx c).sq.len.toNat) :
    commitAppend w c s r = .next (takeFault .queueFull w s) := by
  rw [commitAppend, sqAppend_full h]
  rfl

theorem commitAppend_room (w : Word) (r : SqRecord) (h : (s.ctx c).sq.len.toNat < (s.ctx c).sq.cap.toNat) :
    commitAppend w c s r = .next ((s.setCtx c { s.ctx c with
      sq := { (s.ctx c).sq with
        len := (s.ctx c).sq.len + 1, recs := insertAt (s.ctx c).sq.len.toNat r (s.ctx c).sq.recs } }).respond .ok 0) := by
  rw [commitAppend, sqAppend_eq h]
  rfl

end

theorem readRecord_insertAt (c : BitVec 4) (recs : RecordStore) (i : Nat) (r : SqRecord) (k : Nat) :
    readRecord c (insertAt i r recs) k = if k = i then r else readRecord c recs k := by
  split_ifs with h
  · rw [h, readRecord_insertAt_self]
  · exact readRecord_insertAt_ne c recs r h

theorem uabsRecord_bitOperand (a p : BitVec 8) :
    uabsRecord (bitOperand a) p = ⟨.uabs, if a.getLsbD 0 then 1 else 0, p⟩ := by
  unfold uabsRecord bitOperand
  cases a.getLsbD 0 <;> rfl

/-- Settles O21: a capacity above SQ_MAX fails the only check of SQ_INIT; a full queue takes no record. -/
theorem capacityFaults : Obligations.CapacityFaults := by
  intro s c hs
  refine ⟨fun capacity hcap => ?_, fun hq hfull => ⟨fun a p hp => ?_, fun cum prob hp hsum => ?_⟩⟩
  · exact exec_raises hs (fun _ ⟨hle, _⟩ => absurd hcap (Nat.not_lt.mpr hle)) fun _ ⟨he, _⟩ => he
  · rw [exec_sqUabs_eq hs hq hp, commitAppend_full _ _ hfull]
  · rw [exec_sqRans_eq hs hq hp hsum, commitAppend_full _ _ hfull]

/-- Settles O42: either append joins a valid record to the queue. -/
theorem appendResult : Obligations.AppendResult := by
  intro s c i rec hs hq hroom hi
  have happ : exec i s = commitAppend i.word c s rec ∧ rec.valid = true := by
    rcases hi with ⟨a, p, hp, rfl, rfl⟩ | ⟨cum, prob, hp, hsum, rfl, rfl⟩
    · rw [← uabsRecord_bitOperand]
      exact ⟨exec_sqUabs_eq hs hq hp, uabsRecord_valid _ hp⟩
    · exact ⟨exec_sqRans_eq hs hq hp hsum, ransRecord_valid hp hsum⟩
  obtain ⟨hx, hvalid⟩ := happ
  exact ⟨_, hx.trans (commitAppend_room _ _ hroom), hvalid, readRecord_insertAt c _ _ rec⟩

/-! ### SQ_FLUSH (spec R164, R165) -/

/-- Of the registers a run of ANS steps moves the state and the cursor only. -/
theorem AnsGrows.eq_setXOff {cfg : Config} {ans ans' : AnsRegs} {m m' : Memory} (h : AnsGrows cfg ans m ans' m') :
    ans' = { ans with x := ans'.x, off := ans'.off } := by
  rw [← h.lc, ← h.base, ← h.cap]

/-- Settles O43: with a byte of room a record the loop finishes, so SQ_FLUSH cannot abort. -/
theorem sqFlushCompletes : Obligations.SqFlushCompletes := by
  intro s c hs hq hlc hok hlo hhi hfit hroom
  have hvalid : ∀ i, i < (s.ctx c).sq.len.toNat → (readRecord c (s.ctx c).sq.recs i).valid = true :=
    fun i hi => hok.readRecord_valid c hi
  obtain ⟨⟨ans', m'⟩, hflush⟩ := flushFrom_finishes s.mem hvalid ⟨hlo, hhi⟩ hfit hroom
  have hg := flushFrom_ok hflush
  obtain ⟨⟨hlo', hhi'⟩, hoff⟩ := flushFrom_inRange hvalid ⟨hlo, hhi⟩ hflush
  refine ⟨ans'.x, ans'.off, m', ?_, hlo', hhi', hg.cursor, hoff, hg.frame⟩
  rw [exec_sqFlush_eq hs hq hlc, queueRecords, ← flushFrom_eq_recordSteps, hflush, ← hg.eq_setXOff]
  rfl

section
variable {s : State} {c : BitVec 4}

/-- The direct ANS command of a valid record completes when the record's step finishes. -/
theorem exec_recordCommand_ok {r : SqRecord} {ans' : AnsRegs} {m' : Memory} (hs : s.ready c)
    (hlc : (s.ctx c).ans.lc = .active) (hv : r.valid = true)
    (h : recordStep s.cfg r (s.ctx c).ans s.mem = .ok (ans', m')) :
    exec (recordCommand c r) s = .next (((s.setCtx c { s.ctx c with ans := ans' }).setMem m').respond .ok 0) := by
  rw [exec_recordCommand hs hlc hv, h]
  rfl

/-- The direct ANS commands of valid records run when the records' steps finish, and leave what they leave. -/
theorem runAll_of_recordSteps {rs : List SqRecord} {ans' : AnsRegs} {m' : Memory} (hs : s.ready c)
    (hlc : (s.ctx c).ans.lc = .active) (hv : ∀ r ∈ rs, r.valid = true)
    (h : recordSteps s.cfg rs (s.ctx c).ans s.mem = .ok (ans', m')) :
    ∃ vs t, runAll (rs.map (recordCommand c)) s = some (vs, t) ∧ (t.ctx c).ans = ans' ∧ t.mem = m' := by
  induction rs generalizing s with
  | nil =>
    cases h
    exact ⟨[], s, rfl, rfl, rfl⟩
  | cons r rs ih =>
    obtain ⟨hr, hrs⟩ := List.forall_mem_cons.mp hv
    obtain ⟨⟨a1, m1⟩, hstep, h⟩ := bind_ok h
    have hx := exec_recordCommand_ok hs hlc hr hstep
    obtain ⟨vs, t, hrun, hend⟩ := ih (s := ((s.setCtx c { s.ctx c with ans := a1 }).setMem m1).respond .ok 0) hs
      (by simpa using (recordStep_ok hstep).lc.trans hlc) hrs (by simpa using h)
    exact ⟨0 :: vs, t, runAll_cons hx rfl hrun, hend⟩

end

/-- Settles O44: SQ_FLUSH steps through the records, and so do the direct commands; each runs when the steps finish. -/
theorem flushEqualsReversedCommands : Obligations.FlushEqualsReversedCommands := by
  intro s c hs hq hlc hok
  have hvalid : ∀ r ∈ (queueRecords c (s.ctx c).sq).reverse, r.valid = true := fun r hr =>
    hok.queueRecords_valid c r (List.mem_reverse.mp hr)
  refine ⟨fun vs t hrun => ?_, fun t hx hresp => ?_⟩
  · rw [exec_sqFlush_eq hs hq hlc, recordSteps_of_runAll hs hlc hvalid hrun]
    rfl
  · rw [exec_sqFlush_eq hs hq hlc] at hx
    rcases hsteps : recordSteps s.cfg (queueRecords c (s.ctx c).sq).reverse (s.ctx c).ans s.mem with (f | f) | ⟨ans', m'⟩
    all_goals
      rw [hsteps] at hx
      cases hx
    · cases hresp
    · obtain ⟨vs, u, hrun, hans, hmem⟩ := runAll_of_recordSteps hs hlc hvalid hsteps
      exact ⟨vs, u, hrun, by simpa using hans, hmem⟩

end Sys2Proof.Machine
end

section
/-! SUPPORT. One step of the machine (spec R183, R184): the equation of each kind of step, what a halted block answers,
and why a state with the invariant never stops. -/

namespace Sys2Proof.Machine

/-! ### The kinds of step (spec R183) -/

section
variable {s : State} {w : Word} {ext : List Word}

theorem step_of_decode_ok {i : Instr} (hs : s.stream = w :: ext) (hd : decode w ext = .ok i) :
    step s = exec i (s.consume w ext) := by
  simp only [step, hs, hd]

theorem step_of_decode_error {r : Reject} (hs : s.stream = w :: ext) (hd : decode w ext = .error r) :
    step s = .next (rejectWord r w (s.consume w ext)) := by
  simp only [step, hs, hd]

/-- A halted block refuses a word that is no command, unless its opcode is REG_READ's (spec R184). -/
theorem rejectWord_refused (r : Reject) (hh : s.halted = true) (hw : opField w ≠ 0xE) :
    rejectWord r w s = refuseHalted s :=
  if_pos (by simpa [hh] using hw)

/-- A word that is no command and is not refused raises its fault. -/
theorem rejectWord_taken (r : Reject) (h : s.halted = false ∨ opField w = 0xE) :
    rejectWord r w s = takeFault (rejectCode r) w s :=
  if_neg (by rcases h with h | h <;> simp [h])

end

/-- Settles O8: the step's own equation, and the round trip of the encoding for the words of a command. -/
theorem stepRunsDecodedCommand : Obligations.StepRunsDecodedCommand := by
  refine ⟨fun s w ext i hs hd => step_of_decode_ok hs hd, fun s i rest hwf hs => ?_⟩
  obtain ⟨hd, hrest⟩ := encodeDecodeRoundTrip i rest hwf
  rw [step_of_decode_ok (w := i.word) (ext := i.ext ++ rest) hs hd, State.consume, hrest]

/-- The codes of spec R200 for the words that are no command. -/
theorem rejectCode_code {r : Reject} {code : BitVec 8}
    (h : (r, code) ∈ [(Reject.illegalOpcode, 0x01#8), (.truncatedCommand, 0x0E#8), (.reservedNonzero, 0x02#8)]) :
    code = (rejectCode r).code := by
  simp only [List.mem_cons, List.not_mem_nil, or_false, Prod.mk.injEq] at h
  rcases h with ⟨rfl, rfl⟩ | ⟨rfl, rfl⟩ | ⟨rfl, rfl⟩ <;> rfl

/-- Settles O9: the word is refused or its fault is taken, and taking it records the first fault only. -/
theorem stepAnswersRejectedWord : Obligations.StepAnswersRejectedWord := by
  intro s w ext r code hs hd hcode
  obtain rfl := rejectCode_code hcode
  have hhalted (h0 : s.faultCode ≠ 0) : (s.consume w ext).halted = true := s.halted_eq_true_iff.mpr h0
  rw [step_of_decode_error hs hd]
  refine ⟨fun h0 => ?_, fun h0 hw => ?_, fun h0 hw => ?_⟩
  · have hrun : (s.consume w ext).halted = false := s.halted_eq_false_iff.mpr h0
    rw [rejectWord_taken r (.inl hrun), takeFault_first _ w hrun]
    rfl
  · rw [rejectWord_refused r (hhalted h0) hw]
    rfl
  · rw [rejectWord_taken r (.inr hw), takeFault_halted _ w (hhalted h0)]
    rfl

/-! ### A halted block (spec R184) -/

section
variable {s : State} (hh : s.halted = true)
include hh

/-- A halted block answers a fault without recording it. -/
theorem exec_regRead_unassigned_halted {c : BitVec 4} {n : BitVec 8} (hc : c.toNat < s.cfg.nCtx)
    (hn : regOf n = none) : exec (.regRead c n) s = .next (s.respond .faulted 0x0B) := by
  rw [exec_regRead_unassigned hc hn, takeFault_halted _ _ hh]
  rfl

theorem exec_regRead_absent_halted {c : BitVec 4} {n : BitVec 8} (hc : s.cfg.nCtx ≤ c.toNat) :
    exec (.regRead c n) s = .next (s.respond .faulted 0x03) := by
  rw [exec_badContext (.inr rfl) hc, takeFault_halted _ _ hh]
  rfl

/-- REG_READ in a halted block changes nothing but the response, whatever it names. -/
theorem exec_regRead_responds (c : BitVec 4) (n : BitVec 8) :
    ∃ st v, exec (.regRead c n) s = .next (s.respond st v) := by
  by_cases hc : c.toNat < s.cfg.nCtx
  · cases hn : regOf n with
    | none => exact ⟨_, _, exec_regRead_unassigned_halted hh hc hn⟩
    | some r => exact ⟨_, _, exec_regRead_assigned hc hn⟩
  · exact ⟨_, _, exec_regRead_absent_halted hh (Nat.not_lt.mp hc)⟩

/-- No command changes anything but the response of a halted block. -/
theorem exec_responds_of_halted (i : Instr) : ∃ st v, exec i s = .next (s.respond st v) := by
  cases i with
  | regRead c n => exact exec_regRead_responds hh c n
  | _ => exact ⟨_, _, exec_halted hh (by simp [Instr.opcode])⟩

/-- No word that is no command changes anything but the response of a halted block. -/
theorem rejectWord_responds_of_halted (r : Reject) (w : Word) : ∃ st v, rejectWord r w s = s.respond st v := by
  by_cases hw : opField w = 0xE
  · exact ⟨_, _, (rejectWord_taken r (.inr hw)).trans (takeFault_halted _ w hh)⟩
  · exact ⟨_, _, rejectWord_refused r hh hw⟩

end

/-- Settles O12: command or not, the words served get a response and change nothing else. -/
theorem haltedStateIsFrozen : Obligations.HaltedStateIsFrozen := by
  intro s h0 hne
  obtain ⟨w, ext, hs⟩ := List.exists_cons_of_ne_nil hne
  have hh : (s.consume w ext).halted = true := s.halted_eq_true_iff.mpr h0
  cases hd : decode w ext with
  | ok i =>
    obtain ⟨st, v, hx⟩ := exec_responds_of_halted hh i
    exact ⟨_, _, (step_of_decode_ok hs hd).trans hx⟩
  | error r =>
    obtain ⟨st, v, hx⟩ := rejectWord_responds_of_halted hh r w
    exact ⟨_, _, (step_of_decode_error hs hd).trans (congrArg _ hx)⟩

/-- Of the host's turns only a reset clears FAULT_CODE. -/
theorem hostTurn_clears_fault {s t : State} (h0 : s.faultCode ≠ 0) (h : hostTurn s = .next t) (ht : t.faultCode = 0) :
    ∃ rest, s.inbox = .reset :: rest := by
  unfold hostTurn at h
  split at h
  · cases h
    exact absurd ht h0
  · cases h
    exact absurd ht h0
  · split at h <;> cases h
    exact absurd ht h0
  · exact ⟨_, ‹_›⟩

/-- Settles O11: the answers to each command, and the reset as the only step that clears FAULT_CODE. -/
theorem haltedBlockRefusesCommands : Obligations.HaltedBlockRefusesCommands := by
  intro s h0
  have hh : s.halted = true := s.halted_eq_true_iff.mpr h0
  refine ⟨fun i hi => exec_halted hh hi, fun c n r hc hn => exec_regRead_assigned hc hn,
    fun c n hc hn => exec_regRead_unassigned_halted hh hc hn, fun c n hc => exec_regRead_absent_halted hh hc,
    fun t hstep ht => ?_⟩
  by_cases hs : s.stream = []
  · exact ⟨hs, hostTurn_clears_fault h0 (step_of_stream_nil hs ▸ hstep) ht⟩
  · obtain ⟨rest, r, hx⟩ := haltedStateIsFrozen s h0 hs
    rw [hstep] at hx
    cases hx
    exact absurd ht h0

/-! ### No step stops the machine (spec R52, R183) -/

/-- With the region in the memory an ANS step aborts for want of room only. -/
theorem ansStep_no_stop {cfg : Config} {ans : AnsRegs} {f : Fault} (hfit : regionFits cfg ans.base ans.cap)
    (h : Abort.stop f = .raise .outputOverrun ∨
      (Abort.stop f = .stop .addressOutsideMemory ∧ memSize cfg < ans.base.toNat + ans.cap.toNat)) : False := by
  obtain ⟨-, hin⟩ := hfit
  rcases h with h | ⟨-, hout⟩
  · cases h
  · omega

/-- A decode step of a unit in its legal values, with its region in the memory, finishes. -/
theorem decBit_no_error {cfg : Config} {p : Nat} {bd : BdRegs} {m : Memory} {e : Abort} (hok : BdOk bd) (hp : p ≤ 255)
    (hfit : regionFits cfg bd.base bd.size) : decBit cfg p bd m ≠ .error e := by
  obtain ⟨bd', h, -⟩ := decBit_eq m (Nat.le_trans (by decide) hok.rangeLow) hp hfit
  rw [h]
  exact nofun

section
variable {cfg : Config} {be : BeRegs} {m : Memory} {f : Fault} (hok : BeOk be) (hfit : regionFits cfg be.base be.cap)
include hok hfit

theorem encBit_no_stop {bit : Bool} {p : Nat} (hp : p ≤ 255) : encBit cfg bit p be m ≠ .error (.stop f) := by
  obtain ⟨-, hin⟩ := hfit
  intro h
  rcases encBit_raises hok hp h with ⟨he, -⟩ | ⟨he, -⟩ | ⟨-, hout⟩
  · cases he
  · cases he
  · omega

theorem encPadding_no_stop {n : Nat} : encPadding cfg n be m ≠ .error (.stop f) := by
  obtain ⟨-, hin⟩ := hfit
  intro h
  rcases encPadding_raises hok h with ⟨he, -⟩ | ⟨he, -⟩ | ⟨-, hout⟩
  · cases he
  · cases he
  · omega

theorem guardByte_no_stop : guardByte cfg be m ≠ .error (.stop f) := by
  intro h
  rcases guardByte_raises h with ⟨he, -⟩ | ⟨-, hout⟩
  · cases he
  · exact hout ⟨hfit, hok.cursor⟩

end

/-- No command stops the model in a context in its legal values: its accesses lie in a region, and the region lies in
the memory (spec R51, R52). -/
theorem ContextOk.no_stop {s : State} {i : Instr} {f : Fault} (hk : ContextOk s.cfg (s.ctx i.ctx)) :
    ¬ Aborts s (.stop f) i := by
  intro h
  cases i with
  | beStart | bdInit | ansInit | sqInit | regRead =>
    obtain ⟨he, -⟩ := h
    cases he
  | beWrite c a p =>
    rcases h with ⟨he, -⟩ | ⟨-, he, -⟩ | ⟨hlc, -, he⟩
    · cases he
    · cases he
    · exact encBit_no_stop (hk.beActive hlc) hk.beRegion (probability_le p) he
  | beStop c =>
    rcases h with ⟨he, -⟩ | ⟨hlc, he | ⟨be1, m1, hpad, he⟩⟩
    · cases he
    · exact encPadding_no_stop (hk.beActive hlc) hk.beRegion he
    · have hp := encPadding_ok (hk.beActive hlc) hpad
      exact guardByte_no_stop hp.ok (by rw [hp.base, hp.cap]; exact hk.beRegion) he
  | bdRead c p =>
    rcases h with ⟨he, -⟩ | ⟨-, he, -⟩ | ⟨hlc, -, he⟩
    · cases he
    · cases he
    · exact decBit_no_error (hk.bdActive hlc) (probability_le p) hk.bdRegion he
  | ansUabs c a p0 =>
    rcases h with ⟨he, -⟩ | ⟨-, he, -⟩ | ⟨-, -, he⟩
    · cases he
    · cases he
    · exact ansStep_no_stop hk.ansRegion (uabsStep_error he)
  | ansRans c cum prob =>
    rcases h with ⟨he, -⟩ | ⟨-, he, -⟩ | ⟨-, -, he, -⟩ | ⟨-, -, -, he⟩
    · cases he
    · cases he
    · cases he
    · exact ansStep_no_stop hk.ansRegion (ransStep_error he)
  | ansEnd c =>
    rcases h with ⟨he, -⟩ | ⟨-, he, -⟩ | ⟨-, -, he⟩
    · cases he
    · cases he
    · exact ansStep_no_stop hk.ansRegion (ansPutAll_error he)
  | sqUabs c a p =>
    rcases h with ⟨he, -⟩ | ⟨-, he, -⟩ | ⟨-, -, he, -⟩ <;> cases he
  | sqRans c cum prob =>
    rcases h with ⟨he, -⟩ | ⟨-, he, -⟩ | ⟨-, -, he, -⟩ | ⟨-, -, -, he, -⟩ <;> cases he
  | sqFlush c =>
    rcases h with ⟨he, -⟩ | ⟨-, -, he⟩
    · cases he
    · exact ansStep_no_stop hk.ansRegion (flushFrom_error he)

section
variable {s : State} (hs : s.Inv)
include hs

/-- Every command answers with a next state. -/
theorem State.Inv.exec_never_stops (i : Instr) : ∃ t, Machine.exec i s = .next t := by
  rcases exec_cases i s with ⟨-, -, hx⟩ | ⟨-, -, hx⟩ | ⟨-, -, d, -, hx⟩ | ⟨-, -, f, -, hx⟩ | ⟨-, -, f, hstop, -⟩
  · exact ⟨_, hx⟩
  · exact ⟨_, hx⟩
  · exact ⟨_, hx⟩
  · exact ⟨_, hx⟩
  · exact absurd hstop (hs.contexts i.ctx).no_stop

/-- Every turn of the host is taken: the host writes to addresses that exist. -/
theorem State.Inv.hostTurn_never_stops : ∃ t, Machine.hostTurn s = .next t := by
  cases hbox : s.inbox with
  | nil => exact ⟨_, hostTurn_wait hbox⟩
  | cons turn rest =>
    cases turn with
    | send ws => exact ⟨_, hostTurn_send hbox⟩
    | write a v => exact ⟨_, hostTurn_write hbox (hs.hostInside a v (by simp [hbox]))⟩
    | reset => exact ⟨_, hostTurn_reset hbox⟩

end

/-- Settles O56: a host turn, a command and a rejected word each answer a next state. -/
theorem goodStatesNeverStop : Obligations.GoodStatesNeverStop := by
  intro s hs
  cases hstream : s.stream with
  | nil =>
    rw [step_of_stream_nil hstream]
    exact hs.hostTurn_never_stops
  | cons w ext =>
    cases hd : decode w ext with
    | ok i =>
      rw [step_of_decode_ok hstream hd]
      exact (hs.setStream (streamAfter w ext)).exec_never_stops i
    | error r => exact ⟨_, step_of_decode_error hstream hd⟩

end Sys2Proof.Machine
end

section
/-! SUPPORT. Exceptions (spec R200 to R204): what a FAULTED answer leaves as it was and records, which engines a command
needs ACTIVE, and reset as the way out. -/

namespace Sys2Proof.Machine

/-! ### A FAULTED answer (spec R203) -/

/-- `t` is what a fault of the command whose first word is `w`, answered with `{FAULTED, v}`, leaves of `s`: nothing but
the response and the fault registers differs, and those hold the first fault since reset. -/
structure FaultAnswer (w : Word) (s t : State) (v : Word) : Prop where
  precise : t = { s with faultCode := t.faultCode, faultCmd := t.faultCmd, response := some ⟨.faulted, v⟩ }
  halts   : t.faultCode ≠ 0
  first   : s.faultCode = 0 → t.faultCode.setWidth 32 = v ∧ t.faultCmd = w
  sticky  : s.faultCode ≠ 0 → t.faultCode = s.faultCode ∧ t.faultCmd = s.faultCmd

/-- An answer that records nothing is a fault's in a halted block. -/
theorem faultAnswer_respond {s : State} (w : Word) (h : s.halted = true) (v : Word) :
    FaultAnswer w s (s.respond .faulted v) v :=
  have h0 : s.faultCode ≠ 0 := s.halted_eq_true_iff.mp h
  ⟨rfl, h0, fun h => absurd h h0, fun _ => ⟨rfl, rfl⟩⟩

theorem faultAnswer_takeFault (f : FaultCode) (w : Word) (s : State) :
    FaultAnswer w s (takeFault f w s) (f.code.setWidth 32) := by
  cases h : s.halted with
  | true =>
    rw [takeFault_halted f w h]
    exact faultAnswer_respond w h _
  | false =>
    rw [takeFault_first f w h]
    exact ⟨rfl, f.code_ne_zero, fun _ => ⟨rfl, rfl⟩, fun h0 => absurd (s.halted_eq_false_iff.mp h) h0⟩

/-- The value of a FAULTED answer is the one its response carries. -/
theorem FaultAnswer.of_response {w u v : Word} {s t : State} (h : FaultAnswer w s t u)
    (hv : t.response = some ⟨.faulted, v⟩) : FaultAnswer w s t v := by
  have hu : t.response = some ⟨.faulted, u⟩ := congrArg State.response h.precise
  cases hu.symm.trans hv
  exact h

/-- A command that answers FAULTED was refused or took a fault: one that finished answers OK. -/
theorem exec_faultAnswer {i : Instr} {s t : State} {v : Word} (h : exec i s = .next t)
    (hv : t.response = some ⟨.faulted, v⟩) : FaultAnswer i.word s t v := by
  rcases exec_answers h with ⟨rfl, hh⟩ | ⟨f, rfl⟩ | ⟨-, d, -, rfl⟩
  · exact (faultAnswer_respond i.word hh 0).of_response hv
  · exact (faultAnswer_takeFault f i.word s).of_response hv
  · cases hv

/-- A word that is no command is refused by a halted block, or its fault is taken (spec R183, R184). -/
theorem rejectWord_faultAnswer (r : Reject) (w : Word) (s : State) : ∃ u, FaultAnswer w s (rejectWord r w s) u := by
  by_cases h : s.halted = false ∨ opField w = 0xE
  · exact ⟨_, rejectWord_taken r h ▸ faultAnswer_takeFault (rejectCode r) w s⟩
  · obtain ⟨hrun, hw⟩ := not_or.mp h
    have hh : s.halted = true := by simpa using hrun
    exact ⟨0, rejectWord_refused r hh hw ▸ faultAnswer_respond w hh 0⟩

/-- A step that serves a word and answers FAULTED is a fault of that word, in the state with its words consumed. -/
theorem step_faultAnswer {s t : State} {w v : Word} {ext : List Word} (hs : s.stream = w :: ext) (h : step s = .next t)
    (hv : t.response = some ⟨.faulted, v⟩) : FaultAnswer w (s.consume w ext) t v := by
  cases hd : decode w ext with
  | ok i =>
    obtain ⟨-, hw, -⟩ := decodedCommandReencodes w ext i hd
    rw [step_of_decode_ok hs hd] at h
    have hfault := exec_faultAnswer h hv
    rwa [hw] at hfault
  | error r =>
    obtain ⟨u, hu⟩ := rejectWord_faultAnswer r w (s.consume w ext)
    rw [step_of_decode_error hs hd] at h
    cases h
    exact hu.of_response hv

/-- Settles O13: a FAULTED answer, of a command and of a step that serves a word, is a fault's. -/
theorem faultsArePreciseAndSticky : Obligations.FaultsArePreciseAndSticky := by
  refine ⟨fun i s t v h hv => ?_, fun s t w ext v hs h hv => ?_⟩
  · obtain ⟨precise, halts, first, sticky⟩ := exec_faultAnswer h hv
    exact ⟨precise, halts, first, sticky⟩
  · obtain ⟨precise, halts, first, sticky⟩ := step_faultAnswer hs h hv
    have hstream : t.stream = streamAfter w ext := congrArg State.stream precise
    exact ⟨hstream ▸ precise, halts, first, sticky⟩

/-- Settles O15: a running block sets the fault registers, and a halted one does not. -/
theorem takeFaultRecordsTheFirst : Obligations.TakeFaultRecordsTheFirst :=
  ⟨fun f w s => ⟨fun h => takeFault_first f w (s.halted_eq_false_iff.mpr h),
    fun h => takeFault_halted f w (s.halted_eq_true_iff.mpr h)⟩, rfl⟩

/-! ### The engines a command needs ACTIVE (spec R232) -/

/-- The engines of the context `k` that the command needs are ACTIVE; an init command and REG_READ need none. -/
def EnginesActive (k : Context) : Instr → Prop
  | .beWrite _ _ _ => k.be.lc = .active
  | .beStop _      => k.be.lc = .active
  | .bdRead _ _    => k.bd.lc = .active
  | .ansUabs _ _ _ => k.ans.lc = .active
  | .ansRans _ _ _ => k.ans.lc = .active
  | .ansEnd _      => k.ans.lc = .active
  | .sqUabs _ _ _  => k.sq.lc = .active
  | .sqRans _ _ _  => k.sq.lc = .active
  | .sqFlush _     => k.sq.lc = .active ∧ k.ans.lc = .active
  | .beStart _ _ _ => True
  | .bdInit _ _ _  => True
  | .ansInit _ _ _ => True
  | .sqInit _ _    => True
  | .regRead _ _   => True

/-- A command that finished found its engines ACTIVE. -/
theorem Ran.enginesActive {s : State} {d : Done} {i : Instr} (h : Ran s d i) : EnginesActive (s.ctx i.ctx) i := by
  cases i with
  | beStart | bdInit | ansInit | sqInit | regRead => trivial
  | sqFlush =>
    obtain ⟨hq, ha, -⟩ := h
    exact ⟨hq, ha⟩
  | beWrite | beStop | bdRead | ansUabs | ansRans | ansEnd | sqUabs | sqRans =>
    obtain ⟨hlc, -⟩ := h
    exact hlc

/-- The lifecycle is checked before the operands (spec R201 item 7): a command that aborted for another reason found its
engines ACTIVE. -/
theorem Aborts.lifecycle_or_enginesActive {s : State} {e : Abort} {i : Instr} (h : Aborts s e i) :
    e = .raise .lifecycle ∨ EnginesActive (s.ctx i.ctx) i := by
  cases i with
  | beStart | bdInit | ansInit | sqInit | regRead => exact .inr trivial
  | beStop =>
    rcases h with ⟨he, -⟩ | ⟨hlc, -⟩
    · exact .inl he
    · exact .inr hlc
  | sqFlush =>
    rcases h with ⟨he, -⟩ | ⟨hq, ha, -⟩
    · exact .inl he
    · exact .inr ⟨hq, ha⟩
  | beWrite | bdRead | ansUabs | ansEnd | sqUabs =>
    rcases h with ⟨he, -⟩ | ⟨hlc, -⟩ | ⟨hlc, -⟩
    · exact .inl he
    · exact .inr hlc
    · exact .inr hlc
  | ansRans | sqRans =>
    rcases h with ⟨he, -⟩ | ⟨hlc, -⟩ | ⟨hlc, -⟩ | ⟨hlc, -⟩
    · exact .inl he
    · exact .inr hlc
    · exact .inr hlc
    · exact .inr hlc

/-- A command whose engines are not all ACTIVE raises LIFECYCLE. -/
theorem exec_inactive {i : Instr} {s : State} (hs : s.ready i.ctx) (hlc : ¬ EnginesActive (s.ctx i.ctx) i) :
    exec i s = .next (takeFault .lifecycle i.word s) :=
  exec_raises hs (fun _ hran => hlc hran.enginesActive) fun _ he => he.lifecycle_or_enginesActive.resolve_right hlc

/-- Settles O17, engine by engine. -/
theorem inactiveEngineFaults : Obligations.InactiveEngineFaults := by
  intro s c a p hs
  refine ⟨fun hbe => ⟨exec_inactive hs hbe, exec_inactive hs hbe⟩, fun hbd => exec_inactive hs hbd,
    fun hans => ⟨exec_inactive hs hans, exec_inactive hs hans, exec_inactive hs hans⟩,
    fun hsq => ⟨exec_inactive hs hsq, exec_inactive hs hsq⟩, fun h => exec_inactive hs ?_⟩
  exact not_and_or.mpr h

/-! ### Reset (spec R204, R230) -/

/-- Settles O53: every context becomes `Context.afterReset` of itself. -/
theorem resetRestoresRegistersKeepsMemory : Obligations.ResetRestoresRegistersKeepsMemory := by
  intro s c
  rw [resetBlock_ctx]
  exact ⟨rfl, rfl, rfl, rfl, rfl, rfl, rfl, rfl, rfl⟩

end Sys2Proof.Machine
end

section
/-! SUPPORT. The lifecycle of each engine after a command that did not fault (spec R24, R232). -/

namespace Sys2Proof.Machine

/-- A command that answers OK finished: a refusal and a fault answer FAULTED. -/
theorem exec_ran_of_ok {i : Instr} {s t : State} {v : Word} (h : exec i s = .next t)
    (hv : t.response = some ⟨.ok, v⟩) : ∃ d, Ran s d i ∧ t.ctx i.ctx = d.ctx := by
  rcases exec_answers h with ⟨rfl, -⟩ | ⟨f, rfl⟩ | ⟨-, d, hr, rfl⟩
  · cases hv
  · cases hv
  · exact ⟨d, hr, by simp⟩

/-! ### The engines ACTIVE before, by opcode -/

section
variable {k : Context} {i : Instr} (h : EnginesActive k i)
include h

theorem EnginesActive.be (hi : i.opcode ∈ [0x2#4, 0x3#4]) : k.be.lc = .active := by
  cases i
  case beWrite | beStop => exact h
  all_goals simp [Instr.opcode] at hi

theorem EnginesActive.bd (hi : i.opcode = 0x5#4) : k.bd.lc = .active := by
  cases i
  case bdRead => exact h
  all_goals simp [Instr.opcode] at hi

theorem EnginesActive.ans (hi : i.opcode ∈ [0x7#4, 0x8#4, 0x9#4, 0xD#4]) : k.ans.lc = .active := by
  cases i
  case ansUabs | ansRans | ansEnd => exact h
  case sqFlush => exact h.right
  all_goals simp [Instr.opcode] at hi

theorem EnginesActive.sq (hi : i.opcode ∈ [0xB#4, 0xC#4, 0xD#4]) : k.sq.lc = .active := by
  cases i
  case sqUabs | sqRans => exact h
  case sqFlush => exact h.left
  all_goals simp [Instr.opcode] at hi

end

/-! ### The lifecycles after, by opcode

A command that neither starts nor ends an engine keeps its lifecycle, which was ACTIVE if the command needs it so. -/

section
variable {s : State} {d : Done} {i : Instr} (h : Ran s d i)
include h

theorem Ran.be_lc : d.ctx.be.lc =
    if i.opcode ∈ [0x1#4, 0x2#4] then .active else if i.opcode = 0x3 then .final else (s.ctx i.ctx).be.lc := by
  cases i with
  | beStart =>
    obtain ⟨-, rfl⟩ := h
    rfl
  | beStop =>
    obtain ⟨-, be1, m1, be2, m2, -, -, rfl⟩ := h
    rfl
  | beWrite => exact (h.beKept.lc (by simp [Instr.opcode])).trans h.enginesActive
  | _ => exact h.beKept.lc (by simp [Instr.opcode])

theorem Ran.bd_lc : d.ctx.bd.lc = if i.opcode ∈ [0x4#4, 0x5#4] then .active else (s.ctx i.ctx).bd.lc := by
  cases i with
  | bdInit =>
    obtain ⟨-, v, b, bd', -, hb, rfl⟩ := h
    obtain ⟨-, hlc, -⟩ := decBit_frame hb
    exact hlc
  | bdRead => exact (h.bdKept.lc (by simp [Instr.opcode])).trans h.enginesActive
  | _ => exact h.bdKept.lc (by simp [Instr.opcode])

theorem Ran.ans_lc : d.ctx.ans.lc =
    if i.opcode ∈ [0x6#4, 0x7#4, 0x8#4, 0xD#4] then .active else if i.opcode = 0x9 then .final
      else (s.ctx i.ctx).ans.lc := by
  cases i with
  | ansInit =>
    obtain ⟨-, rfl⟩ := h
    rfl
  | ansEnd =>
    obtain ⟨-, -, ans', m', -, rfl⟩ := h
    rfl
  | ansUabs | ansRans | sqFlush =>
    exact (h.ansKept.lc (by simp [Instr.opcode])).trans (h.enginesActive.ans (by simp [Instr.opcode]))
  | _ => exact h.ansKept.lc (by simp [Instr.opcode])

theorem Ran.sq_lc : d.ctx.sq.lc =
    if i.opcode ∈ [0xA#4, 0xB#4, 0xC#4] then .active else if i.opcode = 0xD then .final
      else (s.ctx i.ctx).sq.lc := by
  cases i with
  | sqInit =>
    obtain ⟨-, rfl⟩ := h
    rfl
  | sqFlush =>
    obtain ⟨-, -, ans', m', -, rfl⟩ := h
    rfl
  | sqUabs | sqRans => exact (h.sqKept.lc (by simp [Instr.opcode])).trans h.enginesActive
  | _ => exact h.sqKept.lc (by simp [Instr.opcode])

end

/-- Settles O49: an OK answer is a finished command's, which found its engines ACTIVE. -/
theorem lifecycleMoves : Obligations.LifecycleMoves := by
  intro i s t v h hv
  obtain ⟨d, hran, hctx⟩ := exec_ran_of_ok h hv
  have hactive := hran.enginesActive
  rw [hctx]
  exact ⟨hran.be_lc, hran.bd_lc, hran.ans_lc, hran.sq_lc, hactive.be, hactive.bd, hactive.ans, hactive.sq⟩

end Sys2Proof.Machine
end
